-- ==== Sys2Proof/Word.lean ====
section
/-! DEFINITION. The widths the spec fixes (00_scope.md R7): bytes, 16-bit opcodes and channels, 32-bit words. -/

namespace Sys2Proof

/-- R7: a byte is 8 bits; so is a checksum. -/
abbrev Byte := BitVec 8

/-- R7: an opcode (pointer), and an integer channel, is 16 bits. -/
abbrev Half := BitVec 16

/-- R7: a float channel and a counter are 32 bits; so is a command word (R80). -/
abbrev Word32 := BitVec 32

end Sys2Proof
end

