-- ==== Sys2Proof/Config.lean ====
section
/-! DEFINITION. The open parameters of the block (00_scope.md R6; 92_eei_decisions.md D12 to D15): what an implementation
fixes. A machine carries them in `State.cfg`, so a statement about every state is a statement about every configuration. -/

namespace Sys2Proof

/-- The `OPEN` rows of R6. The two bounded ones are held as what they add to their bound, so that every value of this type
is a legal configuration: `SCRATCH_MAX >= 60` (D15) and `TMO_W` positive (D13). -/
structure Config where
  /-- `SCRATCH_MAX - 60` (D15). -/
  scratchExtra : Nat
  /-- `DEV_ADDR`, any value of any width (D12). -/
  devAddr : Nat
  /-- `TMO_W - 1` (D13). -/
  tmoExtra : Nat
  /-- `T_CMD` (R280): a duration the host keeps; no rule of the block reads it (D14). -/
  tCmd : Nat
  /-- `T_FANCLEAN` (R281): the same. -/
  tFanclean : Nat
  /-- `T_RESET` (R282): the same. -/
  tReset : Nat
deriving DecidableEq, Repr

/-- `SCRATCH_MAX`, the size of RXBUF in bytes (R6, R39). -/
def Config.scratchMax (c : Config) : Nat := 60 + c.scratchExtra

/-- `STR_MAX = 2 * floor(SCRATCH_MAX / 3) + 1` (R6, R30). -/
def Config.strMax (c : Config) : Nat := 2 * (c.scratchMax / 3) + 1

/-- `TMO_W`, the width of `ARG_TMO` (R6, R24). -/
def Config.tmoW (c : Config) : Nat := c.tmoExtra + 1

/-- The peripheral address the block is bound to; the spec gives neither value nor width (91_not_in_source.md N4). -/
opaque Config.boundDevAddr : Nat

/-- The width of the timeout, less one; the spec gives none (91_not_in_source.md N6). -/
opaque Config.boundTmoExtra : Nat

/-- The durations of R280 to R282; the spec gives no number (91_not_in_source.md N5). -/
opaque Config.boundTCmd : Nat
opaque Config.boundTFanclean : Nat
opaque Config.boundTReset : Nat

/-- DESIGN CHOICE (log 7): the configuration of the machine after reset. `SCRATCH_MAX` is the default 60 that D15 offers;
everything the spec gives no value for is a constant without a body. -/
def Config.chosen : Config :=
  { scratchExtra := 0
    devAddr := Config.boundDevAddr
    tmoExtra := Config.boundTmoExtra
    tCmd := Config.boundTCmd
    tFanclean := Config.boundTFanclean
    tReset := Config.boundTReset }

end Sys2Proof
end

