-- ==== Sys2Proof/Syntax.lean ====
section
/-! DEFINITION. The commands: one constructor per row of spec/opcode_table.json (30_encoding.md R96). -/

namespace Sys2Proof

/-- The 16 commands. `fmt` and `cap` are `CW.ARG8` (R82). `SETACI` takes its 32-bit value from `ARG_DATA`, which is no part
of the command word (R80, R210). -/
inductive Instr where
  | startm (fmt : Byte)
  | stopm
  | rdrdy
  | rdvalF
  | rdvalI
  | sleep
  | wake
  | fancln
  | getaci
  | setaci
  | rdpt (cap : Byte)
  | rdsn (cap : Byte)
  | rdver
  | rdstat
  | clrstat
  | reset
deriving DecidableEq, Repr

end Sys2Proof
end

