-- ==== Sys2Proof/Machine/State.lean ====
section
/-! DEFINITION. The state of the block (10_state.md), as plain data, and its value after reset (R44). -/

namespace Sys2Proof.Machine

open Sys2Proof

/-- The sequencer's position inside a command (R32), in the order the positions are visited. -/
inductive Phase where
  | idle
  | argchk
  | build
  | tx
  | rx
  | validate
  | decode
deriving DecidableEq, Repr

/-- `STATUS.ERR` (R35, R240). -/
inductive ErrKind where
  | ok
  | transportFailure
  | checksumFailure
  | invalidArgument
deriving DecidableEq, Repr

/-- `STATUS.RES_KIND` (R35). The code 7 is reserved and never written, so it is no value of the type (S4). -/
inductive ResKind where
  | none
  | f32x10
  | u16x10
  | u32
  | ver
  | str
  | u16
deriving DecidableEq, Repr

/-- Which Transport call (R35, field `FAULT_PHASE`). -/
inductive CallPhase where
  | write
  | read
deriving DecidableEq, Repr

/-- The fields of `STATUS` (R35). The host cannot write it, and it has no reserved bit; its 16-bit view is
`Status.word` in Flags.lean. -/
structure Status where
  busy : Bool
  done : Bool
  err : ErrKind
  resKind : ResKind
  faultPhase : CallPhase
  faultWord : Byte
deriving DecidableEq, Repr

/-- The value decoder a row of the command ROM names (R96); an identity read carries its capacity (R158). -/
inductive Decoder where
  | u16
  | f32set
  | u16set
  | u32
  | ver
  | ascii (cap : Byte)
deriving DecidableEq, Repr

/-- The receive side of a row (R96, R219): bytes to read, whole Words among them, the decoder and its result kind. -/
structure RxPlan where
  nbytes : Nat
  words : Nat
  dec : Decoder
  kind : ResKind
deriving DecidableEq, Repr

/-- The selected row of the command ROM with its operands filled in (R101 step 4, R136): the opcode, the data bytes that
follow the pointer as Words, and the read, if there is one. -/
structure Plan where
  opc : Half
  data : List Byte
  rx : Option RxPlan
deriving DecidableEq, Repr

/-- The arguments as sampled at `GO` (R36, R276). -/
structure Sampled where
  cw : Word32
  argData : Word32
  argTmo : Nat
deriving DecidableEq, Repr

/-- A Transport call as the block makes it (R14, R56, R57). -/
inductive Call where
  /-- `TWrite(addr, bytes, tmo)` -/
  | write (addr : Nat) (bytes : List Byte) (tmo : Nat)
  /-- `TRead(addr, n, tmo)` -/
  | read (addr : Nat) (n : Nat) (tmo : Nat)
deriving DecidableEq, Repr

/-- What the Transport answers (R14): `Ok` of a write, `Ok(bytes)` of a read, `TransportError` of either. -/
inductive Answer where
  | done
  | bytes (bs : List Byte)
  | error
deriving DecidableEq, Repr

/-- The registers the host can read (R21). `GO` is write-only, so it is not among them. -/
inductive HostReg where
  | cw
  | argData
  | argTmo
  | status
  | rf (i : Fin 10)
  | ru (i : Fin 10)
  | r32
  | r16
  | rvMajor
  | rvMinor
  | rs (i : Nat)
  | rslen
  | crcB0
  | crcB1
  | crcOut
deriving DecidableEq, Repr

/-- What the host can do to the block (R20, R21): write a register that it may write, pulse `GO`, read a register, assert
`RST` and release it (R270: active while asserted). `rst` carries whether a Transport call pending at that moment was carried
out, which R271 leaves open (S6). -/
inductive HostOp where
  | writeCw (v : Word32)
  | writeArgData (v : Word32)
  | writeArgTmo (v : Nat)
  | writeGo (v : Bool)
  | writeCrcB0 (v : Byte)
  | writeCrcB1 (v : Byte)
  | read (r : HostReg)
  | rst (pendingCarriedOut : Bool)
  | rstRelease
deriving DecidableEq, Repr

/-- A move of the environment: the host's or the Transport's (R20). -/
inductive Event where
  | host (op : HostOp)
  | answer (a : Answer)
deriving DecidableEq, Repr

/-- A byte buffer (R50, R54): cells of address and byte, addresses rising, none holding what an unlisted address reads as
(`Memory.wf` in Ops.lean). -/
abbrev Memory := List Host.Cell

/-- What a buffer byte that nothing has written reads as. DESIGN CHOICE (log 8): no rule reads such a byte. -/
def Memory.unlisted : Byte := 0x00#8

/-- The block's faults. There are none: an error ends its command and the block goes on ("none cause process termination",
R240), so no step answers with a fault. Safe. -/
inductive Fault where
deriving DecidableEq, Repr

/-- The reasons a step is refused. -/
inductive Refusal where
  /-- Raised by an arm of exec for a command that has no meaning yet. Safe. -/
  | notModelled (mnemonic : String)
  /-- Raised by a host read of a result register that holds no value (R31, S2: the model refuses the read). Safe. -/
  | resultHoldsNoValue
  /-- Raised by a host read of `RS[i]` with `i >= STR_MAX`, a register the block does not have (R21). Safe. -/
  | noSuchRegister
  /-- Raised when the Transport's next answer to a pending call is outside its contract: `Ok` of the other kind of call, or
  `Ok` of a read with another number of bytes than asked for (R57, S8: the model's Transport has no such answer). Safe. -/
  | transportContract
deriving DecidableEq, Repr

/-- Everything the spec gives the block (10_state.md), the configuration it is bound to (R43), and the model's own
environment and log fields (log 1, log 2). -/
structure State where
  /-- the parameters of R6, which no step changes -/
  cfg : Config
  /-- `CW` (R22) -/
  cw : Word32
  /-- `ARG_DATA` (R23) -/
  argData : Word32
  /-- `ARG_TMO` (R24), a value of `TMO_W` bits -/
  argTmo : Nat
  /-- a `GO` strobe that the sequencer has not taken yet (R36) -/
  go : Bool
  /-- the level of the reset input `RST`: asserted (R270) -/
  rst : Bool
  /-- `STATUS` (R35) -/
  status : Status
  /-- `RF[0..9]` (R25) -/
  rf : Vector Word32 10
  /-- `RU[0..9]` (R26) -/
  ru : Vector Half 10
  /-- `R32` (R27) -/
  r32 : Word32
  /-- `R16` (R28) -/
  r16 : Half
  /-- `RV_MAJOR` (R29) -/
  rvMajor : Byte
  /-- `RV_MINOR` (R29) -/
  rvMinor : Byte
  /-- `RS[0..STR_MAX-1]` (R30) -/
  rs : List Byte
  /-- `RSLEN` (R30) -/
  rsLen : Byte
  /-- `CRC_B0` (R37) -/
  crcB0 : Byte
  /-- `CRC_B1` (R37) -/
  crcB1 : Byte
  /-- `PHASE` (R32) -/
  phase : Phase
  /-- `widx` (R33) -/
  widx : Nat
  /-- `bidx` (R34) -/
  bidx : Nat
  /-- `TXBUF[0..7]` (R38) -/
  txbuf : Memory
  /-- `TXLEN` (R38) -/
  txlen : Nat
  /-- `RXBUF[0..SCRATCH_MAX-1]` (R39) -/
  rxbuf : Memory
  /-- `RXLEN` (R39) -/
  rxlen : Nat
  /-- `acc`, the CRC accumulator (R41) -/
  acc : Byte
  /-- the arguments of the command as sampled at `GO` (R36, R276) -/
  samp : Sampled
  /-- the selected row of the command ROM (R101, R136) -/
  plan : Plan
  /-- the model's own: the environment's next moves, in the order they happen (log 1) -/
  env : List Event
  /-- the model's own: the Transport calls made so far, oldest first (log 2) -/
  calls : List Call
  /-- the model's own: what the last host read returned (log 2) -/
  rdata : Nat
deriving DecidableEq, Repr

/-- The state after `RST` for a configuration (R44, R271): idle, `STATUS` zero, nothing readable. The registers and buffers
that R44 leaves unspecified are zero, DESIGN CHOICE (log 4, 5, 6, 8), and `RST` is released again (log 23). -/
def State.resetWith (c : Config) : State :=
  { cfg := c
    cw := 0#32
    argData := 0#32
    argTmo := 0
    go := false
    rst := false
    status := { busy := false, done := false, err := .ok, resKind := .none, faultPhase := .write, faultWord := 0x00#8 }
    rf := Vector.replicate 10 0#32
    ru := Vector.replicate 10 0#16
    r32 := 0#32
    r16 := 0#16
    rvMajor := 0x00#8
    rvMinor := 0x00#8
    rs := List.replicate c.strMax 0x00#8
    rsLen := 0x00#8
    crcB0 := 0x00#8
    crcB1 := 0x00#8
    phase := .idle
    widx := 0
    bidx := 0
    txbuf := []
    txlen := 0
    rxbuf := []
    rxlen := 0
    acc := 0x00#8
    samp := { cw := 0#32, argData := 0#32, argTmo := 0 }
    plan := { opc := 0x0000#16, data := [], rx := none }
    env := []
    calls := []
    rdata := 0 }

/-- The machine right after reset (R44, R270, R271). -/
def State.reset : State := State.resetWith Config.chosen

end Sys2Proof.Machine
end

