-- ==== Sys2Proof/Machine/Flags.lean ====
section
/-! DEFINITION. `STATUS`, the block's only flag register (10_state.md R35, R36; 60_exceptions.md R240, R245 to R247, R250):
its codes, its 16-bit view, and its values at `GO`, at a successful completion and at an error. -/

namespace Sys2Proof.Machine

open Sys2Proof

/-- R35, R240: the code in `STATUS[3:2]`. -/
def errCode : ErrKind → BitVec 2
  | .ok => 0#2
  | .transportFailure => 1#2
  | .checksumFailure => 2#2
  | .invalidArgument => 3#2

/-- R35: the code in `STATUS[6:4]`. -/
def resCode : ResKind → BitVec 3
  | .none => 0#3
  | .f32x10 => 1#3
  | .u16x10 => 2#3
  | .u32 => 3#3
  | .ver => 4#3
  | .str => 5#3
  | .u16 => 6#3

/-- R35: the code in `STATUS[7]`. -/
def callPhaseCode : CallPhase → BitVec 1
  | .write => 0#1
  | .read => 1#1

/-- R35: `STATUS` as the host reads it, `FAULT_WORD` in bits 15:8 down to `BUSY` in bit 0. -/
def Status.word (st : Status) : BitVec 16 :=
  st.faultWord ++ callPhaseCode st.faultPhase ++ resCode st.resKind ++ errCode st.err
    ++ BitVec.ofBool st.done ++ BitVec.ofBool st.busy

/-- R36: what `GO` makes of `STATUS`. -/
def Status.atGo : Status :=
  { busy := true, done := false, err := .ok, resKind := .none, faultPhase := .write, faultWord := 0x00#8 }

/-- R250: a successful completion with a result kind. -/
def Status.success (kind : ResKind) : Status :=
  { busy := false, done := true, err := .ok, resKind := kind, faultPhase := .write, faultWord := 0x00#8 }

/-- What a command can raise (R15, R240), with the information it records. -/
inductive Raised where
  | invalidArgument
  | transportFailure (p : CallPhase)
  | checksumFailure (k : Nat)
deriving DecidableEq, Repr

/-- R245, R246, R247: `STATUS` after an error; no result kind. The Word index fits 8 bits (R35). -/
def Status.raised : Raised → Status
  | .invalidArgument =>
    { busy := false, done := true, err := .invalidArgument, resKind := .none, faultPhase := .write, faultWord := 0x00#8 }
  | .transportFailure p =>
    { busy := false, done := true, err := .transportFailure, resKind := .none, faultPhase := p, faultWord := 0x00#8 }
  | .checksumFailure k =>
    { busy := false, done := true, err := .checksumFailure, resKind := .none, faultPhase := .write,
      faultWord := BitVec.ofNat 8 k }

/-- R31: `STATUS` declares a result of this kind valid. -/
def Status.declares (st : Status) (kind : ResKind) : Bool := st.done && st.err == .ok && st.resKind == kind

end Sys2Proof.Machine
end

