-- ==== Sys2Proof/Machine/Crc.lean ====
section
/-! DEFINITION. The Checksum Engine (40_crc8.md R110 to R121): the CRC-8 generator, Words, and the equivalent forms. -/

namespace Sys2Proof.Machine

open Sys2Proof

/-- `CRC_POLY` (R6): the generator polynomial, low 8 bits. -/
def crcPoly : Byte := 0x31#8

/-- `CRC_INIT` (R6): the initial accumulator. -/
def crcInit : Byte := 0xFF#8

/-- R110: one shift step; the test is on bit 7 before the shift, the bit shifted out is dropped. -/
def crc8Bit (a : Byte) : Byte :=
  if a.getLsbD 7 then (a <<< 1) ^^^ crcPoly else a <<< 1

/-- `n` shift steps. -/
def crc8Steps : Nat → Byte → Byte
  | 0, t => t
  | n + 1, t => crc8Steps n (crc8Bit t)

/-- R111: absorb one byte: XOR it in whole, then exactly 8 steps. -/
def crc8Byte (a b : Byte) : Byte := crc8Steps 8 (a ^^^ b)

/-- R112: the fold over a byte sequence from `CRC_INIT`; no final XOR, no reflection. -/
def crc8 (s : List Byte) : Byte := s.foldl crc8Byte crcInit

/-- R113: the Word checksum, byte0 fed first. -/
def checksum (b0 b1 : Byte) : Byte := crc8 [b0, b1]

/-- R114: a Word as it is sent. -/
def wordBuild (b0 b1 : Byte) : List Byte := [b0, b1, checksum b0 b1]

/-- R115: a received 3-byte Word is valid when its third byte is the checksum of the first two. The rule is for sequences of 3
bytes only: of a longer one the model ignores the rest, and a byte that a shorter one lacks it takes as 0x00 (DESIGN CHOICE,
log 21: `frameWord`, which makes every Word that is checked, gives 3 bytes). -/
def wordOk (w : List Byte) : Bool := w.getD 2 0x00#8 == checksum (w.getD 0 0x00#8) (w.getD 1 0x00#8)

/-- R41: what `acc` holds after the checksums of successive pairs of data bytes: the last one, or what it held before when
there is no pair. An odd last byte is in no Word (R131) and is passed over (DESIGN CHOICE, log 21). -/
def lastChecksum (a : Byte) : List Byte → Byte
  | b0 :: b1 :: rest => lastChecksum (checksum b0 b1) rest
  | _ => a

/-- R117: eight steps from a zero accumulator, `crc8_byte(0, x)`. -/
def step8 (x : Byte) : Byte := crc8Byte 0x00#8 x

/-- R117: the XOR network for one byte, `n[7]` first. -/
def xorNetwork (t : Byte) : Byte :=
  BitVec.ofBoolListBE
    [t.getLsbD 5 ^^ t.getLsbD 3 ^^ t.getLsbD 2,
     t.getLsbD 7 ^^ t.getLsbD 4 ^^ t.getLsbD 2 ^^ t.getLsbD 1,
     t.getLsbD 7 ^^ t.getLsbD 6 ^^ t.getLsbD 3 ^^ t.getLsbD 1 ^^ t.getLsbD 0,
     t.getLsbD 7 ^^ t.getLsbD 6 ^^ t.getLsbD 3 ^^ t.getLsbD 0,
     t.getLsbD 7 ^^ t.getLsbD 6 ^^ t.getLsbD 3,
     t.getLsbD 6 ^^ t.getLsbD 5 ^^ t.getLsbD 2,
     t.getLsbD 7 ^^ t.getLsbD 5 ^^ t.getLsbD 4 ^^ t.getLsbD 1,
     t.getLsbD 6 ^^ t.getLsbD 4 ^^ t.getLsbD 3 ^^ t.getLsbD 0]

end Sys2Proof.Machine
end

