-- ==== Sys2Proof/Machine/Operands.lean ====
section
/-! DEFINITION. The operand forms of the commands (30_encoding.md R82, R91): the format byte, the capacity with the identity
sizing rule (42_frame_decode.md R156, R157), and a 32-bit value as bytes. -/

namespace Sys2Proof.Machine

open Sys2Proof

/-- `FMT_F32` (R6, R82). -/
def fmtF32 : Byte := 0x03#8

/-- `FMT_U16` (R6, R82). -/
def fmtU16 : Byte := 0x05#8

/-- R91: the four bytes of a 32-bit value, most significant first. -/
def u32Bytes (v : Word32) : List Byte :=
  [v.extractLsb' 24 8, v.extractLsb' 16 8, v.extractLsb' 8 8, v.extractLsb' 0 8]

/-- A 16-bit value as two bytes, most significant first (R85, R93). -/
def u16Bytes (v : Half) : List Byte := [v.extractLsb' 8 8, v.extractLsb' 0 8]

/-- R156: how many bytes an identity read asks for, for capacity `C`: multiply, truncate, clamp. For `C = 0`,
outside the rule's domain, it is 0 (DESIGN CHOICE, log 21: RDPT and RDSN refuse that capacity). -/
def idNbytes (c : Config) (cap : Byte) : Nat := min ((cap.toNat - 1) * 3 / 2) c.scratchMax

/-- R157: the whole Words in an identity read. -/
def idWords (c : Config) (cap : Byte) : Nat := idNbytes c cap / 3

end Sys2Proof.Machine
end

