-- ==== Sys2Proof/Machine/FrameEncode.lean ====
section
/-! DEFINITION. The Frame Codec, transmit side (41_frame_encode.md R130 to R135), and the reference encoders R139 to R142,
which the block does not contain. -/

namespace Sys2Proof.Machine

open Sys2Proof

/-- R130: the pointer, most significant byte first. -/
def encPtr (opc : Half) : List Byte := u16Bytes opc

/-- R131: the Words of successive pairs of data bytes. An odd last byte is outside the rule's domain and is dropped
(DESIGN CHOICE, log 21: the block never forms one). -/
def encWords : List Byte → List Byte
  | b0 :: b1 :: rest => wordBuild b0 b1 ++ encWords rest
  | _ => []

/-- R132: the pointer immediately followed by the Words. With no data it is the pointer alone (R87). -/
def encPtrData (opc : Half) (d : List Byte) : List Byte := encPtr opc ++ encWords d

/-- R133: a 32-bit value as two Words. -/
def encU32 (v : Word32) : List Byte := encWords (u32Bytes v)

/-- R134: the measurement-start frame; its second data byte is the reserved zero. A format other than the two legal ones is
outside the rule's domain and is framed like them (DESIGN CHOICE, log 21: STARTM refuses it before). -/
def encStart (fmt : Byte) : List Byte := encPtrData 0x0010#16 [fmt, 0x00#8]

/-- R135: the auto-clean interval write frame. -/
def encSetaci (v : Word32) : List Byte := encPtrData 0x8004#16 (u32Bytes v)

/-- R139 (reference only): a float pattern. -/
def encF32 (p : Word32) : List Byte := encU32 p

/-- R140 (reference only): ten float patterns. -/
def encF32set (p : Vector Word32 10) : List Byte := p.toList.flatMap encF32

/-- R141 (reference only): ten 16-bit values. -/
def encU16set (u : Vector Half 10) : List Byte := encWords (u.toList.flatMap u16Bytes)

/-- R142 (reference only): characters, zero padded to `2W` data bytes. More than `2W` characters, and a zero
among them, are outside the rule's domain and it gives no value there: of too many characters none is padded, none is cut off
at `2W`, and an odd last one is dropped; a zero is encoded like any other byte (DESIGN CHOICE, log 21: no command uses this
encoder). -/
def encAscii (s : List Byte) (W : Nat) : List Byte := encWords (s ++ List.replicate (2 * W - s.length) 0x00#8)

end Sys2Proof.Machine
end

