-- ==== Sys2Proof/Machine/FrameDecode.lean ====
section
/-! DEFINITION. The Frame Codec, receive side, as pure functions (42_frame_decode.md R151 to R154). -/

namespace Sys2Proof.Machine

open Sys2Proof

/-- Byte `i` of a sequence (R11). Past its end it is 0, which no rule asks for (DESIGN CHOICE, log 21). -/
def byteAt (s : List Byte) (i : Nat) : Byte := s.getD i 0x00#8

/-- R151: Word `k` of the received bytes. -/
def frameWord (rx : List Byte) (k : Nat) : List Byte := [byteAt rx (3 * k), byteAt rx (3 * k + 1), byteAt rx (3 * k + 2)]

/-- R153: what validation answers. -/
inductive FrameCheck where
  | ok
  | checksumFailure (k : Nat)
deriving DecidableEq, Repr

/-- R153: the loop from word index `widx` with a number of Words still to check; it leaves at the first invalid one. -/
def validateFrom (rx : List Byte) : Nat → Nat → FrameCheck
  | 0, _ => .ok
  | left + 1, widx =>
    if wordOk (frameWord rx widx) then validateFrom rx left (widx + 1) else .checksumFailure widx

/-- R153: check `W` Words in arrival order; the first mismatch wins. The rule is for at least `3W` bytes: a missing byte is taken
as 0x00 (DESIGN CHOICE, log 21). -/
def validateFrame (rx : List Byte) (W : Nat) : FrameCheck := validateFrom rx W 0

/-- R33: where `widx` stands when validation of `W` Words ends. -/
def checkIndex (W : Nat) : FrameCheck → Nat
  | .ok => W
  | .checksumFailure k => k

/-- How many Words validation looked at (R153: Words after the first invalid one are not checked). -/
def checkedWords (W : Nat) : FrameCheck → Nat
  | .ok => W
  | .checksumFailure k => k + 1

/-- R154: the data view, every third byte removed. -/
def dataView (rx : List Byte) (W : Nat) : List Byte :=
  (List.range W).flatMap fun k => [byteAt rx (3 * k), byteAt rx (3 * k + 1)]

end Sys2Proof.Machine
end

