-- ==== Sys2Proof/Machine/ValueDecoders.lean ====
section
/-! DEFINITION. The Value Decoders (43_value_decoders.md R170 to R177, R186): pure functions of a data view, none of which
can fail. R170 and R174 want the bytes they combine to be there, R171, R172 and R175 to R177 a data view of a fixed length:
a byte that is not there is taken as 0x00, and of a longer view than the fixed one the rest is ignored (DESIGN CHOICE, log 21:
every row of the command ROM reads as many Words as its decoder takes). -/

namespace Sys2Proof.Machine

open Sys2Proof

/-- R170: four data bytes, most significant first. -/
def decBe32 (D : List Byte) (j : Nat) : Word32 :=
  byteAt D j ++ byteAt D (j + 1) ++ byteAt D (j + 2) ++ byteAt D (j + 3)

/-- R171: float channel `i`, as its bit pattern (R173). -/
def decF32 (D : List Byte) (i : Nat) : Word32 := decBe32 D (4 * i)

/-- R172: the ten float channels. -/
def decF32set (D : List Byte) : Vector Word32 10 := Vector.ofFn fun i => decF32 D i.val

/-- R174: Word `k` as an unsigned 16-bit value; byte0 is the high byte. -/
def decU16 (D : List Byte) (k : Nat) : Half := byteAt D (2 * k) ++ byteAt D (2 * k + 1)

/-- R175: the ten integer channels. -/
def decU16set (D : List Byte) : Vector Half 10 := Vector.ofFn fun i => decU16 D i.val

/-- R176: a 32-bit counter. -/
def decU32 (D : List Byte) : Word32 := decBe32 D 0

/-- R177: major version, minor version. -/
def decVer (D : List Byte) : Byte × Byte := (byteAt D 0, byteAt D 1)

/-- R186: the characters, with room for a number of them: stop at the end of the data, at a full buffer, or at the first
zero byte. -/
def asciiChars : List Byte → Nat → List Byte
  | [], _ => []
  | _ :: _, 0 => []
  | b :: D, room + 1 => if b = 0x00#8 then [] else b :: asciiChars D room

/-- R186: the string buffer of `strMax` bytes and its length, for capacity `C`. R186 gives a value for `C` in 1..255 only: for
`C = 0` the model gives the empty string. A data view longer than `STR_MAX - 1` bytes, which R187 (c) excludes, can give more
characters than the buffer has room for: the model keeps them all, so that the buffer is then longer than `strMax` or has no
zero at its end. Both are DESIGN CHOICE (log 21), and no command reaches either. -/
def decAscii (strMax : Nat) (D : List Byte) (cap : Byte) : List Byte × Nat :=
  let chars := asciiChars D (cap.toNat - 1)
  (chars ++ List.replicate (strMax - chars.length) 0x00#8, chars.length)

end Sys2Proof.Machine
end

