-- ==== Sys2Proof/Machine/Ops.lean ====
section
/-! DEFINITION. The named operations: the byte buffers (00_scope.md R13, 20_memory.md R50 to R54), `GO`, completion and
errors (60_exceptions.md R245 to R250), the sequencer's steps (41_frame_encode.md R136 to R138, 42_frame_decode.md R150 to
R155), and the three shapes of a command (44_commands.md R217 to R219). -/

namespace Sys2Proof.Machine

open Sys2Proof

/-! ### Buffers -/

/-- The byte at an address. -/
def Memory.read : Memory → Nat → Byte
  | [], _ => Memory.unlisted
  | (k, b) :: m, a => if k = a then b else Memory.read m a

/-- Put a cell in front, unless it holds what an unlisted address reads as. -/
def Memory.consCell (a : Nat) (v : Byte) (m : Memory) : Memory :=
  if v = Memory.unlisted then m else (a, v) :: m

/-- Write one byte; the canonical form is kept. -/
def Memory.write : Memory → Nat → Byte → Memory
  | [], a, v => Memory.consCell a v []
  | (k, b) :: m, a, v =>
    if a < k then Memory.consCell a v ((k, b) :: m)
    else if a = k then Memory.consCell a v m
    else (k, b) :: Memory.write m a v

/-- Every address listed is at or above `lo`, they rise strictly, and no cell holds what an unlisted address reads as. -/
def Memory.wfFrom (lo : Nat) : Memory → Bool
  | [] => true
  | (k, b) :: m => decide (lo ≤ k) && b != Memory.unlisted && Memory.wfFrom (k + 1) m

/-- The canonical form of a buffer. -/
def Memory.wf (m : Memory) : Bool := Memory.wfFrom 0 m

/-- R50: the buffer holds nothing at or beyond its size. -/
def Memory.within (m : Memory) (size : Nat) : Bool := m.all fun c => decide (c.1 < size)

/-- R13: `MemRead(B, a, n)`. -/
def memRead (m : Memory) (a n : Nat) : List Byte := (List.range n).map fun i => m.read (a + i)

/-- R13: `MemWrite(B, a, n, v)`, bytes in ascending index order (R136). -/
def memWrite (m : Memory) (a : Nat) : List Byte → Memory
  | [] => m
  | b :: bs => memWrite (m.write a b) (a + 1) bs

/-! ### Single registers (R13: `X <- v`) -/

/-- The environment's moves that are still to come. -/
def State.setEnv (s : State) (e : List Event) : State := { s with env := e }

/-- `CW <- v` -/
def State.setCw (s : State) (v : Word32) : State := { s with cw := v }

/-- `ARG_DATA <- v` -/
def State.setArgData (s : State) (v : Word32) : State := { s with argData := v }

/-- `ARG_TMO <- v` -/
def State.setArgTmo (s : State) (v : Nat) : State := { s with argTmo := v }

/-- The strobe. -/
def State.setGo (s : State) (v : Bool) : State := { s with go := v }

/-- The level of `RST`. -/
def State.setRst (s : State) (v : Bool) : State := { s with rst := v }

/-- `CRC_B0 <- v` -/
def State.setCrcB0 (s : State) (v : Byte) : State := { s with crcB0 := v }

/-- `CRC_B1 <- v` -/
def State.setCrcB1 (s : State) (v : Byte) : State := { s with crcB1 := v }

/-- What a host read returned. -/
def State.setRdata (s : State) (v : Nat) : State := { s with rdata := v }

/-! ### GO, completion, errors -/

/-- R36: the strobe taken: the arguments sampled, `STATUS` cleared with `BUSY` set, `PHASE` at `ARGCHK` (R32). It is also
the return from an error (R252). -/
def State.accept (s : State) : State :=
  { s with
    go := false
    samp := { cw := s.cw, argData := s.argData, argTmo := s.argTmo }
    status := Status.atGo
    phase := .argchk }

/-- R250: the end of every command. -/
def State.complete (s : State) (st : Status) : State := { s with status := st, phase := .idle }

/-- R250: a successful completion. -/
def State.completeOk (s : State) (kind : ResKind) : State := s.complete (Status.success kind)

/-- R15, R245 to R248, R250: an error ends the command at once; `STATUS` records it and no result register is written. This
is the block's exception entry; nothing is saved and control goes nowhere. The return from it is the next `GO` (R252),
`State.accept`. -/
def State.raise (s : State) (e : Raised) : State := s.complete (Status.raised e)

/-! ### The sequencer's steps -/

/-- R136 `BUILD`: the frame of the selected row into `TXBUF` (R51). -/
def State.build (s : State) (p : Plan) : State :=
  { s with
    plan := p
    txbuf := memWrite s.txbuf 0 (encPtrData p.opc p.data)
    txlen := (encPtrData p.opc p.data).length
    bidx := (encPtrData p.opc p.data).length
    acc := lastChecksum s.acc p.data
    phase := .build }

/-- R137: the one `TWrite` is made (R56); `PHASE` is `TX` until the Transport answers. -/
def State.issueWrite (s : State) : State :=
  { s with
    calls := s.calls ++ [.write s.cfg.devAddr (memRead s.txbuf 0 s.txlen) s.samp.argTmo]
    phase := .tx }

/-- R150: the one `TRead` is made (R57); `PHASE` is `RX` until the Transport answers. -/
def State.issueRead (s : State) (r : RxPlan) : State :=
  { s with
    calls := s.calls ++ [.read s.cfg.devAddr r.nbytes s.samp.argTmo]
    phase := .rx }

/-- R150: the received bytes into `RXBUF` (R52). -/
def State.receive (s : State) (bs : List Byte) : State :=
  { s with
    rxbuf := memWrite s.rxbuf 0 bs
    rxlen := bs.length
    phase := .validate }

/-- The received bytes, read back from `RXBUF`. -/
def State.received (s : State) : List Byte := memRead s.rxbuf 0 s.rxlen

/-- R153: the check of the received frame. -/
def State.frameCheck (s : State) (r : RxPlan) : FrameCheck := validateFrame s.received r.words

/-- R153 `VALIDATE`: `widx` and `acc` as the word loop leaves them (R33, R41). -/
def State.validate (s : State) (r : RxPlan) : State :=
  { s with
    widx := checkIndex r.words (s.frameCheck r)
    acc := lastChecksum s.acc (dataView s.received (checkedWords r.words (s.frameCheck r)))
    phase := .decode }

/-- R155 `DECODE`: the row's decoder on the data view (R154) writes its result registers. -/
def State.deliver (s : State) (r : RxPlan) : State :=
  let D := dataView s.received r.words
  match r.dec with
  | .u16 => { s with r16 := decU16 D 0 }
  | .f32set => { s with rf := decF32set D }
  | .u16set => { s with ru := decU16set D }
  | .u32 => { s with r32 := decU32 D }
  | .ver => { s with rvMajor := (decVer D).1, rvMinor := (decVer D).2 }
  | .ascii cap =>
    { s with
      rs := (decAscii s.cfg.strMax D cap).1
      rsLen := BitVec.ofNat 8 (decAscii s.cfg.strMax D cap).2
      bidx := (decAscii s.cfg.strMax D cap).2 }

/-- R155: validate all Words first; decode and commit only if every one is valid. -/
def State.finishRead (s : State) (r : RxPlan) (bs : List Byte) : State :=
  match (s.receive bs).frameCheck r with
  | .ok => (((s.receive bs).validate r).deliver r).completeOk r.kind
  | .checksumFailure k => ((s.receive bs).validate r).raise (.checksumFailure k)

/-- `RX`: a read is pending. The next move of the environment answers it (R150, R242), or it goes on waiting (R251). An
answer outside the contract is refused (R57, S8). -/
def State.awaitRead (s : State) (r : RxPlan) : Host.Outcome State Fault Refusal :=
  match s.env with
  | .answer (.bytes bs) :: rest =>
    if bs.length = r.nbytes then .next ((s.setEnv rest).finishRead r bs) else .refused .transportContract
  | .answer .error :: rest => .next ((s.setEnv rest).raise (.transportFailure .read))
  | .answer .done :: _ => .refused .transportContract
  | .host _ :: _ => .next s
  | [] => .next s

/-- `TX`: the write is pending. When it is answered `Ok` a write-shaped command is complete and a read-shaped one goes on to
its read with nothing in between (R138); when it failed no read follows (R137). -/
def State.awaitWrite (s : State) : Host.Outcome State Fault Refusal :=
  match s.env with
  | .answer .done :: rest =>
    match s.plan.rx with
    | none => .next ((s.setEnv rest).completeOk .none)
    | some r => ((s.setEnv rest).issueRead r).awaitRead r
  | .answer .error :: rest => .next ((s.setEnv rest).raise (.transportFailure .write))
  | .answer (.bytes _) :: _ => .refused .transportContract
  | .host _ :: _ => .next s
  | [] => .next s

/-! ### The three shapes, from the state in which `GO` was accepted -/

/-- R200 steps 2 to 5 for a selected row. -/
def execPlan (p : Plan) (s : State) : Host.Outcome State Fault Refusal := ((s.build p).issueWrite).awaitWrite

/-- R217: pointer-only. -/
def execPtrOnly (opc : Half) (s : State) : Host.Outcome State Fault Refusal :=
  execPlan { opc := opc, data := [], rx := none } s

/-- R218: pointer+write-data. -/
def execPtrWrite (opc : Half) (d : List Byte) (s : State) : Host.Outcome State Fault Refusal :=
  execPlan { opc := opc, data := d, rx := none } s

/-- R219: pointer-then-read of `n` bytes holding `W` whole Words. -/
def execPtrRead (opc : Half) (n W : Nat) (dec : Decoder) (kind : ResKind) (s : State) :
    Host.Outcome State Fault Refusal :=
  execPlan { opc := opc, data := [], rx := some { nbytes := n, words := W, dec := dec, kind := kind } } s

end Sys2Proof.Machine
end

