-- ==== Sys2Proof/Machine/PointerCommands.lean ====
section
/-! DEFINITION. The pointer-only commands (44_commands.md R217): STOPM, SLEEP, WAKE, FANCLN, CLRSTAT, RESET. -/

namespace Sys2Proof.Machine

open Sys2Proof

/-- R202. -/
def execStopm (s : State) : Host.Outcome State Fault Refusal := execPtrOnly 0x0104#16 s.accept

/-- R206. -/
def execSleep (s : State) : Host.Outcome State Fault Refusal := execPtrOnly 0x1001#16 s.accept

/-- R207: one write, once. -/
def execWake (s : State) : Host.Outcome State Fault Refusal := execPtrOnly 0x1103#16 s.accept

/-- R208: complete as soon as the write returns; the cleaning wait is the host's (R281). -/
def execFancln (s : State) : Host.Outcome State Fault Refusal := execPtrOnly 0x5607#16 s.accept

/-- R215. -/
def execClrstat (s : State) : Host.Outcome State Fault Refusal := execPtrOnly 0xD210#16 s.accept

/-- R216: it resets the sensor, not the block (R272). -/
def execReset (s : State) : Host.Outcome State Fault Refusal := execPtrOnly 0xD304#16 s.accept

end Sys2Proof.Machine
end

