-- ==== Sys2Proof/Machine/ReadCommands.lean ====
section
/-! DEFINITION. The pointer-then-read commands (44_commands.md R219): RDRDY, RDVAL.F, RDVAL.I, GETACI, RDPT, RDSN, RDVER,
RDSTAT. -/

namespace Sys2Proof.Machine

open Sys2Proof

/-- R203. -/
def execRdrdy (s : State) : Host.Outcome State Fault Refusal := execPtrRead 0x0202#16 3 1 .u16 .u16 s.accept

/-- R204. -/
def execRdvalF (s : State) : Host.Outcome State Fault Refusal := execPtrRead 0x0300#16 60 20 .f32set .f32x10 s.accept

/-- R205. -/
def execRdvalI (s : State) : Host.Outcome State Fault Refusal := execPtrRead 0x0300#16 30 10 .u16set .u16x10 s.accept

/-- R209. -/
def execGetaci (s : State) : Host.Outcome State Fault Refusal := execPtrRead 0x8004#16 6 2 .u32 .u32 s.accept

/-- R211: capacity 0 raises `InvalidArgument` with nothing sent; the read is made even when it asks for 0 bytes (R150). -/
def execRdpt (cap : Byte) (s : State) : Host.Outcome State Fault Refusal :=
  if cap = 0x00#8 then .next (s.accept.raise .invalidArgument)
  else execPtrRead 0xD002#16 (idNbytes s.cfg cap) (idWords s.cfg cap) (.ascii cap) .str s.accept

/-- R212. -/
def execRdsn (cap : Byte) (s : State) : Host.Outcome State Fault Refusal :=
  if cap = 0x00#8 then .next (s.accept.raise .invalidArgument)
  else execPtrRead 0xD033#16 (idNbytes s.cfg cap) (idWords s.cfg cap) (.ascii cap) .str s.accept

/-- R213. -/
def execRdver (s : State) : Host.Outcome State Fault Refusal := execPtrRead 0xD100#16 3 1 .ver .ver s.accept

/-- R214. -/
def execRdstat (s : State) : Host.Outcome State Fault Refusal := execPtrRead 0xD206#16 6 2 .u32 .u32 s.accept

end Sys2Proof.Machine
end

