-- ==== Sys2Proof/Machine/WriteCommands.lean ====
section
/-! DEFINITION. The pointer+write-data commands (44_commands.md R218): STARTM, SETACI. -/

namespace Sys2Proof.Machine

open Sys2Proof

/-- R201: an unrecognised format raises `InvalidArgument` before any Transport call. -/
def execStartm (fmt : Byte) (s : State) : Host.Outcome State Fault Refusal :=
  if fmt ≠ fmtF32 ∧ fmt ≠ fmtU16 then .next (s.accept.raise .invalidArgument)
  else execPtrWrite 0x0010#16 [fmt, 0x00#8] s.accept

/-- R210: the 32-bit value is `ARG_DATA` as sampled at `GO` (R23). -/
def execSetaci (s : State) : Host.Outcome State Fault Refusal :=
  execPtrWrite 0x8004#16 (u32Bytes s.accept.samp.argData) s.accept

end Sys2Proof.Machine
end

