-- ==== Sys2Proof/Machine/Dispatch.lean ====
section
/-! DEFINITION. One arm per command (30_encoding.md R96), each a direct call of its meaning. -/

namespace Sys2Proof.Machine

open Sys2Proof

def exec (i : Instr) (s : State) : Host.Outcome State Fault Refusal :=
  match i with
  | .startm fmt => Sys2Proof.Machine.execStartm fmt s
  | .stopm => Sys2Proof.Machine.execStopm s
  | .rdrdy => Sys2Proof.Machine.execRdrdy s
  | .rdvalF => Sys2Proof.Machine.execRdvalF s
  | .rdvalI => Sys2Proof.Machine.execRdvalI s
  | .sleep => Sys2Proof.Machine.execSleep s
  | .wake => Sys2Proof.Machine.execWake s
  | .fancln => Sys2Proof.Machine.execFancln s
  | .getaci => Sys2Proof.Machine.execGetaci s
  | .setaci => Sys2Proof.Machine.execSetaci s
  | .rdpt cap => Sys2Proof.Machine.execRdpt cap s
  | .rdsn cap => Sys2Proof.Machine.execRdsn cap s
  | .rdver => Sys2Proof.Machine.execRdver s
  | .rdstat => Sys2Proof.Machine.execRdstat s
  | .clrstat => Sys2Proof.Machine.execClrstat s
  | .reset => Sys2Proof.Machine.execReset s

end Sys2Proof.Machine
end

