-- ==== Sys2Proof/WellFormed.lean ====
section
/-! DEFINITION. Which commands have legal operands (30_encoding.md R82). -/

namespace Sys2Proof

/-- R82: the measurement format byte is `0x03` (float) or `0x05` (integer). -/
def fmtLegal (fmt : Byte) : Bool := fmt == 0x03#8 || fmt == 0x05#8

/-- R82: a capacity is 1..255. -/
def capLegal (cap : Byte) : Bool := cap != 0x00#8

/-- R82: the operand of the three commands that have one is legal; the others have no operand to check. -/
def Instr.wellFormed : Instr → Bool
  | .startm fmt => fmtLegal fmt
  | .rdpt cap => capLegal cap
  | .rdsn cap => capLegal cap
  | .stopm | .rdrdy | .rdvalF | .rdvalI | .sleep | .wake | .fancln | .getaci | .setaci
  | .rdver | .rdstat | .clrstat | .reset => true

end Sys2Proof
end

