-- ==== Sys2Proof/Decode.lean ====
section
/-! DEFINITION. The command word `CW` (30_encoding.md R80 to R84, R96 to R101): its fields, the decoder, the encoder, the
pseudo-commands, and the decoder under the numbering of spec/opcode_table.json. -/

namespace Sys2Proof

/-- R80: `OPC = CW[15:0]`. -/
def cwOpc (w : Word32) : Half := w.extractLsb' 0 16

/-- R80: `ARG8 = CW[23:16]`. -/
def cwArg8 (w : Word32) : Byte := w.extractLsb' 16 8

/-- R80: `DIR = CW[24]`. -/
def cwDir (w : Word32) : BitVec 1 := w.extractLsb' 24 1

/-- R80: `RSV = CW[31:25]`. -/
def cwRsv (w : Word32) : BitVec 7 := w.extractLsb' 25 7

/-- R80: a command word from its fields, `RSV` zero (R84). -/
def packCw (opc : Half) (arg8 : Byte) (dir : BitVec 1) : Word32 := 0#7 ++ dir ++ arg8 ++ opc

/-- The wire opcode of a command (R96, column `OPC`). -/
def Instr.opc : Instr → Half
  | .startm _ => 0x0010#16
  | .stopm => 0x0104#16
  | .rdrdy => 0x0202#16
  | .rdvalF => 0x0300#16
  | .rdvalI => 0x0300#16
  | .sleep => 0x1001#16
  | .wake => 0x1103#16
  | .fancln => 0x5607#16
  | .getaci => 0x8004#16
  | .setaci => 0x8004#16
  | .rdpt _ => 0xD002#16
  | .rdsn _ => 0xD033#16
  | .rdver => 0xD100#16
  | .rdstat => 0xD206#16
  | .clrstat => 0xD210#16
  | .reset => 0xD304#16

/-- The 14 wire opcodes (R81). -/
def wireOpcodes : List Half :=
  [0x0010#16, 0x0104#16, 0x0202#16, 0x0300#16, 0x1001#16, 0x1103#16, 0x5607#16,
   0x8004#16, 0xD002#16, 0xD033#16, 0xD100#16, 0xD206#16, 0xD210#16, 0xD304#16]

/-- Why a word selects no row (R101 steps 1 to 5). All of them are the one error `InvalidArgument`. -/
inductive DecodeError where
  /-- step 1: `CW[31:25] != 0` -/
  | reservedNonzero
  /-- step 2: `OPC` is not in the table -/
  | unknownOpcode
  /-- step 3: `DIR = 1` with another opcode than `0x8004` -/
  | dirOnOtherOpcode
  /-- step 4: `OPC = 0x0300` with `ARG8` neither `0x03` nor `0x05` -/
  | noSuchFormat
  /-- step 5: a command without an 8-bit argument has `ARG8 != 0` -/
  | arg8Nonzero
deriving DecidableEq, Repr

/-- What a command word is: a row's command, or a word that selects none. -/
inductive Decoded where
  | command (i : Instr)
  | illegal (e : DecodeError)
deriving DecidableEq, Repr

/-- R101 step 5 for the commands whose `ARG8` must be zero (R82). -/
def withoutArg8 (arg8 : Byte) (i : Instr) : Decoded :=
  if arg8 = 0x00#8 then .command i else .illegal .arg8Nonzero

/-- R101 step 4: the row of an opcode, by `DIR` for `0x8004`, by `ARG8` for `0x0300`. The operands of `STARTM`, `RDPT` and
`RDSN` are handed on as they stand: their own rules (R201, R211, R212) make the check of step 5 (DEDUCED, log 9). -/
def selectRow (opc : Half) (arg8 : Byte) (dir : BitVec 1) : Decoded :=
  if opc = 0x0010#16 then .command (.startm arg8)
  else if opc = 0x0104#16 then withoutArg8 arg8 .stopm
  else if opc = 0x0202#16 then withoutArg8 arg8 .rdrdy
  else if opc = 0x0300#16 then
    if arg8 = 0x03#8 then .command .rdvalF
    else if arg8 = 0x05#8 then .command .rdvalI
    else .illegal .noSuchFormat
  else if opc = 0x1001#16 then withoutArg8 arg8 .sleep
  else if opc = 0x1103#16 then withoutArg8 arg8 .wake
  else if opc = 0x5607#16 then withoutArg8 arg8 .fancln
  else if opc = 0x8004#16 then withoutArg8 arg8 (if dir = 1#1 then .setaci else .getaci)
  else if opc = 0xD002#16 then .command (.rdpt arg8)
  else if opc = 0xD033#16 then .command (.rdsn arg8)
  else if opc = 0xD100#16 then withoutArg8 arg8 .rdver
  else if opc = 0xD206#16 then withoutArg8 arg8 .rdstat
  else if opc = 0xD210#16 then withoutArg8 arg8 .clrstat
  else if opc = 0xD304#16 then withoutArg8 arg8 .reset
  else .illegal .unknownOpcode

/-- Decoding `CW` (R101), in the rule's order; total over all 2^32 words (R97). -/
def decode (w : Word32) : Decoded :=
  if cwRsv w ≠ 0#7 then .illegal .reservedNonzero
  else if wireOpcodes.contains (cwOpc w) = false then .illegal .unknownOpcode
  else if cwDir w = 1#1 ∧ cwOpc w ≠ 0x8004#16 then .illegal .dirOnOtherOpcode
  else selectRow (cwOpc w) (cwArg8 w) (cwDir w)

/-- `ARG8` of a command's word (R82, R98). -/
def Instr.arg8 : Instr → Byte
  | .startm fmt => fmt
  | .rdvalF => 0x03#8
  | .rdvalI => 0x05#8
  | .rdpt cap => cap
  | .rdsn cap => cap
  | .stopm | .rdrdy | .sleep | .wake | .fancln | .getaci | .setaci
  | .rdver | .rdstat | .clrstat | .reset => 0x00#8

/-- `DIR` of a command's word (R83): 1 for `SETACI` alone. -/
def Instr.dir : Instr → BitVec 1
  | .setaci => 1#1
  | .startm _ | .stopm | .rdrdy | .rdvalF | .rdvalI | .sleep | .wake | .fancln | .getaci
  | .rdpt _ | .rdsn _ | .rdver | .rdstat | .clrstat | .reset => 0#1

/-- The command word of a command (R98, column `CW`). -/
def encode (i : Instr) : Word32 := packCw i.opc i.arg8 i.dir

/-- The pseudo-commands (R99). -/
inductive Pseudo where
  /-- `RDVAL fmt` -/
  | rdval (fmt : Byte)
  /-- `RDPT` without an operand -/
  | rdpt
  /-- `RDSN` without an operand -/
  | rdsn
deriving DecidableEq, Repr

/-- R99: the word each pseudo-command stands for; an illegal one when `RDVAL`'s format is neither `0x03` nor `0x05`. -/
def pseudoWord : Pseudo → Word32
  | .rdval fmt => packCw 0x0300#16 fmt 0#1
  | .rdpt => encode (.rdpt 9#8)
  | .rdsn => encode (.rdsn 33#8)

/-- A word numbered as spec/opcode_table.json numbers it: `CW` is one 32-bit word, bit 0 the least significant (R10, R80).
Bits at and above `nbits` are 0; there is no longer command word than 32 bits (R100). -/
def decodeTableWord (nbits w : Nat) : Option Instr :=
  if 32 < nbits then none
  else
    match decode (BitVec.ofNat 32 (w % 2 ^ nbits)) with
    | .command i => some i
    | .illegal _ => none

end Sys2Proof
end

