-- ==== Sys2Proof/Machine/HostPort.lean ====
section
/-! DEFINITION. What the host does to the block (10_state.md R20, R21, R31, R36, R37; 40_crc8.md R121;
70_reset_and_hazards.md R270, R271): register reads and writes, `GO`, the direct CRC port, `RST`
asserted and released. -/

namespace Sys2Proof.Machine

open Sys2Proof

/-- R37, R121: the direct CRC port, combinational. -/
def State.crcOut (s : State) : Byte := checksum s.crcB0 s.crcB1

/-- What a host read answers. -/
inductive ReadAnswer where
  | value (v : Nat)
  | refused (r : Refusal)
deriving DecidableEq, Repr

/-- R31: a result register is read only while `STATUS` declares its kind. -/
def State.readResult (s : State) (kind : ResKind) (v : Nat) : ReadAnswer :=
  if s.status.declares kind then .value v else .refused .resultHoldsNoValue

/-- R21: the value of a register as the host reads it, unsigned. -/
def State.hostRead (s : State) : HostReg → ReadAnswer
  | .cw => .value s.cw.toNat
  | .argData => .value s.argData.toNat
  | .argTmo => .value s.argTmo
  | .status => .value s.status.word.toNat
  | .rf i => s.readResult .f32x10 (s.rf.get i).toNat
  | .ru i => s.readResult .u16x10 (s.ru.get i).toNat
  | .r32 => s.readResult .u32 s.r32.toNat
  | .r16 => s.readResult .u16 s.r16.toNat
  | .rvMajor => s.readResult .ver s.rvMajor.toNat
  | .rvMinor => s.readResult .ver s.rvMinor.toNat
  | .rs i => if i < s.cfg.strMax then s.readResult .str (byteAt s.rs i).toNat else .refused .noSuchRegister
  | .rslen => s.readResult .str s.rsLen.toNat
  | .crcB0 => .value s.crcB0.toNat
  | .crcB1 => .value s.crcB1.toNat
  | .crcOut => .value s.crcOut.toNat

/-- A Transport call has been made and not answered. -/
def State.callPending (s : State) : Bool := s.phase == .tx || s.phase == .rx

/-- R270, R271: `RST` asserted. Every piece of state takes its reset value; the binding, what the environment does next and
what the host last read are not state of the block. A command in flight is abandoned; whether its pending call was carried
out is open (S6), so the call stays in the log or leaves it as the event says (log 16). The input stays asserted until it is
released. -/
def State.applyRst (s : State) (pendingCarriedOut : Bool) : State :=
  { State.resetWith s.cfg with
    rst := true
    env := s.env
    rdata := s.rdata
    calls := if s.callPending && !pendingCarriedOut then s.calls.dropLast else s.calls }

/-- R36: `GO` written. 1 while `BUSY = 0` is a strobe for the sequencer; 1 while `BUSY = 1`, and 0, have no effect. -/
def State.writeGo (s : State) (v : Bool) : State := if v && !s.status.busy then s.setGo true else s

/-- R21, R37, R276: a host operation; the argument registers and the CRC port may be written at any time. `ARG_TMO` keeps
the `TMO_W` low bits of what is written (R24; log 20). -/
def hostOp (op : HostOp) (s : State) : Host.Outcome State Fault Refusal :=
  match op with
  | .writeCw v => .next (s.setCw v)
  | .writeArgData v => .next (s.setArgData v)
  | .writeArgTmo v => .next (s.setArgTmo (v % 2 ^ s.cfg.tmoW))
  | .writeGo v => .next (s.writeGo v)
  | .writeCrcB0 v => .next (s.setCrcB0 v)
  | .writeCrcB1 v => .next (s.setCrcB1 v)
  | .read r =>
    match s.hostRead r with
    | .value v => .next (s.setRdata v)
    | .refused e => .refused e
  | .rst carriedOut => .next (s.applyRst carriedOut)
  | .rstRelease => .next (s.setRst false)

/-- R270: a host operation while `RST` is asserted. Everything stands at its reset value and is held there: a write, `GO` and
a further `RST` have no effect; a read answers as ever, and the release lets the block go (log 23). -/
def hostOpHeld (op : HostOp) (s : State) : Host.Outcome State Fault Refusal :=
  match op with
  | .writeCw _ => .next s
  | .writeArgData _ => .next s
  | .writeArgTmo _ => .next s
  | .writeGo _ => .next s
  | .writeCrcB0 _ => .next s
  | .writeCrcB1 _ => .next s
  | .read r => hostOp (.read r) s
  | .rst _ => .next s
  | .rstRelease => hostOp .rstRelease s

end Sys2Proof.Machine
end

