-- ==== Sys2Proof/Machine/Rom.lean ====
section
/-! DEFINITION. The command ROM (10_state.md R40, 30_encoding.md R96): for each command the opcode, what follows the pointer,
and what is read. It is fixed; nothing writes it. -/

namespace Sys2Proof.Machine

open Sys2Proof

/-- A row without Words to send and without a read. -/
def rowPtrOnly (opc : Half) : Plan := { opc := opc, data := [], rx := none }

/-- A row that reads `n` bytes holding `W` whole Words. -/
def rowRead (opc : Half) (n W : Nat) (dec : Decoder) (kind : ResKind) : Plan :=
  { opc := opc, data := [], rx := some { nbytes := n, words := W, dec := dec, kind := kind } }

/-- R96: the rows of the table, column by column; the operands come from the sampled arguments (R136). -/
def romRow (c : Config) (a : Sampled) : Instr → Plan
  | .startm fmt => { opc := 0x0010#16, data := [fmt, 0x00#8], rx := none }
  | .stopm => rowPtrOnly 0x0104#16
  | .rdrdy => rowRead 0x0202#16 3 1 .u16 .u16
  | .rdvalF => rowRead 0x0300#16 60 20 .f32set .f32x10
  | .rdvalI => rowRead 0x0300#16 30 10 .u16set .u16x10
  | .sleep => rowPtrOnly 0x1001#16
  | .wake => rowPtrOnly 0x1103#16
  | .fancln => rowPtrOnly 0x5607#16
  | .getaci => rowRead 0x8004#16 6 2 .u32 .u32
  | .setaci => { opc := 0x8004#16, data := u32Bytes a.argData, rx := none }
  | .rdpt cap => rowRead 0xD002#16 (idNbytes c cap) (idWords c cap) (.ascii cap) .str
  | .rdsn cap => rowRead 0xD033#16 (idNbytes c cap) (idWords c cap) (.ascii cap) .str
  | .rdver => rowRead 0xD100#16 3 1 .ver .ver
  | .rdstat => rowRead 0xD206#16 6 2 .u32 .u32
  | .clrstat => rowPtrOnly 0xD210#16
  | .reset => rowPtrOnly 0xD304#16

end Sys2Proof.Machine
end

