-- ==== Sys2Proof/Machine/Sequencer.lean ====
section
/-! DEFINITION. The sequencer phase by phase (10_state.md R32, 44_commands.md R200), and what the block does in a step in
which it starts no command: held in reset (70_reset_and_hazards.md R270), idle, or waiting for the Transport (20_memory.md
R58, 60_exceptions.md R251). -/

namespace Sys2Proof.Machine

open Sys2Proof

/-- R22, R67: the command word the block reads at `GO`, decoded (R101). -/
def fetch (s : State) : Decoded := decode s.cw

/-- R241: `GO` with a word that selects no row: `InvalidArgument`, no Transport call. -/
def rejectCommand (s : State) : Host.Outcome State Fault Refusal := .next (s.accept.raise .invalidArgument)

/-- `ARGCHK` (R101, R200 step 1) on the sampled word. -/
def phaseArgchk (s : State) : State :=
  match decode s.samp.cw with
  | .illegal _ => s.raise .invalidArgument
  | .command i =>
    if i.wellFormed then { s with plan := romRow s.cfg s.samp i, phase := .build } else s.raise .invalidArgument

/-- `TX` on the write's answer (R137, R138). -/
def phaseTx (s : State) : Host.Outcome State Fault Refusal :=
  match s.env with
  | .answer .done :: rest =>
    match s.plan.rx with
    | none => .next ((s.setEnv rest).completeOk .none)
    | some r => .next ((s.setEnv rest).issueRead r)
  | .answer .error :: rest => .next ((s.setEnv rest).raise (.transportFailure .write))
  | .answer (.bytes _) :: _ => .refused .transportContract
  | .host _ :: _ => .next s
  | [] => .next s

/-- `RX` on the read's answer (R150). -/
def phaseRx (s : State) (r : RxPlan) : Host.Outcome State Fault Refusal :=
  match s.env with
  | .answer (.bytes bs) :: rest =>
    if bs.length = r.nbytes then .next ((s.setEnv rest).receive bs) else .refused .transportContract
  | .answer .error :: rest => .next ((s.setEnv rest).raise (.transportFailure .read))
  | .answer .done :: _ => .refused .transportContract
  | .host _ :: _ => .next s
  | [] => .next s

/-- `VALIDATE` (R153, R155). -/
def phaseValidate (s : State) (r : RxPlan) : State :=
  match s.frameCheck r with
  | .ok => s.validate r
  | .checksumFailure k => (s.validate r).raise (.checksumFailure k)

/-- One phase of the sequencer (R32). Idle, and while the Transport has not answered, nothing happens. -/
def phaseStep (s : State) : Host.Outcome State Fault Refusal :=
  match s.phase with
  | .idle => .next s
  | .argchk => .next (phaseArgchk s)
  | .build => .next (s.build s.plan).issueWrite
  | .tx => phaseTx s
  | .rx =>
    match s.plan.rx with
    | none => .next s
    | some r => phaseRx s r
  | .validate =>
    match s.plan.rx with
    | none => .next s
    | some r => .next (phaseValidate s r)
  | .decode =>
    match s.plan.rx with
    | none => .next s
    | some r => .next ((s.deliver r).completeOk r.kind)

/-- A number of phases, stopping at a refusal. -/
def runPhases : Nat → State → Host.Outcome State Fault Refusal
  | 0, s => .next s
  | n + 1, s =>
    match phaseStep s with
    | .next t => runPhases n t
    | .fault f => .fault f
    | .refused r => .refused r

/-- R270: `RST` is asserted: the environment moves and the block is held as reset left it (log 23). An answer now belongs to
a call that `RST` abandoned (log 15). -/
def heldStep (s : State) : Host.Outcome State Fault Refusal :=
  match s.env with
  | [] => .next s
  | .host op :: rest => hostOpHeld op (s.setEnv rest)
  | .answer _ :: rest => .next (s.setEnv rest)

/-- The block idle, with no strobe to take: the environment moves (R20). A Transport answer now belongs to a call that
`RST` abandoned; it reaches nothing (R271; log 15). With nothing to come the block stays as it is. -/
def idleStep (s : State) : Host.Outcome State Fault Refusal :=
  match s.env with
  | [] => .next s
  | .host op :: rest => hostOp op (s.setEnv rest)
  | .answer _ :: rest => .next (s.setEnv rest)

/-- A command waiting in `TX` or `RX`: the host may act meanwhile (R36, R37, R271, R276), else the call is answered or goes
on waiting (R251). A read is pending only when the row has one. -/
def waitStep (s : State) : Host.Outcome State Fault Refusal :=
  match s.env with
  | .host op :: rest => hostOp op (s.setEnv rest)
  | _ =>
    if s.phase = .tx then s.awaitWrite
    else
      match s.plan.rx with
      | none => .next s
      | some r => s.awaitRead r

end Sys2Proof.Machine
end

