-- ==== Sys2Proof/Machine/Step.lean ====
section
/-! DEFINITION. One step of the block: a command from its `GO` strobe on (92_eei_decisions.md D1: a command is atomic as the
host sees it), or a move of the environment. -/

namespace Sys2Proof.Machine

open Sys2Proof

/-- While `RST` is asserted the block is held (R270). Else, idle with a strobe to take, it runs the command in `CW` (R36,
R200); it comes to rest at the command's completion or where the Transport has not answered yet. Idle without one, and while a
command waits, the environment moves. The four other phases are never rested in; from there the sequencer goes on by one
phase. -/
def step (s : State) : Host.Outcome State Fault Refusal :=
  if s.rst then heldStep s
  else
    match s.phase with
    | .idle =>
      if s.go then
        match fetch s with
        | .command i => exec i s
        | .illegal _ => rejectCommand s
      else idleStep s
    | .tx => waitStep s
    | .rx => waitStep s
    | .argchk => phaseStep s
    | .build => phaseStep s
    | .validate => phaseStep s
    | .decode => phaseStep s

/-- The command word placed where the next step reads it (log 10): `CW` written, the `GO` strobe given, `RST` released
and the sequencer idle, so that it takes the strobe. -/
def State.withFetchWord (s : State) (nbits w : Nat) : State :=
  { s with
    cw := BitVec.ofNat 32 (w % 2 ^ nbits)
    go := true
    rst := false
    phase := .idle
    status := { s.status with busy := false } }

end Sys2Proof.Machine
end

