-- ==== Sys2Proof/Safety.lean ====
section
/-! DEFINITION. What a good state of the block is (an invariant of every step), what a safe run is, and the obligations the
spec puts on the host (70_reset_and_hazards.md R275 to R284), which the block itself never checks (44_commands.md R220). -/

namespace Sys2Proof.Safety

open Sys2Proof Sys2Proof.Machine

/-- What R35, R36, R245 to R247 and R250 leave of `STATUS`: `BUSY` and `DONE` exclude each other, a result kind stands only
on success, and each fault field is zero unless its error is recorded. -/
structure StatusCoherent (st : Status) : Prop where
  busy_not_done : st.busy = true → st.done = false
  busy_ok : st.busy = true → st.err = .ok
  result_only_on_success : st.resKind ≠ .none → st.done = true ∧ st.err = .ok
  error_only_when_done : st.err ≠ .ok → st.done = true
  fault_phase_only_transport : st.faultPhase ≠ .write → st.err = .transportFailure
  fault_word_only_checksum : st.faultWord ≠ 0x00#8 → st.err = .checksumFailure

/-- R51, R57, R63, R157: the frame of a row fits `TXBUF`, its read fits `RXBUF`, and its whole Words fit the read. -/
structure PlanFits (c : Config) (p : Plan) : Prop where
  data_fits : (encPtrData p.opc p.data).length ≤ 8
  read_fits : ∀ r, p.rx = some r → r.nbytes ≤ c.scratchMax
  words_fit : ∀ r, p.rx = some r → 3 * r.words ≤ r.nbytes ∧ r.words ≤ 127

/-- R30: the string buffer is whole, its characters are not zero, and everything after them is. -/
structure StringTerminated (s : State) : Prop where
  whole : s.rs.length = s.cfg.strMax
  shorter : s.rsLen.toNat ≤ s.cfg.strMax - 1
  chars_nonzero : ∀ i, i < s.rsLen.toNat → byteAt s.rs i ≠ 0x00#8
  rest_zero : ∀ i, s.rsLen.toNat ≤ i → byteAt s.rs i = 0x00#8

/-- The call a resting command is waiting for is the last one made (R56, R57, R137, R150). -/
structure CallMade (s : State) : Prop where
  in_tx : s.phase = .tx →
    s.calls.getLast? = some (.write s.cfg.devAddr (encPtrData s.plan.opc s.plan.data) s.samp.argTmo)
  in_rx : s.phase = .rx → ∃ r, s.plan.rx = some r ∧
    s.calls.getLast? = some (.read s.cfg.devAddr r.nbytes s.samp.argTmo)

/-- The invariant of the block. -/
structure Inv (s : State) : Prop where
  /-- a step ends idle or waiting for the Transport -/
  rests : s.phase = .idle ∨ s.phase = .tx ∨ s.phase = .rx
  /-- R32: `STATUS.BUSY = (PHASE != IDLE)` -/
  busy_iff : s.status.busy = (s.phase != .idle)
  /-- R36: a strobe is there to take only while the block is idle -/
  go_idle : s.go = true → s.phase = .idle
  /-- R270, R271: while `RST` is asserted the block stands as reset leaves it -/
  held : s.rst = true → s.phase = .idle ∧ s.go = false ∧ s.status.word = 0x0000#16
  status : StatusCoherent s.status
  /-- R24: the timeout has `TMO_W` bits, and so has the sampled one -/
  tmo : s.argTmo < 2 ^ s.cfg.tmoW
  tmo_sampled : s.samp.argTmo < 2 ^ s.cfg.tmoW
  /-- R38, R50 -/
  txbuf_wf : s.txbuf.wf = true
  txbuf_within : s.txbuf.within 8 = true
  txlen : s.txlen ≤ 8
  /-- R39, R50, R63 -/
  rxbuf_wf : s.rxbuf.wf = true
  rxbuf_within : s.rxbuf.within s.cfg.scratchMax = true
  rxlen : s.rxlen ≤ s.cfg.scratchMax
  /-- R33 -/
  widx : s.widx ≤ 127
  /-- R34 -/
  bidx : s.bidx ≤ s.cfg.scratchMax
  plan : PlanFits s.cfg s.plan
  string : StringTerminated s
  call : CallMade s

/-- A run of `n` steps that no step refuses. -/
def runsSafely : Nat → State → Prop
  | 0, _ => True
  | n + 1, s => ∃ t, step s = .next t ∧ runsSafely n t

/-! ### The host's obligations -/

/-- The sensor's states (R279). The block holds no record of them (R220). -/
inductive SensorState where
  | sleep
  | idle
  | measuring (fmt : Byte)
deriving DecidableEq, Repr

/-- R279: "Initial state at power-up is `Idle`". -/
def sensorAtPowerUp : SensorState := .idle

/-- R279: the six transitions; none where the table gives none, and none for a `STARTM` whose format the block refuses, which
sends nothing (R201). -/
def sensorNext : SensorState → Instr → Option SensorState
  | .sleep, .wake => some .idle
  | .idle, .startm fmt => if fmtLegal fmt then some (.measuring fmt) else none
  | .measuring _, .stopm => some .idle
  | .idle, .sleep => some .sleep
  | .idle, .reset => some .idle
  | .measuring fmt, .fancln => some (.measuring fmt)
  | _, _ => none

/-- R284: after `STARTM 0x03` the host reads with `RDVAL.F`, after `STARTM 0x05` with `RDVAL.I`. R284 does not say when the
format stops to bind, and R279 leaves open a read while the sensor is not measuring: the model holds the format only while the
sensor measures, drops it at `STOPM`, and accepts either `RDVAL` in any other state (DESIGN CHOICE, log 18). -/
def formatMatches : SensorState → Instr → Bool
  | .measuring fmt, .rdvalF => fmt == fmtF32
  | .measuring fmt, .rdvalI => fmt == fmtU16
  | _, _ => true

/-- R280, R281, R282: the delay the host keeps after a command. R280 does not say which commands are "normal"
(91_not_in_source.md N5): the model takes the fourteen commands other than FANCLN and RESET for the normal ones, and gives
those two their own delay alone, without `T_CMD` (DESIGN CHOICE, log 18). -/
def delayOwed (c : Config) : Instr → Nat
  | .fancln => c.tFanclean
  | .reset => c.tReset
  | .startm _ | .stopm | .rdrdy | .rdvalF | .rdvalI | .sleep | .wake | .getaci | .setaci
  | .rdpt _ | .rdsn _ | .rdver | .rdstat | .clrstat => c.tCmd

/-- R275: the host pulses `GO` only while `BUSY = 0`. -/
def goAllowed (s : State) : Bool := !s.status.busy

end Sys2Proof.Safety
end

