-- ==== Sys2Proof/Certificates/Slice0/Obligations.lean ====
section
/-! DEFINITION. The statements for the provers, and the few words they are written in (namespace Sys2Proof.Claims). A
docstring names the rule a statement formalises; what rests on a choice of the model says so and names the log entry. -/

namespace Sys2Proof.Claims

open Sys2Proof Sys2Proof.Machine Sys2Proof.Safety

/-- R97: a command word is legal: `RSV = 0`, one of the 14 opcodes, `DIR = 0` off `0x8004`, `ARG8` as R82 has it. -/
structure LegalWord (w : Word32) : Prop where
  rsv : w.extractLsb' 25 7 = 0#7
  opcode : w.extractLsb' 0 16 ∈ wireOpcodes
  dir : w.extractLsb' 24 1 = 1#1 → w.extractLsb' 0 16 = 0x8004#16
  format : w.extractLsb' 0 16 = 0x0010#16 ∨ w.extractLsb' 0 16 = 0x0300#16 →
    w.extractLsb' 16 8 = 0x03#8 ∨ w.extractLsb' 16 8 = 0x05#8
  capacity : w.extractLsb' 0 16 = 0xD002#16 ∨ w.extractLsb' 0 16 = 0xD033#16 → w.extractLsb' 16 8 ≠ 0x00#8
  unused : w.extractLsb' 0 16 ≠ 0x0010#16 → w.extractLsb' 0 16 ≠ 0x0300#16 → w.extractLsb' 0 16 ≠ 0xD002#16 →
    w.extractLsb' 0 16 ≠ 0xD033#16 → w.extractLsb' 16 8 = 0x00#8

/-- The argument registers, the CRC port, the level of `RST`, the binding and the host's last read stand as they were. -/
structure ArgumentsKept (s t : State) : Prop where
  cfg : t.cfg = s.cfg
  cw : t.cw = s.cw
  argData : t.argData = s.argData
  argTmo : t.argTmo = s.argTmo
  crcB0 : t.crcB0 = s.crcB0
  crcB1 : t.crcB1 = s.crcB1
  rst : t.rst = s.rst
  rdata : t.rdata = s.rdata

/-- The result registers of every kind but one stand as they were (of `none`: of every kind). -/
structure ResultsKeptBut (kind : ResKind) (s t : State) : Prop where
  rf : kind ≠ .f32x10 → t.rf = s.rf
  ru : kind ≠ .u16x10 → t.ru = s.ru
  r32 : kind ≠ .u32 → t.r32 = s.r32
  r16 : kind ≠ .u16 → t.r16 = s.r16
  rvMajor : kind ≠ .ver → t.rvMajor = s.rvMajor
  rvMinor : kind ≠ .ver → t.rvMinor = s.rvMinor
  rs : kind ≠ .str → t.rs = s.rs
  rsLen : kind ≠ .str → t.rsLen = s.rsLen

/-- Every byte of a buffer reads as before, but for the `stored` bytes from address 0 on. -/
def BufferKeptBeyond (stored : Nat) (m m' : Memory) : Prop := ∀ a, stored ≤ a → m'.read a = m.read a

/-- R31: the kind that must be declared for a result register to be read; the other registers have none. -/
def resultKind : HostReg → Option ResKind
  | .rf _ => some .f32x10
  | .ru _ => some .u16x10
  | .r32 => some .u32
  | .r16 => some .u16
  | .rvMajor => some .ver
  | .rvMinor => some .ver
  | .rs _ => some .str
  | .rslen => some .str
  | .cw | .argData | .argTmo | .status | .crcB0 | .crcB1 | .crcOut => none

/-- R31: `STATUS` declares the results of a kind. -/
def Declared (s : State) (k : ResKind) : Prop := s.status.done = true ∧ s.status.err = .ok ∧ s.status.resKind = k

/-- R21: the block has the register; only `RS` has an open number of them. -/
def RegisterExists (s : State) (r : HostReg) : Prop := ∀ i, r = .rs i → i < s.cfg.strMax

/-- R21, R25 to R30, R35, R37: what stands in each register, as an unsigned number. -/
def registerValue (s : State) : HostReg → Nat
  | .cw => s.cw.toNat
  | .argData => s.argData.toNat
  | .argTmo => s.argTmo
  | .status => s.status.word.toNat
  | .rf i => (s.rf.get i).toNat
  | .ru i => (s.ru.get i).toNat
  | .r32 => s.r32.toNat
  | .r16 => s.r16.toNat
  | .rvMajor => s.rvMajor.toNat
  | .rvMinor => s.rvMinor.toNat
  | .rs i => (byteAt s.rs i).toNat
  | .rslen => s.rsLen.toNat
  | .crcB0 => s.crcB0.toNat
  | .crcB1 => s.crcB1.toNat
  | .crcOut => (checksum s.crcB0 s.crcB1).toNat

/-- The next step takes the environment's next move: `RST` is released, and the block is idle with no strobe to take, or a
command waits for the Transport. -/
def EnvironmentMoves (s : State) : Prop :=
  s.rst = false ∧ ((s.phase = .idle ∧ s.go = false) ∨ s.phase = .tx ∨ s.phase = .rx)

/-- R31: no result register holds a value. -/
def NoResult (t : State) : Prop := ∀ r k, resultKind r = some k → ∀ v, t.hostRead r ≠ .value v

/-- Both buffers are canonical (part of `Safety.Inv`). -/
def BuffersWf (s : State) : Prop := s.txbuf.wf = true ∧ s.rxbuf.wf = true

/-- The next move of the environment is not the host's. -/
def noHostMove : List Event → Prop
  | .host _ :: _ => False
  | _ => True

/-- R56 (S8; log 14): an answer that no write has: `Ok` with bytes. -/
def BreaksWrite (env : List Event) : Prop := ∃ bs rest, env = .answer (.bytes bs) :: rest

/-- R57 (S8; log 14): an answer that no read of `n` bytes has: `Ok` without bytes, or with another number of them. -/
def BreaksRead (n : Nat) (env : List Event) : Prop :=
  (∃ rest, env = .answer .done :: rest) ∨ ∃ bs rest, env = .answer (.bytes bs) :: rest ∧ bs.length ≠ n

/-- The answers to a command's write, and to the read of so many bytes that follows it, if there is one, break the contract. -/
def BreaksContract (reads : Option Nat) (env : List Event) : Prop :=
  BreaksWrite env ∨ ∃ n rest, reads = some n ∧ env = .answer .done :: rest ∧ BreaksRead n rest

/-- The pointer-only commands, each with its command word and the two bytes it sends (R202, R206, R207, R208, R215, R216). -/
def pointerOnly : List (Instr × Word32 × List Byte) :=
  [(.stopm, 0x00000104#32, [0x01#8, 0x04#8]), (.sleep, 0x00001001#32, [0x10#8, 0x01#8]),
   (.wake, 0x00001103#32, [0x11#8, 0x03#8]), (.fancln, 0x00005607#32, [0x56#8, 0x07#8]),
   (.clrstat, 0x0000D210#32, [0xD2#8, 0x10#8]), (.reset, 0x0000D304#32, [0xD3#8, 0x04#8])]

/-- R56: how many bytes a write-shaped command sends, which are the bytes it stores in TXBUF; none for the others. -/
def writeShaped : Instr → Option Nat
  | .stopm | .sleep | .wake | .fancln | .clrstat | .reset => some 2
  | .startm _ => some 5
  | .setaci => some 8
  | .rdrdy | .rdvalF | .rdvalI | .getaci | .rdpt _ | .rdsn _ | .rdver | .rdstat => none

/-- R57, R96: the result kind of a read-shaped command and how many bytes it reads; none for the others. -/
def readShaped (c : Config) : Instr → Option (ResKind × Nat)
  | .rdrdy => some (.u16, 3)
  | .rdvalF => some (.f32x10, 60)
  | .rdvalI => some (.u16x10, 30)
  | .getaci => some (.u32, 6)
  | .rdpt cap => some (.str, min ((cap.toNat - 1) * 3 / 2) c.scratchMax)
  | .rdsn cap => some (.str, min ((cap.toNat - 1) * 3 / 2) c.scratchMax)
  | .rdver => some (.ver, 3)
  | .rdstat => some (.u32, 6)
  | .stopm | .sleep | .wake | .fancln | .clrstat | .reset | .startm _ | .setaci => none

/-- R96, column "TX Words": the data bytes a command sends after its pointer. -/
def sentData (s : State) : Instr → List Byte
  | .startm fmt => [fmt, 0x00#8]
  | .setaci => [s.argData.extractLsb' 24 8, s.argData.extractLsb' 16 8, s.argData.extractLsb' 8 8, s.argData.extractLsb' 0 8]
  | .stopm | .rdrdy | .rdvalF | .rdvalI | .sleep | .wake | .fancln | .getaci | .rdpt _ | .rdsn _ | .rdver | .rdstat
  | .clrstat | .reset => []

/-- What every completed command leaves: the block idle with its strobe consumed, the environment's next moves, nothing
written but `STATUS` and the result registers of the kind given. -/
structure Completed (s t : State) (rest : List Event) (word : BitVec 16) (written : ResKind) (made : List Call) : Prop where
  status : t.status.word = word
  idle : t.phase = .idle
  strobe : t.go = false
  env : t.env = rest
  arguments : ArgumentsKept s t
  results : ResultsKeptBut written s t
  calls : t.calls = s.calls ++ made

/-- A write-shaped command that sends `frame` for a state: how it completes when the write is answered (R217, R218). Nothing
is written but `STATUS`, and no result register holds a value. -/
def WriteOutcomes (i : Instr) (frame : State → List Byte) : Prop :=
  ∀ (s : State) (rest : List Event), s.txbuf.wf = true →
    (s.env = .answer .done :: rest →
      ∃ t, exec i s = .next t ∧ NoResult t ∧
        Completed s t rest 0x0002#16 .none [.write s.cfg.devAddr (frame s) s.argTmo]) ∧
    (s.env = .answer .error :: rest →
      ∃ t, exec i s = .next t ∧ NoResult t ∧
        Completed s t rest 0x0006#16 .none [.write s.cfg.devAddr (frame s) s.argTmo])

/-- A read-shaped command with pointer `ptr` that reads `n` bytes holding `W` Words: how it completes (R219) when every Word
is valid (`STATUS` becomes `okWord`, the results of `kind` are as `result` says), when Word `k` is the first invalid one, when
the write fails, and when the read fails. In the last three no result register is written and none holds a value. -/
def ReadOutcomes (i : Instr) (ptr : List Byte) (n W : Config → Nat) (kind : ResKind) (okWord : BitVec 16)
    (result : State → List Byte → Prop) : Prop :=
  ∀ (s : State) (rx : List Byte) (rest : List Event), BuffersWf s → rx.length = n s.cfg →
    (s.env = .answer .done :: .answer (.bytes rx) :: rest →
      (∀ k, k < W s.cfg → wordOk (frameWord rx k) = true) →
      ∃ t, exec i s = .next t ∧ result t rx ∧
        Completed s t rest okWord kind
          [.write s.cfg.devAddr ptr s.argTmo, .read s.cfg.devAddr (n s.cfg) s.argTmo]) ∧
    (s.env = .answer .done :: .answer (.bytes rx) :: rest →
      ∀ k, k < W s.cfg → wordOk (frameWord rx k) = false → (∀ j, j < k → wordOk (frameWord rx j) = true) →
      ∃ t, exec i s = .next t ∧ NoResult t ∧
        Completed s t rest (BitVec.ofNat 16 (0x000A + 256 * k)) .none
          [.write s.cfg.devAddr ptr s.argTmo, .read s.cfg.devAddr (n s.cfg) s.argTmo]) ∧
    (s.env = .answer .error :: rest →
      ∃ t, exec i s = .next t ∧ NoResult t ∧
        Completed s t rest 0x0006#16 .none [.write s.cfg.devAddr ptr s.argTmo]) ∧
    (s.env = .answer .done :: .answer .error :: rest →
      ∃ t, exec i s = .next t ∧ NoResult t ∧
        Completed s t rest 0x0086#16 .none
          [.write s.cfg.devAddr ptr s.argTmo, .read s.cfg.devAddr (n s.cfg) s.argTmo])

/-- R98: the word of a command with an 8-bit operand, `base | (arg << 16)`. -/
def wordWithArg (base : Word32) (arg : Byte) : Word32 := base ||| (arg.setWidth 32 <<< 16)

/-- R241: a command refused for its argument: `InvalidArgument`, no Transport call, the environment untouched. -/
def RefusedArgument (i : Instr) : Prop :=
  ∀ s : State, ∃ t, exec i s = .next t ∧ NoResult t ∧ Completed s t s.env 0x000E#16 .none []

/-- R211, R212: what an identity read leaves: the string of R186 for the data bytes of its whole Words. -/
def IdentityResult (cap : Byte) (t : State) (rx : List Byte) : Prop :=
  t.rs = (decAscii t.cfg.strMax (dataView rx (min ((cap.toNat - 1) * 3 / 2) t.cfg.scratchMax / 3)) cap).1 ∧
    t.rsLen.toNat = (decAscii t.cfg.strMax (dataView rx (min ((cap.toNat - 1) * 3 / 2) t.cfg.scratchMax / 3)) cap).2

/-- R209, R214: a 32-bit counter from the wire bytes of two Words. -/
def CounterResult (t : State) (rx : List Byte) : Prop :=
  t.r32 = byteAt rx 0 ++ byteAt rx 1 ++ byteAt rx 3 ++ byteAt rx 4

end Sys2Proof.Claims

open Sys2Proof Sys2Proof.Machine Sys2Proof.Safety Sys2Proof.Claims

/-! ### The command word -/

/-- Decoding an encoded command gives it back, with every operand at every value (R80, R98; for legal operands R96, R101). For
an operand that R82 calls illegal (STARTM's format, capacity 0 of RDPT and RDSN) R97 and R101 step 5 give no command: that
`decode` still answers the command, which then refuses its operand, is the model's (log 9, DEDUCED). -/
def Obligations.DecodeOfEncodeIsTheCommand : Prop := ∀ i : Instr, decode (encode i) = .command i

/-- No two words are one command: a word that decodes to a command is that command's word (R80, R84, R97). It holds of the
commands with an illegal operand too, which `decode` answers (log 9, DEDUCED). -/
def Obligations.EncodeOfDecodeIsTheWord : Prop := ∀ (w : Word32) (i : Instr), decode w = .command i → encode i = w

/-- The words R98 writes out decode to the commands they stand for. -/
def Obligations.WrittenOutWordsDecode : Prop :=
  decode 0x00030010#32 = .command (.startm 0x03#8) ∧ decode 0x00050010#32 = .command (.startm 0x05#8) ∧
  decode 0x00000104#32 = .command .stopm ∧ decode 0x00000202#32 = .command .rdrdy ∧
  decode 0x00030300#32 = .command .rdvalF ∧ decode 0x00050300#32 = .command .rdvalI ∧
  decode 0x00001001#32 = .command .sleep ∧ decode 0x00001103#32 = .command .wake ∧
  decode 0x00005607#32 = .command .fancln ∧ decode 0x00008004#32 = .command .getaci ∧
  decode 0x01008004#32 = .command .setaci ∧ decode 0x0009D002#32 = .command (.rdpt 9#8) ∧
  decode 0x0021D033#32 = .command (.rdsn 33#8) ∧ decode 0x0000D100#32 = .command .rdver ∧
  decode 0x0000D206#32 = .command .rdstat ∧ decode 0x0000D210#32 = .command .clrstat ∧
  decode 0x0000D304#32 = .command .reset

/-- R99: what each pseudo-command stands for. -/
def Obligations.PseudoCommandsExpand : Prop :=
  pseudoWord (.rdval 0x03#8) = encode .rdvalF ∧ pseudoWord (.rdval 0x05#8) = encode .rdvalI ∧
  (∀ fmt : Byte, fmt ≠ 0x03#8 → fmt ≠ 0x05#8 →
    pseudoWord (.rdval fmt) = wordWithArg 0x00000300#32 fmt ∧ ¬ LegalWord (pseudoWord (.rdval fmt))) ∧
  pseudoWord .rdpt = encode (.rdpt 9#8) ∧ pseudoWord .rdsn = encode (.rdsn 33#8)

/-- The legal words of R97 are the words that decode to a command with legal operands (R82, R101). -/
def Obligations.LegalWordsAreTheWellFormedCommands : Prop :=
  ∀ w : Word32, LegalWord w ↔ ∃ i, decode w = .command i ∧ i.wellFormed = true

/-- R241, R245: at `GO`, `InvalidArgument` is raised exactly when `CW` is illegal, before any Transport call, and it records
nothing else; `CW` stays as it is, and the strobe is consumed. -/
def Obligations.InvalidArgumentExactlyForIllegalWords : Prop :=
  ∀ s : State, s.rst = false → s.phase = .idle → s.go = true →
    (¬ LegalWord s.cw →
      ∃ t, step s = .next t ∧ t.status.word = 0x000E#16 ∧ t.status.err = .invalidArgument ∧
        t.status.faultPhase = .write ∧ t.status.faultWord = 0x00#8 ∧ t.status.resKind = .none ∧
        t.phase = .idle ∧ t.go = false ∧ t.calls = s.calls ∧ t.env = s.env ∧
        ArgumentsKept s t ∧ ResultsKeptBut .none s t ∧ t.txbuf = s.txbuf ∧ t.rxbuf = s.rxbuf) ∧
    (LegalWord s.cw → ∀ t, step s = .next t → t.status.err ≠ .invalidArgument)

/-- R67, R101, R200: when `GO` is to be taken (`RST` released) and the command word decodes to a command (with an illegal
operand too, log 9), the step is that command's meaning at that state, with nothing added. The second clause is the model's own and formalises no rule: a word
placed by `withFetchWord`, which stands for the host's two writes (log 10, DEDUCED), is run by the very next step. -/
def Obligations.StepRunsTheDecodedCommand : Prop :=
  (∀ (s : State) (i : Instr), s.rst = false → s.phase = .idle → s.go = true → decode s.cw = .command i →
    step s = exec i s) ∧
  (∀ (s : State) (w : Nat) (i : Instr), decodeTableWord 32 w = some i →
    step (s.withFetchWord 32 w) = exec i (s.withFetchWord 32 w))

/-! ### The Checksum Engine -/

/-- R113: the Word checksum is the two-byte fold, and its named values. -/
def Obligations.ChecksumIsTheTwoByteFold : Prop :=
  (∀ b0 b1 : Byte, checksum b0 b1 = crc8 [b0, b1] ∧ checksum b0 b1 = crc8Byte (crc8Byte 0xFF#8 b0) b1) ∧
  crc8Byte 0xFF#8 0xBE#8 = 0x0C#8 ∧ crc8Byte 0x0C#8 0xEF#8 = 0x92#8 ∧
  checksum 0xBE#8 0xEF#8 = 0x92#8 ∧ checksum 0xEF#8 0xBE#8 = 0xCE#8 ∧ checksum 0x00#8 0x00#8 = 0x81#8 ∧
  checksum 0xFF#8 0xFF#8 = 0xAC#8 ∧ checksum 0xFF#8 0x00#8 = 0x00#8

/-- R117: one byte is absorbed by `step8` of the XOR; `step8` is linear, is the XOR network bit by bit, takes the eight
values named on the powers of two, and is a bijection. -/
def Obligations.StepEightIsTheXorNetwork : Prop :=
  (∀ a b : Byte, crc8Byte a b = step8 (a ^^^ b)) ∧
  (∀ x y : Byte, step8 (x ^^^ y) = step8 x ^^^ step8 y) ∧ step8 0x00#8 = 0x00#8 ∧
  (∀ t : Byte,
    (step8 t).getLsbD 7 = (t.getLsbD 5 ^^ t.getLsbD 3 ^^ t.getLsbD 2) ∧
    (step8 t).getLsbD 6 = (t.getLsbD 7 ^^ t.getLsbD 4 ^^ t.getLsbD 2 ^^ t.getLsbD 1) ∧
    (step8 t).getLsbD 5 = (t.getLsbD 7 ^^ t.getLsbD 6 ^^ t.getLsbD 3 ^^ t.getLsbD 1 ^^ t.getLsbD 0) ∧
    (step8 t).getLsbD 4 = (t.getLsbD 7 ^^ t.getLsbD 6 ^^ t.getLsbD 3 ^^ t.getLsbD 0) ∧
    (step8 t).getLsbD 3 = (t.getLsbD 7 ^^ t.getLsbD 6 ^^ t.getLsbD 3) ∧
    (step8 t).getLsbD 2 = (t.getLsbD 6 ^^ t.getLsbD 5 ^^ t.getLsbD 2) ∧
    (step8 t).getLsbD 1 = (t.getLsbD 7 ^^ t.getLsbD 5 ^^ t.getLsbD 4 ^^ t.getLsbD 1) ∧
    (step8 t).getLsbD 0 = (t.getLsbD 6 ^^ t.getLsbD 4 ^^ t.getLsbD 3 ^^ t.getLsbD 0) ∧
    step8 t = xorNetwork t) ∧
  (List.range 8).map (fun i => step8 (0x01#8 <<< i)) =
    [0x31#8, 0x62#8, 0xC4#8, 0xB9#8, 0x43#8, 0x86#8, 0x3D#8, 0x7A#8] ∧
  Function.Bijective step8

/-- R118: a Word with exactly one byte altered is invalid, with two it may pass; for a fixed second byte the checksum is a bijection of the first,
so each checksum is taken by exactly 256 of the 65536 pairs. -/
def Obligations.OneAlteredByteIsDetected : Prop :=
  (∀ b0 b1 x : Byte, x ≠ b0 → checksum x b1 ≠ checksum b0 b1) ∧
  (∀ b0 b1 x : Byte, x ≠ b1 → checksum b0 x ≠ checksum b0 b1) ∧
  (∀ b0 b1 c : Byte, c ≠ checksum b0 b1 → wordOk [b0, b1, c] = false) ∧
  (∀ (b0 b1 : Byte) (j : Nat) (x : Byte), j < 3 → x ≠ byteAt (wordBuild b0 b1) j →
    wordOk ((wordBuild b0 b1).set j x) = false) ∧
  (∃ b0 b1 x y : Byte, x ≠ b0 ∧ y ≠ b1 ∧ checksum x y = checksum b0 b1) ∧
  (∀ b1 c : Byte, ∃ b0, checksum b0 b1 = c ∧ ∀ y, checksum y b1 = c → y = b0) ∧
  (∀ c : Byte, Nat.card { p : Byte × Byte // checksum p.1 p.2 = c } = 256)

/-- R119: the affine form of the checksum, and that its change depends on the error pattern alone. -/
def Obligations.ChecksumIsAffine : Prop :=
  (∀ b0 b1 : Byte, checksum b0 b1 = step8 (step8 b0 ^^^ b1) ^^^ 0x81#8) ∧
  checksum 0x00#8 0x00#8 = 0x81#8 ∧ step8 (step8 0xFF#8) = 0x81#8 ∧
  (∀ b0 b1 e0 e1 : Byte, checksum (b0 ^^^ e0) (b1 ^^^ e1) = checksum b0 b1 ^^^ step8 (step8 e0 ^^^ e1))

/-- R37, R121: the direct CRC port, used while the block is idle and while a command waits for the Transport: two writes and
a read of `CRC_OUT` change nothing but the port's operands and what the read returned. -/
def Obligations.CrcPortAtAnyTime : Prop :=
  ∀ (s : State) (b0 b1 : Byte) (rest : List Event), EnvironmentMoves s →
    s.env = .host (.writeCrcB0 b0) :: .host (.writeCrcB1 b1) :: .host (.read .crcOut) :: rest →
    ∃ t u, step s = .next t ∧ step t = .next u ∧
      step u = .next { s with crcB0 := b0, crcB1 := b1, env := rest, rdata := (checksum b0 b1).toNat }

/-! ### Frames -/

/-- R159: frames of valid Words validate and give their data back; one altered byte is found where it is; several altered
bytes either pass or are found in an altered Word, and pass only with two in every altered Word. -/
def Obligations.AlteredFramesAreFound : Prop :=
  ∀ (d : List Byte) (W : Nat), d.length = 2 * W →
    validateFrame (encWords d) W = .ok ∧
    dataView (encWords d) W = d ∧
    (∀ (j : Nat) (x : Byte), j < 3 * W → x ≠ byteAt (encWords d) j →
      validateFrame ((encWords d).set j x) W = .checksumFailure (j / 3)) ∧
    (∀ rx : List Byte, rx.length = 3 * W →
      (validateFrame rx W = .ok ∨ ∃ k j, validateFrame rx W = .checksumFailure k ∧ k < W ∧ j / 3 = k ∧
        byteAt rx j ≠ byteAt (encWords d) j) ∧
      (validateFrame rx W = .ok → ∀ k j, k < W → j / 3 = k → byteAt rx j ≠ byteAt (encWords d) j →
        ∃ j', j' / 3 = k ∧ j' ≠ j ∧ byteAt rx j' ≠ byteAt (encWords d) j'))

/-- R152, R153: validation answers the smallest invalid Word, and `Ok` exactly when there is none. For `rx` shorter than `3W`
bytes R151 and R153 give no value: that the same holds there, with each missing byte taken as 0x00, is the model's choice
(log 21, DESIGN CHOICE). -/
def Obligations.FirstInvalidWordWins : Prop :=
  ∀ (rx : List Byte) (W : Nat),
    (validateFrame rx W = .ok ↔
      ∀ k, k < W → byteAt rx (3 * k + 2) = checksum (byteAt rx (3 * k)) (byteAt rx (3 * k + 1))) ∧
    (∀ k, validateFrame rx W = .checksumFailure k ↔
      k < W ∧ byteAt rx (3 * k + 2) ≠ checksum (byteAt rx (3 * k)) (byteAt rx (3 * k + 1)) ∧
      ∀ j, j < k → byteAt rx (3 * j + 2) = checksum (byteAt rx (3 * j)) (byteAt rx (3 * j + 1)))

/-- R189: what is encoded is decoded: 32-bit values, float sets bit for bit, 16-bit sets, and strings cut to capacity. -/
def Obligations.DecodersInvertTheEncoders : Prop :=
  (∀ v : Word32, decU32 (dataView (encU32 v) 2) = v ∧ validateFrame (encU32 v) 2 = .ok) ∧
  (∀ p : Vector Word32 10, decF32set (dataView (encF32set p) 20) = p) ∧
  (∀ u : Vector Half 10, decU16set (dataView (encU16set u) 10) = u) ∧
  (∀ (strMax : Nat) (s : List Byte) (W : Nat) (cap : Byte), cap ≠ 0x00#8 → (∀ b ∈ s, b ≠ 0x00#8) →
    s.length ≤ 2 * W →
    (decAscii strMax (dataView (encAscii s W) W) cap).2 = min (cap.toNat - 1) s.length ∧
    (decAscii strMax (dataView (encAscii s W) W) cap).1.take (min (cap.toNat - 1) s.length) =
      s.take (min (cap.toNat - 1) s.length))

/-- R187: the bounds of the string decoder, clause by clause (a) to (h). Clause (c) is about the data views of reads, which
hold no more Words than the scratch buffer (R157). -/
def Obligations.StringDecoderBounds : Prop :=
  ∀ (c : Config) (D : List Byte) (cap : Byte), cap ≠ 0x00#8 →
    (decAscii c.strMax D cap).2 = min (cap.toNat - 1) (D.findIdx (· == 0x00#8)) ∧
    (decAscii c.strMax D cap).2 ≤ cap.toNat - 1 ∧
    (∀ W, D.length = 2 * W → W ≤ c.scratchMax / 3 →
      (decAscii c.strMax D cap).2 ≤ D.length ∧ D.length ≤ c.strMax - 1 ∧ (decAscii c.strMax D cap).1.length = c.strMax) ∧
    (∀ i, i < (decAscii c.strMax D cap).2 →
      byteAt (decAscii c.strMax D cap).1 i = byteAt D i ∧ byteAt D i ≠ 0x00#8) ∧
    (∀ m, (decAscii c.strMax D cap).2 ≤ m → byteAt (decAscii c.strMax D cap).1 m = 0x00#8) ∧
    (cap = 0x01#8 → (decAscii c.strMax D cap).2 = 0) ∧
    (D.length = 0 → (decAscii c.strMax D cap).2 = 0) ∧
    (∀ D' : List Byte,
      D'.take (min (cap.toNat - 1) (D'.findIdx (· == 0x00#8))) = D.take (min (cap.toNat - 1) (D.findIdx (· == 0x00#8))) →
      decAscii c.strMax D' cap = decAscii c.strMax D cap)

/-- R156, R157, R188: the identity sizing rule: the read fits the scratch buffer, its whole Words fit the read and leave at
most two bytes over; while it is not clamped an odd capacity reads exactly `C - 1` data bytes and an even one `C - 2` and a
tail byte. -/
def Obligations.IdentitySizing : Prop :=
  ∀ (c : Config) (cap : Byte), cap ≠ 0x00#8 →
    idNbytes c cap ≤ c.scratchMax ∧ idWords c cap ≤ c.scratchMax / 3 ∧ idWords c cap ≤ 127 ∧
    3 * idWords c cap ≤ idNbytes c cap ∧ idNbytes c cap ≤ 3 * idWords c cap + 2 ∧
    ((cap.toNat - 1) * 3 / 2 ≤ c.scratchMax →
      (cap.toNat % 2 = 1 → 2 * idWords c cap = cap.toNat - 1 ∧ idNbytes c cap = 3 * idWords c cap) ∧
      (cap.toNat % 2 = 0 → 2 * idWords c cap = cap.toNat - 2 ∧ idNbytes c cap = 3 * idWords c cap + 1)) ∧
    (c.scratchMax ≤ (cap.toNat - 1) * 3 / 2 → idNbytes c cap = c.scratchMax)

/-! ### The commands -/

/-- R217 with R202, R206, R207, R208, R215, R216: STOPM, SLEEP, WAKE, FANCLN, CLRSTAT and RESET complete after their one
write of the two pointer bytes, `OK` or `TransportFailure(write)`. -/
def Obligations.PointerOnlyCommandsComplete : Prop :=
  ∀ i cw ptr, (i, cw, ptr) ∈ pointerOnly → decode cw = .command i ∧ WriteOutcomes i fun _ => ptr

/-- R201: STARTM sends its 5-byte frame for the two formats; any other format is refused with nothing sent. That the word of
an illegal format decodes to STARTM, where R97 and R101 step 5 give no command, is the model's (log 9, DEDUCED). -/
def Obligations.StartmCompletes : Prop :=
  ∀ fmt : Byte,
    decode (wordWithArg 0x00000010#32 fmt) = .command (.startm fmt) ∧
    (fmt = 0x03#8 ∨ fmt = 0x05#8 →
      WriteOutcomes (.startm fmt) fun _ => [0x00#8, 0x10#8, fmt, 0x00#8, checksum fmt 0x00#8]) ∧
    (fmt ≠ 0x03#8 → fmt ≠ 0x05#8 → RefusedArgument (.startm fmt)) ∧
    checksum 0x03#8 0x00#8 = 0xAC#8 ∧ checksum 0x05#8 0x00#8 = 0xF6#8

/-- R210: SETACI sends `80 04` and the two Words of `ARG_DATA` in one write, whatever the value. -/
def Obligations.SetaciCompletes : Prop :=
  decode 0x01008004#32 = .command .setaci ∧
  WriteOutcomes .setaci fun s =>
    [0x80#8, 0x04#8, s.argData.extractLsb' 24 8, s.argData.extractLsb' 16 8,
     checksum (s.argData.extractLsb' 24 8) (s.argData.extractLsb' 16 8),
     s.argData.extractLsb' 8 8, s.argData.extractLsb' 0 8,
     checksum (s.argData.extractLsb' 8 8) (s.argData.extractLsb' 0 8)]

/-- R203: RDRDY delivers the data of one Word in `R16`. -/
def Obligations.RdrdyCompletes : Prop :=
  decode 0x00000202#32 = .command .rdrdy ∧
  ReadOutcomes .rdrdy [0x02#8, 0x02#8] (fun _ => 3) (fun _ => 1) .u16 0x0062#16
    fun t rx => t.r16 = byteAt rx 0 ++ byteAt rx 1

/-- R204: RDVAL.F delivers ten 32-bit patterns in `RF`. -/
def Obligations.RdvalFCompletes : Prop :=
  decode 0x00030300#32 = .command .rdvalF ∧
  ReadOutcomes .rdvalF [0x03#8, 0x00#8] (fun _ => 60) (fun _ => 20) .f32x10 0x0012#16
    fun t rx => ∀ i : Fin 10, t.rf.get i =
      byteAt rx (6 * i.val) ++ byteAt rx (6 * i.val + 1) ++ byteAt rx (6 * i.val + 3) ++ byteAt rx (6 * i.val + 4)

/-- R205: RDVAL.I delivers ten 16-bit values in `RU`. -/
def Obligations.RdvalICompletes : Prop :=
  decode 0x00050300#32 = .command .rdvalI ∧
  ReadOutcomes .rdvalI [0x03#8, 0x00#8] (fun _ => 30) (fun _ => 10) .u16x10 0x0022#16
    fun t rx => ∀ i : Fin 10, t.ru.get i = byteAt rx (3 * i.val) ++ byteAt rx (3 * i.val + 1)

/-- R209: GETACI delivers a 32-bit counter in `R32`. -/
def Obligations.GetaciCompletes : Prop :=
  decode 0x00008004#32 = .command .getaci ∧
  ReadOutcomes .getaci [0x80#8, 0x04#8] (fun _ => 6) (fun _ => 2) .u32 0x0032#16 CounterResult

/-- R211: RDPT reads the product type for any capacity from 1 to 255; capacity 0 is refused with nothing sent. That the word
with capacity 0 decodes to RDPT, where R97 and R101 step 5 give no command, is the model's (log 9, DEDUCED). -/
def Obligations.RdptCompletes : Prop :=
  (∀ cap : Byte, decode (wordWithArg 0x0000D002#32 cap) = .command (.rdpt cap)) ∧
  (∀ cap : Byte, cap ≠ 0x00#8 →
    ReadOutcomes (.rdpt cap) [0xD0#8, 0x02#8] (fun c => min ((cap.toNat - 1) * 3 / 2) c.scratchMax)
      (fun c => min ((cap.toNat - 1) * 3 / 2) c.scratchMax / 3) .str 0x0052#16 (IdentityResult cap)) ∧
  RefusedArgument (.rdpt 0x00#8)

/-- R212: RDSN, exactly as RDPT with opcode `0xD033`. That the word with capacity 0 decodes to RDSN, where R97 and R101 step 5
give no command, is the model's (log 9, DEDUCED). -/
def Obligations.RdsnCompletes : Prop :=
  (∀ cap : Byte, decode (wordWithArg 0x0000D033#32 cap) = .command (.rdsn cap)) ∧
  (∀ cap : Byte, cap ≠ 0x00#8 →
    ReadOutcomes (.rdsn cap) [0xD0#8, 0x33#8] (fun c => min ((cap.toNat - 1) * 3 / 2) c.scratchMax)
      (fun c => min ((cap.toNat - 1) * 3 / 2) c.scratchMax / 3) .str 0x0052#16 (IdentityResult cap)) ∧
  RefusedArgument (.rdsn 0x00#8)

/-- R213: RDVER delivers major and minor version. -/
def Obligations.RdverCompletes : Prop :=
  decode 0x0000D100#32 = .command .rdver ∧
  ReadOutcomes .rdver [0xD1#8, 0x00#8] (fun _ => 3) (fun _ => 1) .ver 0x0042#16
    fun t rx => t.rvMajor = byteAt rx 0 ∧ t.rvMinor = byteAt rx 1

/-- R214: RDSTAT delivers the device status in `R32`. -/
def Obligations.RdstatCompletes : Prop :=
  decode 0x0000D206#32 = .command .rdstat ∧
  ReadOutcomes .rdstat [0xD2#8, 0x06#8] (fun _ => 6) (fun _ => 2) .u32 0x0032#16 CounterResult

/-- R38, R201, R202, R206, R207, R208, R210, R215 to R218: the frame of the write-shaped commands (STOPM, SLEEP, WAKE, FANCLN,
CLRSTAT, RESET, STARTM, SETACI): they change
`STATUS`, the strobe, the sequencer's own state and the bytes of TXBUF they send; no argument register, no result register,
nothing of the receive side. A STARTM refused for its format (R201, R241) is refused before
its frame is built, and leaves TXBUF as a whole as it was. -/
def Obligations.WriteShapedCommandsFrame : Prop :=
  ∀ (i : Instr) (stored : Nat) (s t : State), writeShaped i = some stored → exec i s = .next t →
    ArgumentsKept s t ∧ ResultsKeptBut .none s t ∧ BufferKeptBeyond stored s.txbuf t.txbuf ∧
    (i.wellFormed = false → (∀ a, t.txbuf.read a = s.txbuf.read a) ∧ t.txlen = s.txlen) ∧
    (∀ a, t.rxbuf.read a = s.rxbuf.read a) ∧ t.rxlen = s.rxlen ∧ t.widx = s.widx ∧
    (stored = 2 → t.acc = s.acc) ∧ t.status.resKind = .none

/-- The frame of the read-shaped commands (RDRDY, RDVAL.F, RDVAL.I, GETACI, RDPT, RDSN, RDVER, RDSTAT): beside `STATUS`, the
strobe and the sequencer's own state they change the two pointer bytes of TXBUF, the bytes of RXBUF they read, and on
success the result registers of their own kind; without success no result register. Unless both calls were answered `Ok`,
RXBUF as a whole reads as before (R39, R57); and an identity read refused for capacity 0 leaves TXBUF as a whole too. That an
unreadable result register keeps its bits is the model's choice (log 5). -/
def Obligations.ReadShapedCommandsFrame : Prop :=
  ∀ (i : Instr) (kind : ResKind) (n : Nat) (s t : State), readShaped s.cfg i = some (kind, n) → exec i s = .next t →
    ArgumentsKept s t ∧ ResultsKeptBut kind s t ∧ BufferKeptBeyond 2 s.txbuf t.txbuf ∧
    BufferKeptBeyond n s.rxbuf t.rxbuf ∧ (t.status.resKind = .none → ResultsKeptBut .none s t) ∧
    ((i.wellFormed = false ∨ ∀ bs rest, s.env ≠ .answer .done :: .answer (.bytes bs) :: rest) →
      (∀ a, t.rxbuf.read a = s.rxbuf.read a) ∧ t.rxlen = s.rxlen ∧ t.widx = s.widx) ∧
    (i.wellFormed = false → (∀ a, t.txbuf.read a = s.txbuf.read a) ∧ t.txlen = s.txlen)

/-- R51, R56: what stands in TXBUF after a command with legal operands: the pointer, most significant byte first, and every
Word with its own checksum; and the write it made carried exactly these bytes. That the buffer keeps them after the command
is the model's choice (log 17). -/
def Obligations.TransmitBufferLayout : Prop :=
  ∀ (i : Instr) (s t : State), i.wellFormed = true → s.txbuf.wf = true → exec i s = .next t →
    t.txlen = 2 + 3 * ((sentData s i).length / 2) ∧
    t.txbuf.read 0 = i.opc.extractLsb' 8 8 ∧ t.txbuf.read 1 = i.opc.extractLsb' 0 8 ∧
    (∀ k, 2 * k < (sentData s i).length →
      t.txbuf.read (2 + 3 * k) = byteAt (sentData s i) (2 * k) ∧
      t.txbuf.read (3 + 3 * k) = byteAt (sentData s i) (2 * k + 1) ∧
      t.txbuf.read (4 + 3 * k) = checksum (byteAt (sentData s i) (2 * k)) (byteAt (sentData s i) (2 * k + 1))) ∧
    .write s.cfg.devAddr (memRead t.txbuf 0 t.txlen) s.argTmo ∈ t.calls

/-- R52, R33: what stands in RXBUF after a read was answered: byte `k` received is byte `k` held, whether or not the frame is
valid; and where the word index stands: past the last Word, or at the first invalid one. That the buffer and the index keep
these values after the command is the model's choice (log 17); no rule reads them there (R42). -/
def Obligations.ReceiveBufferLayout : Prop :=
  ∀ (i : Instr) (s : State) (kind : ResKind) (rx : List Byte) (rest : List Event),
    i.wellFormed = true → s.rxbuf.wf = true → readShaped s.cfg i = some (kind, rx.length) →
    s.env = .answer .done :: .answer (.bytes rx) :: rest →
    ∃ t, exec i s = .next t ∧ t.rxlen = rx.length ∧ (∀ k, k < rx.length → t.rxbuf.read k = byteAt rx k) ∧
      (validateFrame rx (rx.length / 3) = .ok → t.widx = rx.length / 3) ∧
      (∀ k, validateFrame rx (rx.length / 3) = .checksumFailure k → t.widx = k)

/-- R248: errors are precise: `DONE = 1`, `BUSY = 0`, `STATUS` as R245 to R247 say (`FAULT_PHASE` the call that failed,
`FAULT_WORD` the first invalid Word), the argument registers unchanged, no result register holding a value, and outside the
block exactly the calls made before the raise. The premise of the `FAULT_WORD` clause is part of the invariant. -/
def Obligations.ErrorsArePrecise : Prop :=
  ∀ (i : Instr) (s t : State), exec i s = .next t → t.status.err ≠ .ok →
    t.status.done = true ∧ t.status.busy = false ∧ t.status.resKind = .none ∧
    (t.status.err ≠ .transportFailure → t.status.faultPhase = .write) ∧
    (t.status.err ≠ .checksumFailure → t.status.faultWord = 0x00#8) ∧
    t.phase = .idle ∧ ArgumentsKept s t ∧ ResultsKeptBut .none s t ∧ NoResult t ∧
    (t.status.err = .invalidArgument → t.calls = s.calls) ∧
    (t.status.err = .transportFailure → t.status.faultPhase = .write →
      s.env = .answer .error :: t.env ∧ ∃ a bs m, t.calls = s.calls ++ [.write a bs m]) ∧
    (t.status.err = .transportFailure → t.status.faultPhase = .read →
      s.env = .answer .done :: .answer .error :: t.env ∧
        ∃ a bs m n, t.calls = s.calls ++ [.write a bs m, .read a n m]) ∧
    (t.status.err = .checksumFailure → ∃ a bs m n, t.calls = s.calls ++ [.write a bs m, .read a n m]) ∧
    (t.status.err = .checksumFailure → s.rxbuf.wf = true →
      ∃ rx, s.env = .answer .done :: .answer (.bytes rx) :: t.env ∧
        3 * t.status.faultWord.toNat + 2 < rx.length ∧
        wordOk (frameWord rx t.status.faultWord.toNat) = false ∧
        ∀ j, j < t.status.faultWord.toNat → wordOk (frameWord rx j) = true)

/-- R56, R57, R59, R61, R63, R200: every command makes no call, one write, or one write and then one read, to the bound
address with the timeout as it was at `GO`; a write carries 2, 5 or 8 bytes and a read asks for no more than the scratch
buffer holds. -/
def Obligations.AtMostTwoCallsInOrder : Prop :=
  ∀ (i : Instr) (s t : State), exec i s = .next t →
    t.calls = s.calls ∨
    (∃ bs, (bs.length = 2 ∨ bs.length = 5 ∨ bs.length = 8) ∧
      t.calls = s.calls ++ [.write s.cfg.devAddr bs s.argTmo]) ∨
    (∃ bs n, bs.length = 2 ∧ n ≤ s.cfg.scratchMax ∧
      t.calls = s.calls ++ [.write s.cfg.devAddr bs s.argTmo, .read s.cfg.devAddr n s.argTmo])

/-- R251: every command completes when each call it makes is answered within the contract, whatever the answers: idle, `DONE`,
the strobe consumed, within the one step. -/
def Obligations.EveryCommandCompletes : Prop :=
  ∀ (i : Instr) (s : State) (rx : List Byte) (rest : List Event),
    (∀ kind n, readShaped s.cfg i = some (kind, n) → rx.length = n) →
    s.env = .answer .error :: rest ∨ s.env = .answer .done :: .answer .error :: rest ∨
      s.env = .answer .done :: .answer (.bytes rx) :: rest →
    ∃ t, exec i s = .next t ∧ t.phase = .idle ∧ t.go = false ∧ t.status.done = true ∧ t.status.busy = false

/-- R251, R36: while the Transport has not answered the write, a command with legal operands waits in `TX`; while it has
answered the write `Ok` and not the read, a read-shaped one waits in `RX`. There `BUSY = 1`, its calls are made, its arguments
sampled, no result register holds a value, and the block stays so for ever. -/
def Obligations.CommandWaitsForTheTransport : Prop :=
  ∀ (i : Instr) (s : State), i.wellFormed = true →
    (s.env = [] →
      ∃ t, exec i s = .next t ∧ t.phase = .tx ∧ t.status.word = 0x0001#16 ∧ t.go = false ∧
        t.samp = { cw := s.cw, argData := s.argData, argTmo := s.argTmo } ∧
        (∃ bs, t.calls = s.calls ++ [.write s.cfg.devAddr bs s.argTmo]) ∧ NoResult t ∧ ArgumentsKept s t ∧
        ResultsKeptBut .none s t ∧ step t = .next t) ∧
    (∀ kind n, readShaped s.cfg i = some (kind, n) → s.env = [.answer .done] →
      ∃ t, exec i s = .next t ∧ t.phase = .rx ∧ t.status.word = 0x0001#16 ∧ t.go = false ∧ t.env = [] ∧
        t.samp = { cw := s.cw, argData := s.argData, argTmo := s.argTmo } ∧
        (∃ bs, t.calls = s.calls ++ [.write s.cfg.devAddr bs s.argTmo, .read s.cfg.devAddr n s.argTmo]) ∧
        NoResult t ∧ ArgumentsKept s t ∧ ResultsKeptBut .none s t ∧ step t = .next t)

/-- R36: `GO` written through the host port. 1 while `BUSY = 0` gives the strobe; 1 while `BUSY = 1`, and 0, change nothing.
R36 says that the write itself samples the arguments, sets `BUSY` and starts the command; that the write here only sets the
bit `State.go`, and that the very next step does these three, is the model's choice (log 11, DESIGN CHOICE). That the host can
write `GO` while a command waits, and that it is then ignored and not refused, is the model's too, against S5 and D24
(log 12, log 13). -/
def Obligations.GoStrobe : Prop :=
  ∀ (s : State) (v : Bool) (rest : List Event), s.env = .host (.writeGo v) :: rest → EnvironmentMoves s →
    (v = true → s.status.busy = false → step s = .next ((s.setEnv rest).setGo true)) ∧
    (v = true → s.status.busy = true → step s = .next (s.setEnv rest)) ∧
    (v = false → step s = .next (s.setEnv rest))

/-- R21, R22, R23, R24, R37, R276: a host write to `CW`, `ARG_DATA`, `ARG_TMO`, `CRC_B0` or `CRC_B1` puts the value there and
leaves everything else as it was, `STATUS`, the results and a waiting command included. That `ARG_TMO` keeps the `TMO_W` low
bits of a wider value is the model's choice (log 20); that the host acts while a command waits is log 13. -/
def Obligations.HostWritesTouchOnlyTheirRegister : Prop :=
  ∀ (s : State) (rest : List Event), EnvironmentMoves s →
    (∀ v, s.env = .host (.writeCw v) :: rest → step s = .next { s with env := rest, cw := v }) ∧
    (∀ v, s.env = .host (.writeArgData v) :: rest → step s = .next { s with env := rest, argData := v }) ∧
    (∀ v, s.env = .host (.writeArgTmo v) :: rest →
      step s = .next { s with env := rest, argTmo := v % 2 ^ s.cfg.tmoW }) ∧
    (∀ v, s.env = .host (.writeCrcB0 v) :: rest → step s = .next { s with env := rest, crcB0 := v }) ∧
    (∀ v, s.env = .host (.writeCrcB1 v) :: rest → step s = .next { s with env := rest, crcB1 := v })

/-- R21, R31, R35, R37: a host read returns what stands in the register, `CW`, the argument registers, `STATUS` and the CRC
port at any time, a result register when it is declared, and changes nothing else; an undeclared result register is refused
(S2), and so is a byte of `RS` that the block does not have (the model's reading of R21, log 22). -/
def Obligations.HostReadsReturnTheRegister : Prop :=
  ∀ (s : State) (r : HostReg) (rest : List Event), EnvironmentMoves s → s.env = .host (.read r) :: rest →
    (RegisterExists s r → (∀ k, resultKind r = some k → Declared s k) →
      step s = .next { s with env := rest, rdata := registerValue s r }) ∧
    (RegisterExists s r → ∀ k, resultKind r = some k → ¬ Declared s k → step s = .refused .resultHoldsNoValue) ∧
    (¬ RegisterExists s r → step s = .refused .noSuchRegister)

/-- R276: arguments are sampled at `GO`. A command that waited, in `TX` for both answers or in `RX` for the second, gives, when
they come, what it would have given had they come at once; and what the host writes to `CW`, `ARG_DATA` and `ARG_TMO`
meanwhile stands in those registers and changes nothing else. -/
def Obligations.ArgumentsAreFixedAtGo : Prop :=
  ∀ (i : Instr) (s : State) (later : List Event) (w d : Word32) (m : Nat),
    i.wellFormed = true → s.rst = false → noHostMove later →
    (∃ t, exec i (s.setEnv []) = .next t ∧ t.phase = .tx ∧
      step (t.setEnv later) = exec i (s.setEnv later) ∧
      (∀ u, exec i (s.setEnv later) = .next u →
        step ((((t.setEnv later).setCw w).setArgData d).setArgTmo m) =
          .next (((u.setCw w).setArgData d).setArgTmo m))) ∧
    (∀ kind n, readShaped s.cfg i = some (kind, n) →
      ∃ t, exec i (s.setEnv [.answer .done]) = .next t ∧ t.phase = .rx ∧
        step (t.setEnv later) = exec i (s.setEnv (.answer .done :: later)) ∧
        (∀ u, exec i (s.setEnv (.answer .done :: later)) = .next u →
          step ((((t.setEnv later).setCw w).setArgData d).setArgTmo m) =
            .next (((u.setCw w).setArgData d).setArgTmo m)))

/-- R42: the outcome of a command depends on `CW`, `ARG_DATA`, `ARG_TMO`, the parameters and the Transport's answers alone:
two states that agree on these, whatever else they hold, give the same `STATUS`, the same calls, the same rest of the
environment and the same readable results. -/
def Obligations.OutcomeDependsOnArgumentsAlone : Prop :=
  ∀ (i : Instr) (s s' : State), BuffersWf s → BuffersWf s' →
    s.cfg = s'.cfg → s.cw = s'.cw → s.argData = s'.argData → s.argTmo = s'.argTmo → s.env = s'.env →
    (∃ t t' made, exec i s = .next t ∧ exec i s' = .next t' ∧ t.status = t'.status ∧ t.phase = t'.phase ∧
      t.env = t'.env ∧ t.calls = s.calls ++ made ∧ t'.calls = s'.calls ++ made ∧
      ∀ r k, resultKind r = some k → t.hostRead r = t'.hostRead r) ∨
    (exec i s = .refused .transportContract ∧ exec i s' = .refused .transportContract)

/-- R40, R96, R200: each command is the sequence of R200 run on its row of the command ROM. -/
def Obligations.CommandsAgreeWithTheRom : Prop :=
  ∀ (i : Instr) (s : State), i.wellFormed = true →
    exec i s = execPlan (romRow s.cfg { cw := s.cw, argData := s.argData, argTmo := s.argTmo } i) s.accept

/-- R32, R200 (with D1): the command as one step is the sequencer run phase by phase from `ARGCHK`. -/
def Obligations.OneStepIsThePhasesInOrder : Prop :=
  ∀ s : State, s.rst = false → s.phase = .idle → s.go = true → step s = runPhases 6 s.accept

/-! ### STATUS, results, reset -/

/-- R35: where the fields of `STATUS` stand, and their codes. -/
def Obligations.StatusWordLayout : Prop :=
  ∀ st : Status,
    st.word.getLsbD 0 = st.busy ∧ st.word.getLsbD 1 = st.done ∧ st.word.extractLsb' 2 2 = errCode st.err ∧
    st.word.extractLsb' 4 3 = resCode st.resKind ∧ st.word.extractLsb' 7 1 = callPhaseCode st.faultPhase ∧
    st.word.extractLsb' 8 8 = st.faultWord ∧
    (errCode .ok = 0#2 ∧ errCode .transportFailure = 1#2 ∧ errCode .checksumFailure = 2#2 ∧
      errCode .invalidArgument = 3#2) ∧
    (callPhaseCode .write = 0#1 ∧ callPhaseCode .read = 1#1) ∧
    (resCode .none = 0#3 ∧ resCode .f32x10 = 1#3 ∧ resCode .u16x10 = 2#3 ∧ resCode .u32 = 3#3 ∧ resCode .ver = 4#3 ∧
      resCode .str = 5#3 ∧ resCode .u16 = 6#3)

/-- R31: a result register is readable exactly when `DONE = 1`, `ERR = OK` and `RES_KIND` names its kind, the read then gives
what the register holds, and otherwise it is refused; and every `GO` sets `RES_KIND` to `NONE`, so that no result of an
earlier command is readable after it. -/
def Obligations.ResultsReadableExactlyWhenDeclared : Prop :=
  ∀ (s : State) (r : HostReg) (k : ResKind), resultKind r = some k → RegisterExists s r →
    (∀ v, s.hostRead r = .value v ↔ Declared s k ∧ v = registerValue s r) ∧
    (¬ Declared s k → s.hostRead r = .refused .resultHoldsNoValue) ∧
    s.accept.status.resKind = .none ∧ s.accept.hostRead r = .refused .resultHoldsNoValue

/-- R44: after reset the sequencer is idle, `STATUS` is zero in every field, and no result register is readable. -/
def Obligations.ResetLeavesNothingReadable : Prop :=
  State.reset.phase = .idle ∧ State.reset.status.word = 0x0000#16 ∧ State.reset.go = false ∧ NoResult State.reset

/-- R271: `RST` in any resting state: idle, `STATUS` zero, no result readable, the parameters unchanged; a command in flight
is gone and writes no result, and no call is made: the log stays, but for the pending call when it was not carried out (the
form of the log is the model's, log 16). The input stays asserted (R270). -/
def Obligations.RstAbandonsTheCommand : Prop :=
  ∀ (s : State) (carriedOut : Bool) (rest : List Event), s.env = .host (.rst carriedOut) :: rest → EnvironmentMoves s →
    ∃ t, step s = .next t ∧ t.phase = .idle ∧ t.go = false ∧ t.rst = true ∧ t.status.word = 0x0000#16 ∧ NoResult t ∧
      t.cfg = s.cfg ∧ t.env = rest ∧
      (s.phase = .idle ∨ carriedOut = true → t.calls = s.calls) ∧
      (s.phase ≠ .idle → carriedOut = false → t.calls = s.calls.dropLast)

/-- R270: `RST` is active while asserted: whatever the host writes, a `GO`, a further `RST` and every Transport answer leave
the block as it stands; a read answers as ever; and the release changes the level alone. That a write made meanwhile is lost
is the model's reading (log 23), that a late answer is dropped is log 15. -/
def Obligations.RstIsActiveWhileAsserted : Prop :=
  ∀ s : State, s.rst = true →
    (s.env = [] → step s = .next s) ∧
    (∀ a rest, s.env = .answer a :: rest → step s = .next { s with env := rest }) ∧
    (∀ op rest, s.env = .host op :: rest → (∀ r, op ≠ .read r) → op ≠ .rstRelease →
      step s = .next { s with env := rest }) ∧
    (∀ r v rest, s.env = .host (.read r) :: rest → s.hostRead r = .value v →
      step s = .next { s with env := rest, rdata := v }) ∧
    (∀ r e rest, s.env = .host (.read r) :: rest → s.hostRead r = .refused e → step s = .refused e) ∧
    (∀ rest, s.env = .host .rstRelease :: rest → step s = .next { s with env := rest, rst := false })

/-! ### The whole machine -/

/-- The invariant of Safety.lean (R24, R30, R32 to R36, R38, R39, R51, R56, R57, R63, R157, R270) holds after reset.
The values of the registers that R44 leaves unspecified are the model's choice (log 4, 5, 6, 8), and that RST is released
there is log 23. -/
def Obligations.InvariantAtReset : Prop := Inv State.reset

/-- Every step keeps the invariant. At an `RST` step its clauses on `RS`, `ARG_TMO`, `widx`, `bidx`, the lengths and the two
buffers lean on the model's own reset values (log 4, 5, 6, 8), as R44 leaves those unspecified and R30 speaks of a successful
read; and what the host can do while `RST` is asserted is log 23. -/
def Obligations.StepKeepsTheInvariant : Prop := ∀ s t : State, Inv s → step s = .next t → Inv t

/-- R43: no step changes the parameters; and no step but `RST` takes a call out of the log. -/
def Obligations.ParametersAndLogAreKept : Prop :=
  ∀ s t : State, step s = .next t →
    t.cfg = s.cfg ∧ (s.calls <+: t.calls ∨ ∃ b rest, s.env = .host (.rst b) :: rest)

/-- R36, R254: only the strobe starts a command: an idle block without one stays idle, makes no call and writes no result
status. -/
def Obligations.OnlyTheStrobeStartsACommand : Prop :=
  ∀ s t : State, s.phase = .idle → s.go = false → step s = .next t →
    t.phase = .idle ∧ (t.status = s.status ∨ ∃ b rest, s.env = .host (.rst b) :: rest) ∧ t.calls = s.calls

/-- What a step can be refused for, and nothing else: a host read of a result register that `STATUS` does not declare (R31,
S2); a host read of a byte of `RS` that the block does not have (a reason of the model's own, log 22); and a Transport answer
outside its contract, to the write or the read of a command being run or waiting (R56, R57, S8: the model's Transport has no
such answer, and that the step then stops is log 14). That nothing else is refused is the model's: S5 would refuse a `GO`
while busy, which is ignored (log 12); S1 would refuse a `GO` or a `CRC_OUT` read that depends on a register not written since
reset, which has a value (log 4); and an answer while the block is idle or held in reset is discarded (log 15). -/
def Obligations.RefusalsAreForbiddenReadsAndContractBreaches : Prop :=
  ∀ (s : State) (e : Refusal), step s = .refused e →
    (∃ r rest, s.env = .host (.read r) :: rest ∧
      ((e = .resultHoldsNoValue ∧ ∃ k, resultKind r = some k ∧ ¬ Declared s k) ∨
        (e = .noSuchRegister ∧ ¬ RegisterExists s r))) ∨
    (e = .transportContract ∧ s.rst = false ∧
      ((s.phase = .idle ∧ s.go = true ∧ ∃ i, decode s.cw = .command i ∧ i.wellFormed = true ∧
          BreaksContract ((readShaped s.cfg i).map Prod.snd) s.env) ∨
        (s.phase = .tx ∧ BreaksContract (s.plan.rx.map RxPlan.nbytes) s.env) ∨
        (s.phase = .rx ∧ ∃ r, s.plan.rx = some r ∧ BreaksRead r.nbytes s.env)))

/-- The other way round: an answer outside the contract stops the command that it answers, run in one step or waiting
(log 14, the model's: R57 and S8 say that there is no such answer). -/
def Obligations.ContractBreachesAreRefused : Prop :=
  (∀ (i : Instr) (s : State), i.wellFormed = true → BreaksContract ((readShaped s.cfg i).map Prod.snd) s.env →
    exec i s = .refused .transportContract) ∧
  (∀ s : State, s.rst = false → s.phase = .tx → BreaksContract (s.plan.rx.map RxPlan.nbytes) s.env →
    step s = .refused .transportContract) ∧
  (∀ (s : State) (r : RxPlan), s.rst = false → s.phase = .rx → s.plan.rx = some r → BreaksRead r.nbytes s.env →
    step s = .refused .transportContract)
end

