-- ==== Sys2Proof/Laws/Codec.lean ====
section
/-! SUPPORT. The small laws of the Frame Codec and the decoders: lengths, single bytes, and the word loop. -/

namespace Sys2Proof.Machine

open Sys2Proof

@[simp] theorem byteAt_cons_zero (b : Byte) (s : List Byte) : byteAt (b :: s) 0 = b := rfl

@[simp] theorem byteAt_cons_succ (b : Byte) (s : List Byte) (i : Nat) : byteAt (b :: s) (i + 1) = byteAt s i := by
  simp [byteAt]

@[simp] theorem byteAt_nil (i : Nat) : byteAt [] i = 0x00#8 := by simp [byteAt]

theorem byteAt_of_length_le (s : List Byte) (i : Nat) (h : s.length ≤ i) : byteAt s i = 0x00#8 := by
  simp [byteAt, List.getD_eq_getElem?_getD, List.getElem?_eq_none h]

theorem byteAt_append_left (s t : List Byte) (i : Nat) (h : i < s.length) : byteAt (s ++ t) i = byteAt s i := by
  simp [byteAt, List.getD_eq_getElem?_getD, List.getElem?_append_left h]

theorem byteAt_append_right (s t : List Byte) (i : Nat) (h : s.length ≤ i) :
    byteAt (s ++ t) i = byteAt t (i - s.length) := by
  simp [byteAt, List.getD_eq_getElem?_getD, List.getElem?_append_right h]

theorem byteAt_eq_getElem (s : List Byte) (i : Nat) (h : i < s.length) : byteAt s i = s[i] := by
  simp [byteAt, List.getD_eq_getElem?_getD, h]

/-- Two byte sequences of one length that agree at every index are equal. -/
theorem ext_byteAt (s t : List Byte) (hl : s.length = t.length) (h : ∀ i, i < s.length → byteAt s i = byteAt t i) :
    s = t := by
  apply List.ext_getElem hl
  intro i h1 h2
  have := h i h1
  rwa [byteAt_eq_getElem s i h1, byteAt_eq_getElem t i h2] at this

@[simp] theorem u16Bytes_length (v : Half) : (u16Bytes v).length = 2 := rfl

@[simp] theorem u32Bytes_length (v : Word32) : (u32Bytes v).length = 4 := rfl

@[simp] theorem encPtr_length (opc : Half) : (encPtr opc).length = 2 := rfl

@[simp] theorem encWords_nil : encWords [] = [] := rfl

@[simp] theorem encWords_cons_cons (b0 b1 : Byte) (d : List Byte) :
    encWords (b0 :: b1 :: d) = b0 :: b1 :: checksum b0 b1 :: encWords d := rfl

/-- R131: `3n` bytes for `2n` data bytes. -/
theorem encWords_length (n : Nat) (d : List Byte) (h : d.length = 2 * n) : (encWords d).length = 3 * n := by
  induction n generalizing d with
  | zero => simp_all
  | succ n ih =>
    match d, h with
    | b0 :: b1 :: d, h =>
      simp only [List.length_cons] at h
      simp only [encWords_cons_cons, List.length_cons, ih d (by omega)]
      omega
    | [], h => simp at h
    | [_], h => simp at h; omega

/-- R131: data bytes that come in whole pairs are encoded piece by piece. -/
theorem encWords_append (n : Nat) (d e : List Byte) (h : d.length = 2 * n) :
    encWords (d ++ e) = encWords d ++ encWords e := by
  induction n generalizing d with
  | zero => simp_all
  | succ n ih =>
    match d, h with
    | b0 :: b1 :: d, h =>
      simp only [List.length_cons] at h
      simp only [List.cons_append, encWords_cons_cons, ih d (by omega)]
    | [], h => simp at h
    | [_], h => simp at h; omega

/-- R51: the bytes of Word `k` in a sequence of Words. -/
theorem byteAt_encWords (n : Nat) (d : List Byte) (h : d.length = 2 * n) (k : Nat) (hk : k < n) :
    byteAt (encWords d) (3 * k) = byteAt d (2 * k) ∧
    byteAt (encWords d) (3 * k + 1) = byteAt d (2 * k + 1) ∧
    byteAt (encWords d) (3 * k + 2) = checksum (byteAt d (2 * k)) (byteAt d (2 * k + 1)) := by
  induction n generalizing d k with
  | zero => omega
  | succ n ih =>
    match d, h with
    | b0 :: b1 :: d, h =>
      simp only [List.length_cons] at h
      cases k with
      | zero => simp
      | succ k =>
        have := ih d (by omega) k (by omega)
        simpa [show 3 * (k + 1) = 3 * k + 1 + 1 + 1 by omega, show 2 * (k + 1) = 2 * k + 1 + 1 by omega] using this
    | [], h => simp at h
    | [_], h => simp at h; omega

@[simp] theorem dataView_length (rx : List Byte) (W : Nat) : (dataView rx W).length = 2 * W := by
  induction W with
  | zero => rfl
  | succ W ih =>
    have h : dataView rx (W + 1) = dataView rx W ++ [byteAt rx (3 * W), byteAt rx (3 * W + 1)] := by
      simp [dataView, List.range_succ]
    rw [h, List.length_append, ih, List.length_cons, List.length_cons, List.length_nil]
    omega

theorem dataView_succ (rx : List Byte) (W : Nat) :
    dataView rx (W + 1) = dataView rx W ++ [byteAt rx (3 * W), byteAt rx (3 * W + 1)] := by
  simp [dataView, List.range_succ]

/-- R154: `D[2k] = rx[3k]` and `D[2k+1] = rx[3k+1]`. -/
theorem byteAt_dataView (rx : List Byte) (W k : Nat) (hk : k < W) :
    byteAt (dataView rx W) (2 * k) = byteAt rx (3 * k) ∧
    byteAt (dataView rx W) (2 * k + 1) = byteAt rx (3 * k + 1) := by
  induction W with
  | zero => omega
  | succ W ih =>
    rw [dataView_succ]
    by_cases h : k < W
    · rw [byteAt_append_left _ _ _ (by simp; omega), byteAt_append_left _ _ _ (by simp; omega)]
      exact ih h
    · have he : k = W := by omega
      subst he
      rw [byteAt_append_right _ _ _ (by simp), byteAt_append_right _ _ _ (by simp)]
      simp

/-- R115: what a valid Word is, in terms of the frame it stands in (R152). -/
theorem wordOk_frameWord (rx : List Byte) (k : Nat) :
    wordOk (frameWord rx k) = (byteAt rx (3 * k + 2) == checksum (byteAt rx (3 * k)) (byteAt rx (3 * k + 1))) := rfl

/-- R153: the word loop answers `Ok` when every Word it looks at is valid. -/
theorem validateFrom_ok (rx : List Byte) (left k : Nat) :
    validateFrom rx left k = .ok ↔ ∀ j, k ≤ j → j < k + left → wordOk (frameWord rx j) = true := by
  induction left generalizing k with
  | zero => simp [validateFrom]; omega
  | succ left ih =>
    simp only [validateFrom]
    split
    · rename_i h
      rw [ih]
      constructor
      · intro hj j h1 h2
        by_cases he : j = k
        · rw [he]; exact h
        · exact hj j (by omega) (by omega)
      · intro hj j h1 h2
        exact hj j (by omega) (by omega)
    · rename_i h
      constructor
      · intro hc; simp at hc
      · intro hj; exact absurd (hj k (le_refl k) (by omega)) h

/-- R153: the word loop answers the smallest invalid Word it looks at. -/
theorem validateFrom_failure (rx : List Byte) (left k i : Nat) :
    validateFrom rx left k = .checksumFailure i ↔
      k ≤ i ∧ i < k + left ∧ wordOk (frameWord rx i) = false ∧
        ∀ j, k ≤ j → j < i → wordOk (frameWord rx j) = true := by
  induction left generalizing k with
  | zero =>
    constructor
    · intro h; simp [validateFrom] at h
    · rintro ⟨h1, h2, -⟩; omega
  | succ left ih =>
    simp only [validateFrom]
    split
    · rename_i h
      rw [ih]
      constructor
      · rintro ⟨h1, h2, h3, h4⟩
        refine ⟨by omega, by omega, h3, fun j hj1 hj2 => ?_⟩
        by_cases he : j = k
        · rw [he]; exact h
        · exact h4 j (by omega) hj2
      · rintro ⟨h1, h2, h3, h4⟩
        have hne : i ≠ k := by
          intro he
          rw [he, h] at h3
          exact absurd h3 (by decide)
        exact ⟨by omega, by omega, h3, fun j hj1 hj2 => h4 j (by omega) hj2⟩
    · rename_i h
      constructor
      · intro he
        injection he with he
        subst he
        exact ⟨le_refl _, by omega, by simpa using h, fun j hj1 hj2 => by omega⟩
      · rintro ⟨h1, h2, h3, h4⟩
        by_cases he : i = k
        · rw [he]
        · exact absurd (h4 k (le_refl k) (by omega)) h

/-- R186: the decoder takes no more characters than there is room for, nor than there are data bytes. -/
theorem asciiChars_length_le (D : List Byte) (room : Nat) :
    (asciiChars D room).length ≤ room ∧ (asciiChars D room).length ≤ D.length := by
  induction D generalizing room with
  | nil => cases room <;> simp [asciiChars]
  | cons b D ih =>
    cases room with
    | zero => simp [asciiChars]
    | succ room =>
      simp only [asciiChars]
      split
      · simp
      · have := ih room
        simp only [List.length_cons]
        omega

/-- R186: the characters are the data bytes before the first zero, as many as there is room for. -/
theorem asciiChars_eq_take (D : List Byte) (room : Nat) :
    asciiChars D room = D.take (min room (D.findIdx (· == 0x00#8))) := by
  induction D generalizing room with
  | nil => cases room <;> simp [asciiChars]
  | cons b D ih =>
    cases room with
    | zero => simp [asciiChars]
    | succ room =>
      by_cases hb : b = 0x00#8
      · simp [asciiChars, hb, List.findIdx_cons]
      · have hb' : (b == 0x00#8) = false := by simpa using hb
        simp [asciiChars, hb, List.findIdx_cons, hb', ih, Nat.succ_min_succ]

theorem decAscii_snd (strMax : Nat) (D : List Byte) (cap : Byte) :
    (decAscii strMax D cap).2 = (asciiChars D (cap.toNat - 1)).length := rfl

theorem decAscii_fst (strMax : Nat) (D : List Byte) (cap : Byte) :
    (decAscii strMax D cap).1 = asciiChars D (cap.toNat - 1) ++
      List.replicate (strMax - (asciiChars D (cap.toNat - 1)).length) 0x00#8 := rfl

end Sys2Proof.Machine
end

