-- ==== Sys2Proof/Laws/Crc.lean ====
section
/-! SUPPORT. The shift step of the Checksum Engine (40_crc8.md R110) without its test, and its linearity. -/

namespace Sys2Proof.Machine

open Sys2Proof

/-- R110: a shift step is the shift, and the polynomial when bit 7 was set. -/
theorem crc8Bit_eq (a : Byte) : crc8Bit a = (a <<< 1) ^^^ (if a.getLsbD 7 then crcPoly else 0x00#8) := by
  unfold crc8Bit
  split <;> simp

theorem crc8Bit_zero : crc8Bit 0x00#8 = 0x00#8 := by decide

/-- One shift step is linear over XOR. -/
theorem crc8Bit_xor (a b : Byte) : crc8Bit (a ^^^ b) = crc8Bit a ^^^ crc8Bit b := by
  have key : ∀ p q : Bool, (if (p ^^ q) = true then crcPoly else 0x00#8) =
      (if p = true then crcPoly else 0x00#8) ^^^ (if q = true then crcPoly else 0x00#8) := by decide
  rw [crc8Bit_eq, crc8Bit_eq, crc8Bit_eq, BitVec.getLsbD_xor, key, BitVec.shiftLeft_xor_distrib]
  ac_rfl

theorem crc8Steps_xor (n : Nat) (a b : Byte) : crc8Steps n (a ^^^ b) = crc8Steps n a ^^^ crc8Steps n b := by
  induction n generalizing a b with
  | zero => rfl
  | succ n ih => rw [crc8Steps, crc8Steps, crc8Steps, crc8Bit_xor, ih]

end Sys2Proof.Machine
end

