-- ==== Sys2Proof/Laws/Encoding.lean ====
section
/-! SUPPORT. The fields of a packed command word (30_encoding.md R80): each is read back as it was put in, and a word is
nothing but its fields. -/

namespace Sys2Proof

/-- R80: the bits of a word packed from its fields. -/
theorem packCw_getLsbD (opc : Half) (arg8 : Byte) (dir : BitVec 1) (j : Nat) :
    (packCw opc arg8 dir).getLsbD j =
      if j < 16 then opc.getLsbD j
      else if j - 16 < 8 then arg8.getLsbD (j - 16)
      else if j - 16 - 8 < 1 then dir.getLsbD (j - 16 - 8)
      else false := by
  have h1 : (packCw opc arg8 dir).getLsbD j =
      if j < 16 then opc.getLsbD j else (0#7 ++ dir ++ arg8).getLsbD (j - 16) := BitVec.getLsbD_append
  rw [h1, BitVec.getLsbD_append, BitVec.getLsbD_append]
  simp

@[simp] theorem cwOpc_packCw (opc : Half) (arg8 : Byte) (dir : BitVec 1) : cwOpc (packCw opc arg8 dir) = opc := by
  apply BitVec.eq_of_getLsbD_eq
  intro i hi
  rw [cwOpc, BitVec.getLsbD_extractLsb', packCw_getLsbD]
  simp [hi]

@[simp] theorem cwArg8_packCw (opc : Half) (arg8 : Byte) (dir : BitVec 1) : cwArg8 (packCw opc arg8 dir) = arg8 := by
  apply BitVec.eq_of_getLsbD_eq
  intro i hi
  rw [cwArg8, BitVec.getLsbD_extractLsb', packCw_getLsbD]
  simp [hi]

@[simp] theorem cwDir_packCw (opc : Half) (arg8 : Byte) (dir : BitVec 1) : cwDir (packCw opc arg8 dir) = dir := by
  apply BitVec.eq_of_getLsbD_eq
  intro i hi
  have h0 : i = 0 := by omega
  subst h0
  rw [cwDir, BitVec.getLsbD_extractLsb', packCw_getLsbD]
  simp

@[simp] theorem cwRsv_packCw (opc : Half) (arg8 : Byte) (dir : BitVec 1) : cwRsv (packCw opc arg8 dir) = 0#7 := by
  apply BitVec.eq_of_getLsbD_eq
  intro i hi
  rw [cwRsv, BitVec.getLsbD_extractLsb', packCw_getLsbD, if_neg (by omega), if_neg (by omega), if_neg (by omega)]
  simp

/-- R80: a word whose reserved field is zero is its three other fields. -/
theorem packCw_fields (w : Word32) (h : cwRsv w = 0#7) : packCw (cwOpc w) (cwArg8 w) (cwDir w) = w := by
  apply BitVec.eq_of_getLsbD_eq
  intro i hi
  rw [packCw_getLsbD]
  split
  · rename_i h1; simp [cwOpc, h1]
  split
  · rename_i h1 h2; simp [cwArg8, h2, show 16 + (i - 16) = i by omega]
  split
  · rename_i h1 h2 h3; simp [cwDir, show i = 24 by omega]
  · rename_i h1 h2 h3
    have := congrArg (fun x => x.getLsbD (i - 25)) h
    simp only [cwRsv, BitVec.getLsbD_extractLsb'] at this
    simp [show 25 + (i - 25) = i by omega, show i - 25 < 7 by omega] at this
    exact this.symm

end Sys2Proof
end

