-- ==== Sys2Proof/Laws/Flags.lean ====
section
/-! SUPPORT. `STATUS` in numbers (95_test_vectors.md, table of its conventions) and which result it declares (R31). -/

namespace Sys2Proof.Machine

open Sys2Proof

@[simp] theorem Status.word_atGo : Status.atGo.word = 0x0001#16 := by decide

@[simp] theorem Status.word_success (kind : ResKind) :
    (Status.success kind).word = match kind with
      | .none => 0x0002#16
      | .f32x10 => 0x0012#16
      | .u16x10 => 0x0022#16
      | .u32 => 0x0032#16
      | .ver => 0x0042#16
      | .str => 0x0052#16
      | .u16 => 0x0062#16 := by
  cases kind <;> decide

@[simp] theorem Status.word_invalidArgument : (Status.raised .invalidArgument).word = 0x000E#16 := by decide

@[simp] theorem Status.word_writeFailure : (Status.raised (.transportFailure .write)).word = 0x0006#16 := by decide

@[simp] theorem Status.word_readFailure : (Status.raised (.transportFailure .read)).word = 0x0086#16 := by decide

/-- R247: the number of a checksum failure at Word `k`. -/
theorem Status.word_checksumFailure (k : Nat) (hk : k < 256) :
    (Status.raised (.checksumFailure k)).word = BitVec.ofNat 16 (0x000A + 256 * k) := by
  have h : ∀ n : Fin 256, (Status.raised (.checksumFailure n.val)).word = BitVec.ofNat 16 (0x000A + 256 * n.val) := by
    decide +kernel
  exact h ⟨k, hk⟩

/-- R31: a status that is not done, or records an error, or names no kind declares nothing. -/
theorem Status.declares_eq_false (st : Status) (kind : ResKind)
    (h : st.done = false ∨ st.err ≠ .ok ∨ (st.resKind = .none ∧ kind ≠ .none)) : st.declares kind = false := by
  simp only [Status.declares]
  rcases h with h | h | ⟨h, hk⟩
  · simp [h]
  · simp [h]
  · rw [h]
    cases kind <;> simp_all

/-- R31: what it takes for a kind to be declared. -/
theorem Status.declares_iff (st : Status) (kind : ResKind) :
    st.declares kind = true ↔ st.done = true ∧ st.err = .ok ∧ st.resKind = kind := by
  simp [Status.declares, and_assoc]

end Sys2Proof.Machine
end

