-- ==== Sys2Proof/Laws/Memory.lean ====
section
/-! SUPPORT. The laws of the byte buffers: a read after a write, and that every write keeps the canonical form (log 8). -/

namespace Sys2Proof.Machine

open Sys2Proof

theorem Memory.read_consCell_same (a : Nat) (v : Byte) (m : Memory) (h : m.read a = Memory.unlisted) :
    (Memory.consCell a v m).read a = v := by
  unfold Memory.consCell
  split
  · rename_i hv; rw [h, hv]
  · simp [Memory.read]

theorem Memory.read_consCell_ne (a b : Nat) (v : Byte) (m : Memory) (h : a ≠ b) :
    (Memory.consCell a v m).read b = m.read b := by
  unfold Memory.consCell
  split
  · rfl
  · simp [Memory.read, h]

/-- Below the first address that may be listed, nothing is listed. -/
theorem Memory.read_below (m : Memory) (lo a : Nat) (hw : Memory.wfFrom lo m = true) (h : a < lo) :
    m.read a = Memory.unlisted := by
  induction m generalizing lo with
  | nil => rfl
  | cons c m ih =>
    obtain ⟨k, b⟩ := c
    simp only [Memory.wfFrom, Bool.and_eq_true, decide_eq_true_eq] at hw
    have hne : k ≠ a := by omega
    simp only [Memory.read, hne, if_false]
    exact ih (k + 1) hw.2 (by omega)

theorem Memory.wfFrom_mono (m : Memory) (lo lo' : Nat) (h : lo' ≤ lo) (hw : Memory.wfFrom lo m = true) :
    Memory.wfFrom lo' m = true := by
  cases m with
  | nil => rfl
  | cons c m =>
    obtain ⟨k, b⟩ := c
    simp only [Memory.wfFrom, Bool.and_eq_true, decide_eq_true_eq] at hw ⊢
    exact ⟨⟨by omega, hw.1.2⟩, hw.2⟩

theorem Memory.wfFrom_consCell (m : Memory) (lo a : Nat) (v : Byte) (ha : lo ≤ a)
    (hw : Memory.wfFrom (a + 1) m = true) : Memory.wfFrom lo (Memory.consCell a v m) = true := by
  unfold Memory.consCell
  split
  · exact Memory.wfFrom_mono m _ _ (by omega) hw
  · rename_i hv
    simp [Memory.wfFrom, ha, hv, hw]

theorem Memory.wfFrom_write (m : Memory) (lo a : Nat) (v : Byte) (ha : lo ≤ a) (hw : Memory.wfFrom lo m = true) :
    Memory.wfFrom lo (m.write a v) = true := by
  induction m generalizing lo with
  | nil => exact Memory.wfFrom_consCell [] lo a v ha rfl
  | cons c m ih =>
    obtain ⟨k, b⟩ := c
    simp only [Memory.wfFrom, Bool.and_eq_true, decide_eq_true_eq] at hw
    simp only [Memory.write]
    split
    · rename_i hlt
      refine Memory.wfFrom_consCell _ lo a v ha ?_
      simp only [Memory.wfFrom, Bool.and_eq_true, decide_eq_true_eq]
      exact ⟨⟨by omega, hw.1.2⟩, hw.2⟩
    · split
      · rename_i _ he
        subst he
        exact Memory.wfFrom_consCell m lo a v ha hw.2
      · simp only [Memory.wfFrom, Bool.and_eq_true, decide_eq_true_eq]
        exact ⟨hw.1, ih (k + 1) (by omega) hw.2⟩

/-- A write keeps the canonical form. -/
theorem Memory.wf_write (m : Memory) (a : Nat) (v : Byte) (hw : m.wf = true) : (m.write a v).wf = true :=
  Memory.wfFrom_write m 0 a v (Nat.zero_le a) hw

/-- A read after a write to the same place gives the value written. -/
theorem Memory.read_write_same (m : Memory) (lo a : Nat) (v : Byte) (hw : Memory.wfFrom lo m = true) :
    (m.write a v).read a = v := by
  induction m generalizing lo with
  | nil => exact Memory.read_consCell_same a v [] rfl
  | cons c m ih =>
    obtain ⟨k, b⟩ := c
    have hw' := hw
    simp only [Memory.wfFrom, Bool.and_eq_true, decide_eq_true_eq] at hw
    simp only [Memory.write]
    split
    · rename_i hlt
      refine Memory.read_consCell_same a v _ (Memory.read_below _ k a ?_ hlt)
      simp only [Memory.wfFrom, Bool.and_eq_true, decide_eq_true_eq]
      exact ⟨⟨le_refl k, hw.1.2⟩, hw.2⟩
    · split
      · rename_i _ he
        subst he
        exact Memory.read_consCell_same a v m (Memory.read_below m (a + 1) a hw.2 (by omega))
      · rename_i hlt hne
        have hka : k ≠ a := fun h => hne h.symm
        simp only [Memory.read, hka, if_false]
        exact ih (k + 1) hw.2

/-- A write leaves every other place alone. -/
theorem Memory.read_write_ne (m : Memory) (a b : Nat) (v : Byte) (h : a ≠ b) : (m.write a v).read b = m.read b := by
  induction m with
  | nil => exact Memory.read_consCell_ne a b v [] h
  | cons c m ih =>
    obtain ⟨k, x⟩ := c
    simp only [Memory.write]
    split
    · exact Memory.read_consCell_ne a b v _ h
    · split
      · rename_i _ he
        subst he
        rw [Memory.read_consCell_ne a b v m h]
        simp [Memory.read, h]
      · simp only [Memory.read, ih]

theorem Memory.within_consCell (m : Memory) (a size : Nat) (v : Byte) (ha : a < size) (hm : m.within size = true) :
    (Memory.consCell a v m).within size = true := by
  unfold Memory.consCell
  split
  · exact hm
  · simp only [Memory.within, List.all_cons, Bool.and_eq_true, decide_eq_true_eq]
    exact ⟨ha, hm⟩

/-- A write inside the buffer lists nothing outside it (R50, R63). -/
theorem Memory.within_write (m : Memory) (a size : Nat) (v : Byte) (ha : a < size) (hm : m.within size = true) :
    (m.write a v).within size = true := by
  induction m with
  | nil => exact Memory.within_consCell [] a size v ha rfl
  | cons c m ih =>
    obtain ⟨k, x⟩ := c
    have hm' : decide (k < size) = true ∧ Memory.within m size = true := by
      simpa only [Memory.within, List.all_cons, Bool.and_eq_true] using hm
    simp only [Memory.write]
    split
    · exact Memory.within_consCell _ a size v ha hm
    · split
      · exact Memory.within_consCell m a size v ha hm'.2
      · simp only [Memory.within, List.all_cons, Bool.and_eq_true]
        exact ⟨hm'.1, ih hm'.2⟩

/-- Two canonical buffers that read alike at every address are the same list. -/
theorem Memory.ext_of_read (m m' : Memory) (lo : Nat) (hw : Memory.wfFrom lo m = true)
    (hw' : Memory.wfFrom lo m' = true) (h : ∀ a, m.read a = m'.read a) : m = m' := by
  induction m generalizing lo m' with
  | nil =>
    cases m' with
    | nil => rfl
    | cons c m' =>
      obtain ⟨k, b⟩ := c
      simp only [Memory.wfFrom, Bool.and_eq_true, bne_iff_ne] at hw'
      exact absurd (by simpa [Memory.read] using (h k).symm) hw'.1.2
  | cons c m ih =>
    obtain ⟨k, b⟩ := c
    have hk : Memory.wfFrom (k + 1) m = true ∧ b ≠ Memory.unlisted := by
      simp only [Memory.wfFrom, Bool.and_eq_true, bne_iff_ne] at hw
      exact ⟨hw.2, hw.1.2⟩
    cases m' with
    | nil => exact absurd (by simpa [Memory.read] using h k) hk.2
    | cons c' m' =>
      obtain ⟨k', b'⟩ := c'
      have hk' : Memory.wfFrom (k' + 1) m' = true ∧ b' ≠ Memory.unlisted := by
        simp only [Memory.wfFrom, Bool.and_eq_true, bne_iff_ne] at hw'
        exact ⟨hw'.2, hw'.1.2⟩
      have hkk : k = k' := by
        rcases Nat.lt_trichotomy k k' with hlt | he | hlt
        · have h1 := h k
          have hne : k' ≠ k := by omega
          simp only [Memory.read, if_true, hne, if_false] at h1
          exact absurd (h1.trans (Memory.read_below m' (k' + 1) k hk'.1 (by omega))) hk.2
        · exact he
        · have h1 := h k'
          have hne : k ≠ k' := by omega
          simp only [Memory.read, if_true, hne, if_false] at h1
          exact absurd (h1.symm.trans (Memory.read_below m (k + 1) k' hk.1 (by omega))) hk'.2
      subst hkk
      have hb : b = b' := by simpa [Memory.read] using h k
      subst hb
      congr 1
      refine ih m' (k + 1) hk.1 hk'.1 fun a => ?_
      by_cases ha : k = a
      · subst ha
        rw [Memory.read_below m (k + 1) k hk.1 (by omega), Memory.read_below m' (k + 1) k hk'.1 (by omega)]
      · have h1 := h a
        simpa only [Memory.read, ha, if_false] using h1

/-! ### Sequences of bytes (R13) -/

@[simp] theorem memRead_length (m : Memory) (a n : Nat) : (memRead m a n).length = n := by simp [memRead]

/-- `MemWrite` keeps the canonical form. -/
theorem memWrite_wf (m : Memory) (a : Nat) (bs : List Byte) (hw : m.wf = true) : (memWrite m a bs).wf = true := by
  induction bs generalizing m a with
  | nil => exact hw
  | cons b bs ih => exact ih (m.write a b) (a + 1) (Memory.wf_write m a b hw)

/-- `MemWrite` that ends inside the buffer lists nothing outside it. -/
theorem memWrite_within (m : Memory) (a size : Nat) (bs : List Byte) (h : a + bs.length ≤ size)
    (hm : m.within size = true) : (memWrite m a bs).within size = true := by
  induction bs generalizing m a with
  | nil => exact hm
  | cons b bs ih =>
    simp only [List.length_cons] at h
    exact ih (m.write a b) (a + 1) (by omega) (Memory.within_write m a size b (by omega) hm)

/-- Outside the bytes written every address reads as before. -/
theorem memWrite_read_outside (m : Memory) (a : Nat) (bs : List Byte) (x : Nat) (h : x < a ∨ a + bs.length ≤ x) :
    (memWrite m a bs).read x = m.read x := by
  induction bs generalizing m a with
  | nil => rfl
  | cons b bs ih =>
    simp only [List.length_cons] at h
    rw [memWrite, ih (m.write a b) (a + 1) (by omega), Memory.read_write_ne m a x b (by omega)]

/-- Inside them it reads as the byte written. -/
theorem memWrite_read_inside (m : Memory) (a : Nat) (bs : List Byte) (i : Nat) (hw : m.wf = true)
    (h : i < bs.length) : (memWrite m a bs).read (a + i) = bs.getD i 0x00#8 := by
  induction bs generalizing m a i with
  | nil => simp at h
  | cons b bs ih =>
    rw [memWrite]
    cases i with
    | zero =>
      rw [memWrite_read_outside (m.write a b) (a + 1) bs (a + 0) (by omega)]
      simpa using Memory.read_write_same m 0 a b hw
    | succ i =>
      simp only [List.length_cons] at h
      have := ih (m.write a b) (a + 1) i (Memory.wf_write m a b hw) (by omega)
      rw [show a + (i + 1) = a + 1 + i by omega, this]
      simp

/-- What was written is what is read back. -/
theorem memRead_memWrite (m : Memory) (a : Nat) (bs : List Byte) (hw : m.wf = true) :
    memRead (memWrite m a bs) a bs.length = bs := by
  apply List.ext_getElem
  · simp
  · intro i h1 h2
    simp only [memRead, List.getElem_map, List.getElem_range]
    rw [memWrite_read_inside m a bs i hw h2]
    simp [List.getD_eq_getElem?_getD, h2]

end Sys2Proof.Machine
end

