-- ==== Sys2Proof/Laws/State.lean ====
section
/-! SUPPORT. What each update of the state does to each field: one equation per field per update, so that no later proof
unfolds a record update. -/

namespace Sys2Proof.Machine

open Sys2Proof

/-! ### State.setEnv -/

@[simp] theorem State.setEnv_cfg (s : State) (v : List Event) : (s.setEnv v).cfg = s.cfg := rfl
@[simp] theorem State.setEnv_cw (s : State) (v : List Event) : (s.setEnv v).cw = s.cw := rfl
@[simp] theorem State.setEnv_argData (s : State) (v : List Event) : (s.setEnv v).argData = s.argData := rfl
@[simp] theorem State.setEnv_argTmo (s : State) (v : List Event) : (s.setEnv v).argTmo = s.argTmo := rfl
@[simp] theorem State.setEnv_go (s : State) (v : List Event) : (s.setEnv v).go = s.go := rfl
@[simp] theorem State.setEnv_rst (s : State) (v : List Event) : (s.setEnv v).rst = s.rst := rfl
@[simp] theorem State.setEnv_status (s : State) (v : List Event) : (s.setEnv v).status = s.status := rfl
@[simp] theorem State.setEnv_rf (s : State) (v : List Event) : (s.setEnv v).rf = s.rf := rfl
@[simp] theorem State.setEnv_ru (s : State) (v : List Event) : (s.setEnv v).ru = s.ru := rfl
@[simp] theorem State.setEnv_r32 (s : State) (v : List Event) : (s.setEnv v).r32 = s.r32 := rfl
@[simp] theorem State.setEnv_r16 (s : State) (v : List Event) : (s.setEnv v).r16 = s.r16 := rfl
@[simp] theorem State.setEnv_rvMajor (s : State) (v : List Event) : (s.setEnv v).rvMajor = s.rvMajor := rfl
@[simp] theorem State.setEnv_rvMinor (s : State) (v : List Event) : (s.setEnv v).rvMinor = s.rvMinor := rfl
@[simp] theorem State.setEnv_rs (s : State) (v : List Event) : (s.setEnv v).rs = s.rs := rfl
@[simp] theorem State.setEnv_rsLen (s : State) (v : List Event) : (s.setEnv v).rsLen = s.rsLen := rfl
@[simp] theorem State.setEnv_crcB0 (s : State) (v : List Event) : (s.setEnv v).crcB0 = s.crcB0 := rfl
@[simp] theorem State.setEnv_crcB1 (s : State) (v : List Event) : (s.setEnv v).crcB1 = s.crcB1 := rfl
@[simp] theorem State.setEnv_phase (s : State) (v : List Event) : (s.setEnv v).phase = s.phase := rfl
@[simp] theorem State.setEnv_widx (s : State) (v : List Event) : (s.setEnv v).widx = s.widx := rfl
@[simp] theorem State.setEnv_bidx (s : State) (v : List Event) : (s.setEnv v).bidx = s.bidx := rfl
@[simp] theorem State.setEnv_txbuf (s : State) (v : List Event) : (s.setEnv v).txbuf = s.txbuf := rfl
@[simp] theorem State.setEnv_txlen (s : State) (v : List Event) : (s.setEnv v).txlen = s.txlen := rfl
@[simp] theorem State.setEnv_rxbuf (s : State) (v : List Event) : (s.setEnv v).rxbuf = s.rxbuf := rfl
@[simp] theorem State.setEnv_rxlen (s : State) (v : List Event) : (s.setEnv v).rxlen = s.rxlen := rfl
@[simp] theorem State.setEnv_acc (s : State) (v : List Event) : (s.setEnv v).acc = s.acc := rfl
@[simp] theorem State.setEnv_samp (s : State) (v : List Event) : (s.setEnv v).samp = s.samp := rfl
@[simp] theorem State.setEnv_plan (s : State) (v : List Event) : (s.setEnv v).plan = s.plan := rfl
@[simp] theorem State.setEnv_env (s : State) (v : List Event) : (s.setEnv v).env = v := rfl
@[simp] theorem State.setEnv_calls (s : State) (v : List Event) : (s.setEnv v).calls = s.calls := rfl
@[simp] theorem State.setEnv_rdata (s : State) (v : List Event) : (s.setEnv v).rdata = s.rdata := rfl

/-! ### State.setCw -/

@[simp] theorem State.setCw_cfg (s : State) (v : Word32) : (s.setCw v).cfg = s.cfg := rfl
@[simp] theorem State.setCw_cw (s : State) (v : Word32) : (s.setCw v).cw = v := rfl
@[simp] theorem State.setCw_argData (s : State) (v : Word32) : (s.setCw v).argData = s.argData := rfl
@[simp] theorem State.setCw_argTmo (s : State) (v : Word32) : (s.setCw v).argTmo = s.argTmo := rfl
@[simp] theorem State.setCw_go (s : State) (v : Word32) : (s.setCw v).go = s.go := rfl
@[simp] theorem State.setCw_rst (s : State) (v : Word32) : (s.setCw v).rst = s.rst := rfl
@[simp] theorem State.setCw_status (s : State) (v : Word32) : (s.setCw v).status = s.status := rfl
@[simp] theorem State.setCw_rf (s : State) (v : Word32) : (s.setCw v).rf = s.rf := rfl
@[simp] theorem State.setCw_ru (s : State) (v : Word32) : (s.setCw v).ru = s.ru := rfl
@[simp] theorem State.setCw_r32 (s : State) (v : Word32) : (s.setCw v).r32 = s.r32 := rfl
@[simp] theorem State.setCw_r16 (s : State) (v : Word32) : (s.setCw v).r16 = s.r16 := rfl
@[simp] theorem State.setCw_rvMajor (s : State) (v : Word32) : (s.setCw v).rvMajor = s.rvMajor := rfl
@[simp] theorem State.setCw_rvMinor (s : State) (v : Word32) : (s.setCw v).rvMinor = s.rvMinor := rfl
@[simp] theorem State.setCw_rs (s : State) (v : Word32) : (s.setCw v).rs = s.rs := rfl
@[simp] theorem State.setCw_rsLen (s : State) (v : Word32) : (s.setCw v).rsLen = s.rsLen := rfl
@[simp] theorem State.setCw_crcB0 (s : State) (v : Word32) : (s.setCw v).crcB0 = s.crcB0 := rfl
@[simp] theorem State.setCw_crcB1 (s : State) (v : Word32) : (s.setCw v).crcB1 = s.crcB1 := rfl
@[simp] theorem State.setCw_phase (s : State) (v : Word32) : (s.setCw v).phase = s.phase := rfl
@[simp] theorem State.setCw_widx (s : State) (v : Word32) : (s.setCw v).widx = s.widx := rfl
@[simp] theorem State.setCw_bidx (s : State) (v : Word32) : (s.setCw v).bidx = s.bidx := rfl
@[simp] theorem State.setCw_txbuf (s : State) (v : Word32) : (s.setCw v).txbuf = s.txbuf := rfl
@[simp] theorem State.setCw_txlen (s : State) (v : Word32) : (s.setCw v).txlen = s.txlen := rfl
@[simp] theorem State.setCw_rxbuf (s : State) (v : Word32) : (s.setCw v).rxbuf = s.rxbuf := rfl
@[simp] theorem State.setCw_rxlen (s : State) (v : Word32) : (s.setCw v).rxlen = s.rxlen := rfl
@[simp] theorem State.setCw_acc (s : State) (v : Word32) : (s.setCw v).acc = s.acc := rfl
@[simp] theorem State.setCw_samp (s : State) (v : Word32) : (s.setCw v).samp = s.samp := rfl
@[simp] theorem State.setCw_plan (s : State) (v : Word32) : (s.setCw v).plan = s.plan := rfl
@[simp] theorem State.setCw_env (s : State) (v : Word32) : (s.setCw v).env = s.env := rfl
@[simp] theorem State.setCw_calls (s : State) (v : Word32) : (s.setCw v).calls = s.calls := rfl
@[simp] theorem State.setCw_rdata (s : State) (v : Word32) : (s.setCw v).rdata = s.rdata := rfl

/-! ### State.setArgData -/

@[simp] theorem State.setArgData_cfg (s : State) (v : Word32) : (s.setArgData v).cfg = s.cfg := rfl
@[simp] theorem State.setArgData_cw (s : State) (v : Word32) : (s.setArgData v).cw = s.cw := rfl
@[simp] theorem State.setArgData_argData (s : State) (v : Word32) : (s.setArgData v).argData = v := rfl
@[simp] theorem State.setArgData_argTmo (s : State) (v : Word32) : (s.setArgData v).argTmo = s.argTmo := rfl
@[simp] theorem State.setArgData_go (s : State) (v : Word32) : (s.setArgData v).go = s.go := rfl
@[simp] theorem State.setArgData_rst (s : State) (v : Word32) : (s.setArgData v).rst = s.rst := rfl
@[simp] theorem State.setArgData_status (s : State) (v : Word32) : (s.setArgData v).status = s.status := rfl
@[simp] theorem State.setArgData_rf (s : State) (v : Word32) : (s.setArgData v).rf = s.rf := rfl
@[simp] theorem State.setArgData_ru (s : State) (v : Word32) : (s.setArgData v).ru = s.ru := rfl
@[simp] theorem State.setArgData_r32 (s : State) (v : Word32) : (s.setArgData v).r32 = s.r32 := rfl
@[simp] theorem State.setArgData_r16 (s : State) (v : Word32) : (s.setArgData v).r16 = s.r16 := rfl
@[simp] theorem State.setArgData_rvMajor (s : State) (v : Word32) : (s.setArgData v).rvMajor = s.rvMajor := rfl
@[simp] theorem State.setArgData_rvMinor (s : State) (v : Word32) : (s.setArgData v).rvMinor = s.rvMinor := rfl
@[simp] theorem State.setArgData_rs (s : State) (v : Word32) : (s.setArgData v).rs = s.rs := rfl
@[simp] theorem State.setArgData_rsLen (s : State) (v : Word32) : (s.setArgData v).rsLen = s.rsLen := rfl
@[simp] theorem State.setArgData_crcB0 (s : State) (v : Word32) : (s.setArgData v).crcB0 = s.crcB0 := rfl
@[simp] theorem State.setArgData_crcB1 (s : State) (v : Word32) : (s.setArgData v).crcB1 = s.crcB1 := rfl
@[simp] theorem State.setArgData_phase (s : State) (v : Word32) : (s.setArgData v).phase = s.phase := rfl
@[simp] theorem State.setArgData_widx (s : State) (v : Word32) : (s.setArgData v).widx = s.widx := rfl
@[simp] theorem State.setArgData_bidx (s : State) (v : Word32) : (s.setArgData v).bidx = s.bidx := rfl
@[simp] theorem State.setArgData_txbuf (s : State) (v : Word32) : (s.setArgData v).txbuf = s.txbuf := rfl
@[simp] theorem State.setArgData_txlen (s : State) (v : Word32) : (s.setArgData v).txlen = s.txlen := rfl
@[simp] theorem State.setArgData_rxbuf (s : State) (v : Word32) : (s.setArgData v).rxbuf = s.rxbuf := rfl
@[simp] theorem State.setArgData_rxlen (s : State) (v : Word32) : (s.setArgData v).rxlen = s.rxlen := rfl
@[simp] theorem State.setArgData_acc (s : State) (v : Word32) : (s.setArgData v).acc = s.acc := rfl
@[simp] theorem State.setArgData_samp (s : State) (v : Word32) : (s.setArgData v).samp = s.samp := rfl
@[simp] theorem State.setArgData_plan (s : State) (v : Word32) : (s.setArgData v).plan = s.plan := rfl
@[simp] theorem State.setArgData_env (s : State) (v : Word32) : (s.setArgData v).env = s.env := rfl
@[simp] theorem State.setArgData_calls (s : State) (v : Word32) : (s.setArgData v).calls = s.calls := rfl
@[simp] theorem State.setArgData_rdata (s : State) (v : Word32) : (s.setArgData v).rdata = s.rdata := rfl

/-! ### State.setArgTmo -/

@[simp] theorem State.setArgTmo_cfg (s : State) (v : Nat) : (s.setArgTmo v).cfg = s.cfg := rfl
@[simp] theorem State.setArgTmo_cw (s : State) (v : Nat) : (s.setArgTmo v).cw = s.cw := rfl
@[simp] theorem State.setArgTmo_argData (s : State) (v : Nat) : (s.setArgTmo v).argData = s.argData := rfl
@[simp] theorem State.setArgTmo_argTmo (s : State) (v : Nat) : (s.setArgTmo v).argTmo = v := rfl
@[simp] theorem State.setArgTmo_go (s : State) (v : Nat) : (s.setArgTmo v).go = s.go := rfl
@[simp] theorem State.setArgTmo_rst (s : State) (v : Nat) : (s.setArgTmo v).rst = s.rst := rfl
@[simp] theorem State.setArgTmo_status (s : State) (v : Nat) : (s.setArgTmo v).status = s.status := rfl
@[simp] theorem State.setArgTmo_rf (s : State) (v : Nat) : (s.setArgTmo v).rf = s.rf := rfl
@[simp] theorem State.setArgTmo_ru (s : State) (v : Nat) : (s.setArgTmo v).ru = s.ru := rfl
@[simp] theorem State.setArgTmo_r32 (s : State) (v : Nat) : (s.setArgTmo v).r32 = s.r32 := rfl
@[simp] theorem State.setArgTmo_r16 (s : State) (v : Nat) : (s.setArgTmo v).r16 = s.r16 := rfl
@[simp] theorem State.setArgTmo_rvMajor (s : State) (v : Nat) : (s.setArgTmo v).rvMajor = s.rvMajor := rfl
@[simp] theorem State.setArgTmo_rvMinor (s : State) (v : Nat) : (s.setArgTmo v).rvMinor = s.rvMinor := rfl
@[simp] theorem State.setArgTmo_rs (s : State) (v : Nat) : (s.setArgTmo v).rs = s.rs := rfl
@[simp] theorem State.setArgTmo_rsLen (s : State) (v : Nat) : (s.setArgTmo v).rsLen = s.rsLen := rfl
@[simp] theorem State.setArgTmo_crcB0 (s : State) (v : Nat) : (s.setArgTmo v).crcB0 = s.crcB0 := rfl
@[simp] theorem State.setArgTmo_crcB1 (s : State) (v : Nat) : (s.setArgTmo v).crcB1 = s.crcB1 := rfl
@[simp] theorem State.setArgTmo_phase (s : State) (v : Nat) : (s.setArgTmo v).phase = s.phase := rfl
@[simp] theorem State.setArgTmo_widx (s : State) (v : Nat) : (s.setArgTmo v).widx = s.widx := rfl
@[simp] theorem State.setArgTmo_bidx (s : State) (v : Nat) : (s.setArgTmo v).bidx = s.bidx := rfl
@[simp] theorem State.setArgTmo_txbuf (s : State) (v : Nat) : (s.setArgTmo v).txbuf = s.txbuf := rfl
@[simp] theorem State.setArgTmo_txlen (s : State) (v : Nat) : (s.setArgTmo v).txlen = s.txlen := rfl
@[simp] theorem State.setArgTmo_rxbuf (s : State) (v : Nat) : (s.setArgTmo v).rxbuf = s.rxbuf := rfl
@[simp] theorem State.setArgTmo_rxlen (s : State) (v : Nat) : (s.setArgTmo v).rxlen = s.rxlen := rfl
@[simp] theorem State.setArgTmo_acc (s : State) (v : Nat) : (s.setArgTmo v).acc = s.acc := rfl
@[simp] theorem State.setArgTmo_samp (s : State) (v : Nat) : (s.setArgTmo v).samp = s.samp := rfl
@[simp] theorem State.setArgTmo_plan (s : State) (v : Nat) : (s.setArgTmo v).plan = s.plan := rfl
@[simp] theorem State.setArgTmo_env (s : State) (v : Nat) : (s.setArgTmo v).env = s.env := rfl
@[simp] theorem State.setArgTmo_calls (s : State) (v : Nat) : (s.setArgTmo v).calls = s.calls := rfl
@[simp] theorem State.setArgTmo_rdata (s : State) (v : Nat) : (s.setArgTmo v).rdata = s.rdata := rfl

/-! ### State.setGo -/

@[simp] theorem State.setGo_cfg (s : State) (v : Bool) : (s.setGo v).cfg = s.cfg := rfl
@[simp] theorem State.setGo_cw (s : State) (v : Bool) : (s.setGo v).cw = s.cw := rfl
@[simp] theorem State.setGo_argData (s : State) (v : Bool) : (s.setGo v).argData = s.argData := rfl
@[simp] theorem State.setGo_argTmo (s : State) (v : Bool) : (s.setGo v).argTmo = s.argTmo := rfl
@[simp] theorem State.setGo_go (s : State) (v : Bool) : (s.setGo v).go = v := rfl
@[simp] theorem State.setGo_rst (s : State) (v : Bool) : (s.setGo v).rst = s.rst := rfl
@[simp] theorem State.setGo_status (s : State) (v : Bool) : (s.setGo v).status = s.status := rfl
@[simp] theorem State.setGo_rf (s : State) (v : Bool) : (s.setGo v).rf = s.rf := rfl
@[simp] theorem State.setGo_ru (s : State) (v : Bool) : (s.setGo v).ru = s.ru := rfl
@[simp] theorem State.setGo_r32 (s : State) (v : Bool) : (s.setGo v).r32 = s.r32 := rfl
@[simp] theorem State.setGo_r16 (s : State) (v : Bool) : (s.setGo v).r16 = s.r16 := rfl
@[simp] theorem State.setGo_rvMajor (s : State) (v : Bool) : (s.setGo v).rvMajor = s.rvMajor := rfl
@[simp] theorem State.setGo_rvMinor (s : State) (v : Bool) : (s.setGo v).rvMinor = s.rvMinor := rfl
@[simp] theorem State.setGo_rs (s : State) (v : Bool) : (s.setGo v).rs = s.rs := rfl
@[simp] theorem State.setGo_rsLen (s : State) (v : Bool) : (s.setGo v).rsLen = s.rsLen := rfl
@[simp] theorem State.setGo_crcB0 (s : State) (v : Bool) : (s.setGo v).crcB0 = s.crcB0 := rfl
@[simp] theorem State.setGo_crcB1 (s : State) (v : Bool) : (s.setGo v).crcB1 = s.crcB1 := rfl
@[simp] theorem State.setGo_phase (s : State) (v : Bool) : (s.setGo v).phase = s.phase := rfl
@[simp] theorem State.setGo_widx (s : State) (v : Bool) : (s.setGo v).widx = s.widx := rfl
@[simp] theorem State.setGo_bidx (s : State) (v : Bool) : (s.setGo v).bidx = s.bidx := rfl
@[simp] theorem State.setGo_txbuf (s : State) (v : Bool) : (s.setGo v).txbuf = s.txbuf := rfl
@[simp] theorem State.setGo_txlen (s : State) (v : Bool) : (s.setGo v).txlen = s.txlen := rfl
@[simp] theorem State.setGo_rxbuf (s : State) (v : Bool) : (s.setGo v).rxbuf = s.rxbuf := rfl
@[simp] theorem State.setGo_rxlen (s : State) (v : Bool) : (s.setGo v).rxlen = s.rxlen := rfl
@[simp] theorem State.setGo_acc (s : State) (v : Bool) : (s.setGo v).acc = s.acc := rfl
@[simp] theorem State.setGo_samp (s : State) (v : Bool) : (s.setGo v).samp = s.samp := rfl
@[simp] theorem State.setGo_plan (s : State) (v : Bool) : (s.setGo v).plan = s.plan := rfl
@[simp] theorem State.setGo_env (s : State) (v : Bool) : (s.setGo v).env = s.env := rfl
@[simp] theorem State.setGo_calls (s : State) (v : Bool) : (s.setGo v).calls = s.calls := rfl
@[simp] theorem State.setGo_rdata (s : State) (v : Bool) : (s.setGo v).rdata = s.rdata := rfl

/-! ### State.setCrcB0 -/

@[simp] theorem State.setCrcB0_cfg (s : State) (v : Byte) : (s.setCrcB0 v).cfg = s.cfg := rfl
@[simp] theorem State.setCrcB0_cw (s : State) (v : Byte) : (s.setCrcB0 v).cw = s.cw := rfl
@[simp] theorem State.setCrcB0_argData (s : State) (v : Byte) : (s.setCrcB0 v).argData = s.argData := rfl
@[simp] theorem State.setCrcB0_argTmo (s : State) (v : Byte) : (s.setCrcB0 v).argTmo = s.argTmo := rfl
@[simp] theorem State.setCrcB0_go (s : State) (v : Byte) : (s.setCrcB0 v).go = s.go := rfl
@[simp] theorem State.setCrcB0_rst (s : State) (v : Byte) : (s.setCrcB0 v).rst = s.rst := rfl
@[simp] theorem State.setCrcB0_status (s : State) (v : Byte) : (s.setCrcB0 v).status = s.status := rfl
@[simp] theorem State.setCrcB0_rf (s : State) (v : Byte) : (s.setCrcB0 v).rf = s.rf := rfl
@[simp] theorem State.setCrcB0_ru (s : State) (v : Byte) : (s.setCrcB0 v).ru = s.ru := rfl
@[simp] theorem State.setCrcB0_r32 (s : State) (v : Byte) : (s.setCrcB0 v).r32 = s.r32 := rfl
@[simp] theorem State.setCrcB0_r16 (s : State) (v : Byte) : (s.setCrcB0 v).r16 = s.r16 := rfl
@[simp] theorem State.setCrcB0_rvMajor (s : State) (v : Byte) : (s.setCrcB0 v).rvMajor = s.rvMajor := rfl
@[simp] theorem State.setCrcB0_rvMinor (s : State) (v : Byte) : (s.setCrcB0 v).rvMinor = s.rvMinor := rfl
@[simp] theorem State.setCrcB0_rs (s : State) (v : Byte) : (s.setCrcB0 v).rs = s.rs := rfl
@[simp] theorem State.setCrcB0_rsLen (s : State) (v : Byte) : (s.setCrcB0 v).rsLen = s.rsLen := rfl
@[simp] theorem State.setCrcB0_crcB0 (s : State) (v : Byte) : (s.setCrcB0 v).crcB0 = v := rfl
@[simp] theorem State.setCrcB0_crcB1 (s : State) (v : Byte) : (s.setCrcB0 v).crcB1 = s.crcB1 := rfl
@[simp] theorem State.setCrcB0_phase (s : State) (v : Byte) : (s.setCrcB0 v).phase = s.phase := rfl
@[simp] theorem State.setCrcB0_widx (s : State) (v : Byte) : (s.setCrcB0 v).widx = s.widx := rfl
@[simp] theorem State.setCrcB0_bidx (s : State) (v : Byte) : (s.setCrcB0 v).bidx = s.bidx := rfl
@[simp] theorem State.setCrcB0_txbuf (s : State) (v : Byte) : (s.setCrcB0 v).txbuf = s.txbuf := rfl
@[simp] theorem State.setCrcB0_txlen (s : State) (v : Byte) : (s.setCrcB0 v).txlen = s.txlen := rfl
@[simp] theorem State.setCrcB0_rxbuf (s : State) (v : Byte) : (s.setCrcB0 v).rxbuf = s.rxbuf := rfl
@[simp] theorem State.setCrcB0_rxlen (s : State) (v : Byte) : (s.setCrcB0 v).rxlen = s.rxlen := rfl
@[simp] theorem State.setCrcB0_acc (s : State) (v : Byte) : (s.setCrcB0 v).acc = s.acc := rfl
@[simp] theorem State.setCrcB0_samp (s : State) (v : Byte) : (s.setCrcB0 v).samp = s.samp := rfl
@[simp] theorem State.setCrcB0_plan (s : State) (v : Byte) : (s.setCrcB0 v).plan = s.plan := rfl
@[simp] theorem State.setCrcB0_env (s : State) (v : Byte) : (s.setCrcB0 v).env = s.env := rfl
@[simp] theorem State.setCrcB0_calls (s : State) (v : Byte) : (s.setCrcB0 v).calls = s.calls := rfl
@[simp] theorem State.setCrcB0_rdata (s : State) (v : Byte) : (s.setCrcB0 v).rdata = s.rdata := rfl

/-! ### State.setCrcB1 -/

@[simp] theorem State.setCrcB1_cfg (s : State) (v : Byte) : (s.setCrcB1 v).cfg = s.cfg := rfl
@[simp] theorem State.setCrcB1_cw (s : State) (v : Byte) : (s.setCrcB1 v).cw = s.cw := rfl
@[simp] theorem State.setCrcB1_argData (s : State) (v : Byte) : (s.setCrcB1 v).argData = s.argData := rfl
@[simp] theorem State.setCrcB1_argTmo (s : State) (v : Byte) : (s.setCrcB1 v).argTmo = s.argTmo := rfl
@[simp] theorem State.setCrcB1_go (s : State) (v : Byte) : (s.setCrcB1 v).go = s.go := rfl
@[simp] theorem State.setCrcB1_rst (s : State) (v : Byte) : (s.setCrcB1 v).rst = s.rst := rfl
@[simp] theorem State.setCrcB1_status (s : State) (v : Byte) : (s.setCrcB1 v).status = s.status := rfl
@[simp] theorem State.setCrcB1_rf (s : State) (v : Byte) : (s.setCrcB1 v).rf = s.rf := rfl
@[simp] theorem State.setCrcB1_ru (s : State) (v : Byte) : (s.setCrcB1 v).ru = s.ru := rfl
@[simp] theorem State.setCrcB1_r32 (s : State) (v : Byte) : (s.setCrcB1 v).r32 = s.r32 := rfl
@[simp] theorem State.setCrcB1_r16 (s : State) (v : Byte) : (s.setCrcB1 v).r16 = s.r16 := rfl
@[simp] theorem State.setCrcB1_rvMajor (s : State) (v : Byte) : (s.setCrcB1 v).rvMajor = s.rvMajor := rfl
@[simp] theorem State.setCrcB1_rvMinor (s : State) (v : Byte) : (s.setCrcB1 v).rvMinor = s.rvMinor := rfl
@[simp] theorem State.setCrcB1_rs (s : State) (v : Byte) : (s.setCrcB1 v).rs = s.rs := rfl
@[simp] theorem State.setCrcB1_rsLen (s : State) (v : Byte) : (s.setCrcB1 v).rsLen = s.rsLen := rfl
@[simp] theorem State.setCrcB1_crcB0 (s : State) (v : Byte) : (s.setCrcB1 v).crcB0 = s.crcB0 := rfl
@[simp] theorem State.setCrcB1_crcB1 (s : State) (v : Byte) : (s.setCrcB1 v).crcB1 = v := rfl
@[simp] theorem State.setCrcB1_phase (s : State) (v : Byte) : (s.setCrcB1 v).phase = s.phase := rfl
@[simp] theorem State.setCrcB1_widx (s : State) (v : Byte) : (s.setCrcB1 v).widx = s.widx := rfl
@[simp] theorem State.setCrcB1_bidx (s : State) (v : Byte) : (s.setCrcB1 v).bidx = s.bidx := rfl
@[simp] theorem State.setCrcB1_txbuf (s : State) (v : Byte) : (s.setCrcB1 v).txbuf = s.txbuf := rfl
@[simp] theorem State.setCrcB1_txlen (s : State) (v : Byte) : (s.setCrcB1 v).txlen = s.txlen := rfl
@[simp] theorem State.setCrcB1_rxbuf (s : State) (v : Byte) : (s.setCrcB1 v).rxbuf = s.rxbuf := rfl
@[simp] theorem State.setCrcB1_rxlen (s : State) (v : Byte) : (s.setCrcB1 v).rxlen = s.rxlen := rfl
@[simp] theorem State.setCrcB1_acc (s : State) (v : Byte) : (s.setCrcB1 v).acc = s.acc := rfl
@[simp] theorem State.setCrcB1_samp (s : State) (v : Byte) : (s.setCrcB1 v).samp = s.samp := rfl
@[simp] theorem State.setCrcB1_plan (s : State) (v : Byte) : (s.setCrcB1 v).plan = s.plan := rfl
@[simp] theorem State.setCrcB1_env (s : State) (v : Byte) : (s.setCrcB1 v).env = s.env := rfl
@[simp] theorem State.setCrcB1_calls (s : State) (v : Byte) : (s.setCrcB1 v).calls = s.calls := rfl
@[simp] theorem State.setCrcB1_rdata (s : State) (v : Byte) : (s.setCrcB1 v).rdata = s.rdata := rfl

/-! ### State.setRdata -/

@[simp] theorem State.setRdata_cfg (s : State) (v : Nat) : (s.setRdata v).cfg = s.cfg := rfl
@[simp] theorem State.setRdata_cw (s : State) (v : Nat) : (s.setRdata v).cw = s.cw := rfl
@[simp] theorem State.setRdata_argData (s : State) (v : Nat) : (s.setRdata v).argData = s.argData := rfl
@[simp] theorem State.setRdata_argTmo (s : State) (v : Nat) : (s.setRdata v).argTmo = s.argTmo := rfl
@[simp] theorem State.setRdata_go (s : State) (v : Nat) : (s.setRdata v).go = s.go := rfl
@[simp] theorem State.setRdata_rst (s : State) (v : Nat) : (s.setRdata v).rst = s.rst := rfl
@[simp] theorem State.setRdata_status (s : State) (v : Nat) : (s.setRdata v).status = s.status := rfl
@[simp] theorem State.setRdata_rf (s : State) (v : Nat) : (s.setRdata v).rf = s.rf := rfl
@[simp] theorem State.setRdata_ru (s : State) (v : Nat) : (s.setRdata v).ru = s.ru := rfl
@[simp] theorem State.setRdata_r32 (s : State) (v : Nat) : (s.setRdata v).r32 = s.r32 := rfl
@[simp] theorem State.setRdata_r16 (s : State) (v : Nat) : (s.setRdata v).r16 = s.r16 := rfl
@[simp] theorem State.setRdata_rvMajor (s : State) (v : Nat) : (s.setRdata v).rvMajor = s.rvMajor := rfl
@[simp] theorem State.setRdata_rvMinor (s : State) (v : Nat) : (s.setRdata v).rvMinor = s.rvMinor := rfl
@[simp] theorem State.setRdata_rs (s : State) (v : Nat) : (s.setRdata v).rs = s.rs := rfl
@[simp] theorem State.setRdata_rsLen (s : State) (v : Nat) : (s.setRdata v).rsLen = s.rsLen := rfl
@[simp] theorem State.setRdata_crcB0 (s : State) (v : Nat) : (s.setRdata v).crcB0 = s.crcB0 := rfl
@[simp] theorem State.setRdata_crcB1 (s : State) (v : Nat) : (s.setRdata v).crcB1 = s.crcB1 := rfl
@[simp] theorem State.setRdata_phase (s : State) (v : Nat) : (s.setRdata v).phase = s.phase := rfl
@[simp] theorem State.setRdata_widx (s : State) (v : Nat) : (s.setRdata v).widx = s.widx := rfl
@[simp] theorem State.setRdata_bidx (s : State) (v : Nat) : (s.setRdata v).bidx = s.bidx := rfl
@[simp] theorem State.setRdata_txbuf (s : State) (v : Nat) : (s.setRdata v).txbuf = s.txbuf := rfl
@[simp] theorem State.setRdata_txlen (s : State) (v : Nat) : (s.setRdata v).txlen = s.txlen := rfl
@[simp] theorem State.setRdata_rxbuf (s : State) (v : Nat) : (s.setRdata v).rxbuf = s.rxbuf := rfl
@[simp] theorem State.setRdata_rxlen (s : State) (v : Nat) : (s.setRdata v).rxlen = s.rxlen := rfl
@[simp] theorem State.setRdata_acc (s : State) (v : Nat) : (s.setRdata v).acc = s.acc := rfl
@[simp] theorem State.setRdata_samp (s : State) (v : Nat) : (s.setRdata v).samp = s.samp := rfl
@[simp] theorem State.setRdata_plan (s : State) (v : Nat) : (s.setRdata v).plan = s.plan := rfl
@[simp] theorem State.setRdata_env (s : State) (v : Nat) : (s.setRdata v).env = s.env := rfl
@[simp] theorem State.setRdata_calls (s : State) (v : Nat) : (s.setRdata v).calls = s.calls := rfl
@[simp] theorem State.setRdata_rdata (s : State) (v : Nat) : (s.setRdata v).rdata = v := rfl

/-! ### State.setRst -/

@[simp] theorem State.setRst_cfg (s : State) (v : Bool) : (s.setRst v).cfg = s.cfg := rfl
@[simp] theorem State.setRst_cw (s : State) (v : Bool) : (s.setRst v).cw = s.cw := rfl
@[simp] theorem State.setRst_argData (s : State) (v : Bool) : (s.setRst v).argData = s.argData := rfl
@[simp] theorem State.setRst_argTmo (s : State) (v : Bool) : (s.setRst v).argTmo = s.argTmo := rfl
@[simp] theorem State.setRst_go (s : State) (v : Bool) : (s.setRst v).go = s.go := rfl
@[simp] theorem State.setRst_rst (s : State) (v : Bool) : (s.setRst v).rst = v := rfl
@[simp] theorem State.setRst_status (s : State) (v : Bool) : (s.setRst v).status = s.status := rfl
@[simp] theorem State.setRst_rf (s : State) (v : Bool) : (s.setRst v).rf = s.rf := rfl
@[simp] theorem State.setRst_ru (s : State) (v : Bool) : (s.setRst v).ru = s.ru := rfl
@[simp] theorem State.setRst_r32 (s : State) (v : Bool) : (s.setRst v).r32 = s.r32 := rfl
@[simp] theorem State.setRst_r16 (s : State) (v : Bool) : (s.setRst v).r16 = s.r16 := rfl
@[simp] theorem State.setRst_rvMajor (s : State) (v : Bool) : (s.setRst v).rvMajor = s.rvMajor := rfl
@[simp] theorem State.setRst_rvMinor (s : State) (v : Bool) : (s.setRst v).rvMinor = s.rvMinor := rfl
@[simp] theorem State.setRst_rs (s : State) (v : Bool) : (s.setRst v).rs = s.rs := rfl
@[simp] theorem State.setRst_rsLen (s : State) (v : Bool) : (s.setRst v).rsLen = s.rsLen := rfl
@[simp] theorem State.setRst_crcB0 (s : State) (v : Bool) : (s.setRst v).crcB0 = s.crcB0 := rfl
@[simp] theorem State.setRst_crcB1 (s : State) (v : Bool) : (s.setRst v).crcB1 = s.crcB1 := rfl
@[simp] theorem State.setRst_phase (s : State) (v : Bool) : (s.setRst v).phase = s.phase := rfl
@[simp] theorem State.setRst_widx (s : State) (v : Bool) : (s.setRst v).widx = s.widx := rfl
@[simp] theorem State.setRst_bidx (s : State) (v : Bool) : (s.setRst v).bidx = s.bidx := rfl
@[simp] theorem State.setRst_txbuf (s : State) (v : Bool) : (s.setRst v).txbuf = s.txbuf := rfl
@[simp] theorem State.setRst_txlen (s : State) (v : Bool) : (s.setRst v).txlen = s.txlen := rfl
@[simp] theorem State.setRst_rxbuf (s : State) (v : Bool) : (s.setRst v).rxbuf = s.rxbuf := rfl
@[simp] theorem State.setRst_rxlen (s : State) (v : Bool) : (s.setRst v).rxlen = s.rxlen := rfl
@[simp] theorem State.setRst_acc (s : State) (v : Bool) : (s.setRst v).acc = s.acc := rfl
@[simp] theorem State.setRst_samp (s : State) (v : Bool) : (s.setRst v).samp = s.samp := rfl
@[simp] theorem State.setRst_plan (s : State) (v : Bool) : (s.setRst v).plan = s.plan := rfl
@[simp] theorem State.setRst_env (s : State) (v : Bool) : (s.setRst v).env = s.env := rfl
@[simp] theorem State.setRst_calls (s : State) (v : Bool) : (s.setRst v).calls = s.calls := rfl
@[simp] theorem State.setRst_rdata (s : State) (v : Bool) : (s.setRst v).rdata = s.rdata := rfl

/-! ### State.accept -/

@[simp] theorem State.accept_cfg (s : State) : (s.accept).cfg = s.cfg := rfl
@[simp] theorem State.accept_cw (s : State) : (s.accept).cw = s.cw := rfl
@[simp] theorem State.accept_argData (s : State) : (s.accept).argData = s.argData := rfl
@[simp] theorem State.accept_argTmo (s : State) : (s.accept).argTmo = s.argTmo := rfl
@[simp] theorem State.accept_go (s : State) : (s.accept).go = false := rfl
@[simp] theorem State.accept_rst (s : State) : (s.accept).rst = s.rst := rfl
@[simp] theorem State.accept_status (s : State) : (s.accept).status = Status.atGo := rfl
@[simp] theorem State.accept_rf (s : State) : (s.accept).rf = s.rf := rfl
@[simp] theorem State.accept_ru (s : State) : (s.accept).ru = s.ru := rfl
@[simp] theorem State.accept_r32 (s : State) : (s.accept).r32 = s.r32 := rfl
@[simp] theorem State.accept_r16 (s : State) : (s.accept).r16 = s.r16 := rfl
@[simp] theorem State.accept_rvMajor (s : State) : (s.accept).rvMajor = s.rvMajor := rfl
@[simp] theorem State.accept_rvMinor (s : State) : (s.accept).rvMinor = s.rvMinor := rfl
@[simp] theorem State.accept_rs (s : State) : (s.accept).rs = s.rs := rfl
@[simp] theorem State.accept_rsLen (s : State) : (s.accept).rsLen = s.rsLen := rfl
@[simp] theorem State.accept_crcB0 (s : State) : (s.accept).crcB0 = s.crcB0 := rfl
@[simp] theorem State.accept_crcB1 (s : State) : (s.accept).crcB1 = s.crcB1 := rfl
@[simp] theorem State.accept_phase (s : State) : (s.accept).phase = .argchk := rfl
@[simp] theorem State.accept_widx (s : State) : (s.accept).widx = s.widx := rfl
@[simp] theorem State.accept_bidx (s : State) : (s.accept).bidx = s.bidx := rfl
@[simp] theorem State.accept_txbuf (s : State) : (s.accept).txbuf = s.txbuf := rfl
@[simp] theorem State.accept_txlen (s : State) : (s.accept).txlen = s.txlen := rfl
@[simp] theorem State.accept_rxbuf (s : State) : (s.accept).rxbuf = s.rxbuf := rfl
@[simp] theorem State.accept_rxlen (s : State) : (s.accept).rxlen = s.rxlen := rfl
@[simp] theorem State.accept_acc (s : State) : (s.accept).acc = s.acc := rfl
@[simp] theorem State.accept_samp (s : State) : (s.accept).samp = { cw := s.cw, argData := s.argData, argTmo := s.argTmo } := rfl
@[simp] theorem State.accept_plan (s : State) : (s.accept).plan = s.plan := rfl
@[simp] theorem State.accept_env (s : State) : (s.accept).env = s.env := rfl
@[simp] theorem State.accept_calls (s : State) : (s.accept).calls = s.calls := rfl
@[simp] theorem State.accept_rdata (s : State) : (s.accept).rdata = s.rdata := rfl

/-! ### State.complete -/

@[simp] theorem State.complete_cfg (s : State) (st : Status) : (s.complete st).cfg = s.cfg := rfl
@[simp] theorem State.complete_cw (s : State) (st : Status) : (s.complete st).cw = s.cw := rfl
@[simp] theorem State.complete_argData (s : State) (st : Status) : (s.complete st).argData = s.argData := rfl
@[simp] theorem State.complete_argTmo (s : State) (st : Status) : (s.complete st).argTmo = s.argTmo := rfl
@[simp] theorem State.complete_go (s : State) (st : Status) : (s.complete st).go = s.go := rfl
@[simp] theorem State.complete_rst (s : State) (st : Status) : (s.complete st).rst = s.rst := rfl
@[simp] theorem State.complete_status (s : State) (st : Status) : (s.complete st).status = st := rfl
@[simp] theorem State.complete_rf (s : State) (st : Status) : (s.complete st).rf = s.rf := rfl
@[simp] theorem State.complete_ru (s : State) (st : Status) : (s.complete st).ru = s.ru := rfl
@[simp] theorem State.complete_r32 (s : State) (st : Status) : (s.complete st).r32 = s.r32 := rfl
@[simp] theorem State.complete_r16 (s : State) (st : Status) : (s.complete st).r16 = s.r16 := rfl
@[simp] theorem State.complete_rvMajor (s : State) (st : Status) : (s.complete st).rvMajor = s.rvMajor := rfl
@[simp] theorem State.complete_rvMinor (s : State) (st : Status) : (s.complete st).rvMinor = s.rvMinor := rfl
@[simp] theorem State.complete_rs (s : State) (st : Status) : (s.complete st).rs = s.rs := rfl
@[simp] theorem State.complete_rsLen (s : State) (st : Status) : (s.complete st).rsLen = s.rsLen := rfl
@[simp] theorem State.complete_crcB0 (s : State) (st : Status) : (s.complete st).crcB0 = s.crcB0 := rfl
@[simp] theorem State.complete_crcB1 (s : State) (st : Status) : (s.complete st).crcB1 = s.crcB1 := rfl
@[simp] theorem State.complete_phase (s : State) (st : Status) : (s.complete st).phase = .idle := rfl
@[simp] theorem State.complete_widx (s : State) (st : Status) : (s.complete st).widx = s.widx := rfl
@[simp] theorem State.complete_bidx (s : State) (st : Status) : (s.complete st).bidx = s.bidx := rfl
@[simp] theorem State.complete_txbuf (s : State) (st : Status) : (s.complete st).txbuf = s.txbuf := rfl
@[simp] theorem State.complete_txlen (s : State) (st : Status) : (s.complete st).txlen = s.txlen := rfl
@[simp] theorem State.complete_rxbuf (s : State) (st : Status) : (s.complete st).rxbuf = s.rxbuf := rfl
@[simp] theorem State.complete_rxlen (s : State) (st : Status) : (s.complete st).rxlen = s.rxlen := rfl
@[simp] theorem State.complete_acc (s : State) (st : Status) : (s.complete st).acc = s.acc := rfl
@[simp] theorem State.complete_samp (s : State) (st : Status) : (s.complete st).samp = s.samp := rfl
@[simp] theorem State.complete_plan (s : State) (st : Status) : (s.complete st).plan = s.plan := rfl
@[simp] theorem State.complete_env (s : State) (st : Status) : (s.complete st).env = s.env := rfl
@[simp] theorem State.complete_calls (s : State) (st : Status) : (s.complete st).calls = s.calls := rfl
@[simp] theorem State.complete_rdata (s : State) (st : Status) : (s.complete st).rdata = s.rdata := rfl

/-! ### State.completeOk -/

@[simp] theorem State.completeOk_cfg (s : State) (kind : ResKind) : (s.completeOk kind).cfg = s.cfg := rfl
@[simp] theorem State.completeOk_cw (s : State) (kind : ResKind) : (s.completeOk kind).cw = s.cw := rfl
@[simp] theorem State.completeOk_argData (s : State) (kind : ResKind) : (s.completeOk kind).argData = s.argData := rfl
@[simp] theorem State.completeOk_argTmo (s : State) (kind : ResKind) : (s.completeOk kind).argTmo = s.argTmo := rfl
@[simp] theorem State.completeOk_go (s : State) (kind : ResKind) : (s.completeOk kind).go = s.go := rfl
@[simp] theorem State.completeOk_rst (s : State) (kind : ResKind) : (s.completeOk kind).rst = s.rst := rfl
@[simp] theorem State.completeOk_status (s : State) (kind : ResKind) : (s.completeOk kind).status = Status.success kind := rfl
@[simp] theorem State.completeOk_rf (s : State) (kind : ResKind) : (s.completeOk kind).rf = s.rf := rfl
@[simp] theorem State.completeOk_ru (s : State) (kind : ResKind) : (s.completeOk kind).ru = s.ru := rfl
@[simp] theorem State.completeOk_r32 (s : State) (kind : ResKind) : (s.completeOk kind).r32 = s.r32 := rfl
@[simp] theorem State.completeOk_r16 (s : State) (kind : ResKind) : (s.completeOk kind).r16 = s.r16 := rfl
@[simp] theorem State.completeOk_rvMajor (s : State) (kind : ResKind) : (s.completeOk kind).rvMajor = s.rvMajor := rfl
@[simp] theorem State.completeOk_rvMinor (s : State) (kind : ResKind) : (s.completeOk kind).rvMinor = s.rvMinor := rfl
@[simp] theorem State.completeOk_rs (s : State) (kind : ResKind) : (s.completeOk kind).rs = s.rs := rfl
@[simp] theorem State.completeOk_rsLen (s : State) (kind : ResKind) : (s.completeOk kind).rsLen = s.rsLen := rfl
@[simp] theorem State.completeOk_crcB0 (s : State) (kind : ResKind) : (s.completeOk kind).crcB0 = s.crcB0 := rfl
@[simp] theorem State.completeOk_crcB1 (s : State) (kind : ResKind) : (s.completeOk kind).crcB1 = s.crcB1 := rfl
@[simp] theorem State.completeOk_phase (s : State) (kind : ResKind) : (s.completeOk kind).phase = .idle := rfl
@[simp] theorem State.completeOk_widx (s : State) (kind : ResKind) : (s.completeOk kind).widx = s.widx := rfl
@[simp] theorem State.completeOk_bidx (s : State) (kind : ResKind) : (s.completeOk kind).bidx = s.bidx := rfl
@[simp] theorem State.completeOk_txbuf (s : State) (kind : ResKind) : (s.completeOk kind).txbuf = s.txbuf := rfl
@[simp] theorem State.completeOk_txlen (s : State) (kind : ResKind) : (s.completeOk kind).txlen = s.txlen := rfl
@[simp] theorem State.completeOk_rxbuf (s : State) (kind : ResKind) : (s.completeOk kind).rxbuf = s.rxbuf := rfl
@[simp] theorem State.completeOk_rxlen (s : State) (kind : ResKind) : (s.completeOk kind).rxlen = s.rxlen := rfl
@[simp] theorem State.completeOk_acc (s : State) (kind : ResKind) : (s.completeOk kind).acc = s.acc := rfl
@[simp] theorem State.completeOk_samp (s : State) (kind : ResKind) : (s.completeOk kind).samp = s.samp := rfl
@[simp] theorem State.completeOk_plan (s : State) (kind : ResKind) : (s.completeOk kind).plan = s.plan := rfl
@[simp] theorem State.completeOk_env (s : State) (kind : ResKind) : (s.completeOk kind).env = s.env := rfl
@[simp] theorem State.completeOk_calls (s : State) (kind : ResKind) : (s.completeOk kind).calls = s.calls := rfl
@[simp] theorem State.completeOk_rdata (s : State) (kind : ResKind) : (s.completeOk kind).rdata = s.rdata := rfl

/-! ### State.raise -/

@[simp] theorem State.raise_cfg (s : State) (e : Raised) : (s.raise e).cfg = s.cfg := rfl
@[simp] theorem State.raise_cw (s : State) (e : Raised) : (s.raise e).cw = s.cw := rfl
@[simp] theorem State.raise_argData (s : State) (e : Raised) : (s.raise e).argData = s.argData := rfl
@[simp] theorem State.raise_argTmo (s : State) (e : Raised) : (s.raise e).argTmo = s.argTmo := rfl
@[simp] theorem State.raise_go (s : State) (e : Raised) : (s.raise e).go = s.go := rfl
@[simp] theorem State.raise_rst (s : State) (e : Raised) : (s.raise e).rst = s.rst := rfl
@[simp] theorem State.raise_status (s : State) (e : Raised) : (s.raise e).status = Status.raised e := rfl
@[simp] theorem State.raise_rf (s : State) (e : Raised) : (s.raise e).rf = s.rf := rfl
@[simp] theorem State.raise_ru (s : State) (e : Raised) : (s.raise e).ru = s.ru := rfl
@[simp] theorem State.raise_r32 (s : State) (e : Raised) : (s.raise e).r32 = s.r32 := rfl
@[simp] theorem State.raise_r16 (s : State) (e : Raised) : (s.raise e).r16 = s.r16 := rfl
@[simp] theorem State.raise_rvMajor (s : State) (e : Raised) : (s.raise e).rvMajor = s.rvMajor := rfl
@[simp] theorem State.raise_rvMinor (s : State) (e : Raised) : (s.raise e).rvMinor = s.rvMinor := rfl
@[simp] theorem State.raise_rs (s : State) (e : Raised) : (s.raise e).rs = s.rs := rfl
@[simp] theorem State.raise_rsLen (s : State) (e : Raised) : (s.raise e).rsLen = s.rsLen := rfl
@[simp] theorem State.raise_crcB0 (s : State) (e : Raised) : (s.raise e).crcB0 = s.crcB0 := rfl
@[simp] theorem State.raise_crcB1 (s : State) (e : Raised) : (s.raise e).crcB1 = s.crcB1 := rfl
@[simp] theorem State.raise_phase (s : State) (e : Raised) : (s.raise e).phase = .idle := rfl
@[simp] theorem State.raise_widx (s : State) (e : Raised) : (s.raise e).widx = s.widx := rfl
@[simp] theorem State.raise_bidx (s : State) (e : Raised) : (s.raise e).bidx = s.bidx := rfl
@[simp] theorem State.raise_txbuf (s : State) (e : Raised) : (s.raise e).txbuf = s.txbuf := rfl
@[simp] theorem State.raise_txlen (s : State) (e : Raised) : (s.raise e).txlen = s.txlen := rfl
@[simp] theorem State.raise_rxbuf (s : State) (e : Raised) : (s.raise e).rxbuf = s.rxbuf := rfl
@[simp] theorem State.raise_rxlen (s : State) (e : Raised) : (s.raise e).rxlen = s.rxlen := rfl
@[simp] theorem State.raise_acc (s : State) (e : Raised) : (s.raise e).acc = s.acc := rfl
@[simp] theorem State.raise_samp (s : State) (e : Raised) : (s.raise e).samp = s.samp := rfl
@[simp] theorem State.raise_plan (s : State) (e : Raised) : (s.raise e).plan = s.plan := rfl
@[simp] theorem State.raise_env (s : State) (e : Raised) : (s.raise e).env = s.env := rfl
@[simp] theorem State.raise_calls (s : State) (e : Raised) : (s.raise e).calls = s.calls := rfl
@[simp] theorem State.raise_rdata (s : State) (e : Raised) : (s.raise e).rdata = s.rdata := rfl

/-! ### State.build -/

@[simp] theorem State.build_cfg (s : State) (p : Plan) : (s.build p).cfg = s.cfg := rfl
@[simp] theorem State.build_cw (s : State) (p : Plan) : (s.build p).cw = s.cw := rfl
@[simp] theorem State.build_argData (s : State) (p : Plan) : (s.build p).argData = s.argData := rfl
@[simp] theorem State.build_argTmo (s : State) (p : Plan) : (s.build p).argTmo = s.argTmo := rfl
@[simp] theorem State.build_go (s : State) (p : Plan) : (s.build p).go = s.go := rfl
@[simp] theorem State.build_rst (s : State) (p : Plan) : (s.build p).rst = s.rst := rfl
@[simp] theorem State.build_status (s : State) (p : Plan) : (s.build p).status = s.status := rfl
@[simp] theorem State.build_rf (s : State) (p : Plan) : (s.build p).rf = s.rf := rfl
@[simp] theorem State.build_ru (s : State) (p : Plan) : (s.build p).ru = s.ru := rfl
@[simp] theorem State.build_r32 (s : State) (p : Plan) : (s.build p).r32 = s.r32 := rfl
@[simp] theorem State.build_r16 (s : State) (p : Plan) : (s.build p).r16 = s.r16 := rfl
@[simp] theorem State.build_rvMajor (s : State) (p : Plan) : (s.build p).rvMajor = s.rvMajor := rfl
@[simp] theorem State.build_rvMinor (s : State) (p : Plan) : (s.build p).rvMinor = s.rvMinor := rfl
@[simp] theorem State.build_rs (s : State) (p : Plan) : (s.build p).rs = s.rs := rfl
@[simp] theorem State.build_rsLen (s : State) (p : Plan) : (s.build p).rsLen = s.rsLen := rfl
@[simp] theorem State.build_crcB0 (s : State) (p : Plan) : (s.build p).crcB0 = s.crcB0 := rfl
@[simp] theorem State.build_crcB1 (s : State) (p : Plan) : (s.build p).crcB1 = s.crcB1 := rfl
@[simp] theorem State.build_phase (s : State) (p : Plan) : (s.build p).phase = .build := rfl
@[simp] theorem State.build_widx (s : State) (p : Plan) : (s.build p).widx = s.widx := rfl
@[simp] theorem State.build_bidx (s : State) (p : Plan) : (s.build p).bidx = (encPtrData p.opc p.data).length := rfl
@[simp] theorem State.build_txbuf (s : State) (p : Plan) : (s.build p).txbuf = memWrite s.txbuf 0 (encPtrData p.opc p.data) := rfl
@[simp] theorem State.build_txlen (s : State) (p : Plan) : (s.build p).txlen = (encPtrData p.opc p.data).length := rfl
@[simp] theorem State.build_rxbuf (s : State) (p : Plan) : (s.build p).rxbuf = s.rxbuf := rfl
@[simp] theorem State.build_rxlen (s : State) (p : Plan) : (s.build p).rxlen = s.rxlen := rfl
@[simp] theorem State.build_acc (s : State) (p : Plan) : (s.build p).acc = lastChecksum s.acc p.data := rfl
@[simp] theorem State.build_samp (s : State) (p : Plan) : (s.build p).samp = s.samp := rfl
@[simp] theorem State.build_plan (s : State) (p : Plan) : (s.build p).plan = p := rfl
@[simp] theorem State.build_env (s : State) (p : Plan) : (s.build p).env = s.env := rfl
@[simp] theorem State.build_calls (s : State) (p : Plan) : (s.build p).calls = s.calls := rfl
@[simp] theorem State.build_rdata (s : State) (p : Plan) : (s.build p).rdata = s.rdata := rfl

/-! ### State.issueWrite -/

@[simp] theorem State.issueWrite_cfg (s : State) : (s.issueWrite).cfg = s.cfg := rfl
@[simp] theorem State.issueWrite_cw (s : State) : (s.issueWrite).cw = s.cw := rfl
@[simp] theorem State.issueWrite_argData (s : State) : (s.issueWrite).argData = s.argData := rfl
@[simp] theorem State.issueWrite_argTmo (s : State) : (s.issueWrite).argTmo = s.argTmo := rfl
@[simp] theorem State.issueWrite_go (s : State) : (s.issueWrite).go = s.go := rfl
@[simp] theorem State.issueWrite_rst (s : State) : (s.issueWrite).rst = s.rst := rfl
@[simp] theorem State.issueWrite_status (s : State) : (s.issueWrite).status = s.status := rfl
@[simp] theorem State.issueWrite_rf (s : State) : (s.issueWrite).rf = s.rf := rfl
@[simp] theorem State.issueWrite_ru (s : State) : (s.issueWrite).ru = s.ru := rfl
@[simp] theorem State.issueWrite_r32 (s : State) : (s.issueWrite).r32 = s.r32 := rfl
@[simp] theorem State.issueWrite_r16 (s : State) : (s.issueWrite).r16 = s.r16 := rfl
@[simp] theorem State.issueWrite_rvMajor (s : State) : (s.issueWrite).rvMajor = s.rvMajor := rfl
@[simp] theorem State.issueWrite_rvMinor (s : State) : (s.issueWrite).rvMinor = s.rvMinor := rfl
@[simp] theorem State.issueWrite_rs (s : State) : (s.issueWrite).rs = s.rs := rfl
@[simp] theorem State.issueWrite_rsLen (s : State) : (s.issueWrite).rsLen = s.rsLen := rfl
@[simp] theorem State.issueWrite_crcB0 (s : State) : (s.issueWrite).crcB0 = s.crcB0 := rfl
@[simp] theorem State.issueWrite_crcB1 (s : State) : (s.issueWrite).crcB1 = s.crcB1 := rfl
@[simp] theorem State.issueWrite_phase (s : State) : (s.issueWrite).phase = .tx := rfl
@[simp] theorem State.issueWrite_widx (s : State) : (s.issueWrite).widx = s.widx := rfl
@[simp] theorem State.issueWrite_bidx (s : State) : (s.issueWrite).bidx = s.bidx := rfl
@[simp] theorem State.issueWrite_txbuf (s : State) : (s.issueWrite).txbuf = s.txbuf := rfl
@[simp] theorem State.issueWrite_txlen (s : State) : (s.issueWrite).txlen = s.txlen := rfl
@[simp] theorem State.issueWrite_rxbuf (s : State) : (s.issueWrite).rxbuf = s.rxbuf := rfl
@[simp] theorem State.issueWrite_rxlen (s : State) : (s.issueWrite).rxlen = s.rxlen := rfl
@[simp] theorem State.issueWrite_acc (s : State) : (s.issueWrite).acc = s.acc := rfl
@[simp] theorem State.issueWrite_samp (s : State) : (s.issueWrite).samp = s.samp := rfl
@[simp] theorem State.issueWrite_plan (s : State) : (s.issueWrite).plan = s.plan := rfl
@[simp] theorem State.issueWrite_env (s : State) : (s.issueWrite).env = s.env := rfl
@[simp] theorem State.issueWrite_calls (s : State) : (s.issueWrite).calls = s.calls ++ [.write s.cfg.devAddr (memRead s.txbuf 0 s.txlen) s.samp.argTmo] := rfl
@[simp] theorem State.issueWrite_rdata (s : State) : (s.issueWrite).rdata = s.rdata := rfl

/-! ### State.issueRead -/

@[simp] theorem State.issueRead_cfg (s : State) (r : RxPlan) : (s.issueRead r).cfg = s.cfg := rfl
@[simp] theorem State.issueRead_cw (s : State) (r : RxPlan) : (s.issueRead r).cw = s.cw := rfl
@[simp] theorem State.issueRead_argData (s : State) (r : RxPlan) : (s.issueRead r).argData = s.argData := rfl
@[simp] theorem State.issueRead_argTmo (s : State) (r : RxPlan) : (s.issueRead r).argTmo = s.argTmo := rfl
@[simp] theorem State.issueRead_go (s : State) (r : RxPlan) : (s.issueRead r).go = s.go := rfl
@[simp] theorem State.issueRead_rst (s : State) (r : RxPlan) : (s.issueRead r).rst = s.rst := rfl
@[simp] theorem State.issueRead_status (s : State) (r : RxPlan) : (s.issueRead r).status = s.status := rfl
@[simp] theorem State.issueRead_rf (s : State) (r : RxPlan) : (s.issueRead r).rf = s.rf := rfl
@[simp] theorem State.issueRead_ru (s : State) (r : RxPlan) : (s.issueRead r).ru = s.ru := rfl
@[simp] theorem State.issueRead_r32 (s : State) (r : RxPlan) : (s.issueRead r).r32 = s.r32 := rfl
@[simp] theorem State.issueRead_r16 (s : State) (r : RxPlan) : (s.issueRead r).r16 = s.r16 := rfl
@[simp] theorem State.issueRead_rvMajor (s : State) (r : RxPlan) : (s.issueRead r).rvMajor = s.rvMajor := rfl
@[simp] theorem State.issueRead_rvMinor (s : State) (r : RxPlan) : (s.issueRead r).rvMinor = s.rvMinor := rfl
@[simp] theorem State.issueRead_rs (s : State) (r : RxPlan) : (s.issueRead r).rs = s.rs := rfl
@[simp] theorem State.issueRead_rsLen (s : State) (r : RxPlan) : (s.issueRead r).rsLen = s.rsLen := rfl
@[simp] theorem State.issueRead_crcB0 (s : State) (r : RxPlan) : (s.issueRead r).crcB0 = s.crcB0 := rfl
@[simp] theorem State.issueRead_crcB1 (s : State) (r : RxPlan) : (s.issueRead r).crcB1 = s.crcB1 := rfl
@[simp] theorem State.issueRead_phase (s : State) (r : RxPlan) : (s.issueRead r).phase = .rx := rfl
@[simp] theorem State.issueRead_widx (s : State) (r : RxPlan) : (s.issueRead r).widx = s.widx := rfl
@[simp] theorem State.issueRead_bidx (s : State) (r : RxPlan) : (s.issueRead r).bidx = s.bidx := rfl
@[simp] theorem State.issueRead_txbuf (s : State) (r : RxPlan) : (s.issueRead r).txbuf = s.txbuf := rfl
@[simp] theorem State.issueRead_txlen (s : State) (r : RxPlan) : (s.issueRead r).txlen = s.txlen := rfl
@[simp] theorem State.issueRead_rxbuf (s : State) (r : RxPlan) : (s.issueRead r).rxbuf = s.rxbuf := rfl
@[simp] theorem State.issueRead_rxlen (s : State) (r : RxPlan) : (s.issueRead r).rxlen = s.rxlen := rfl
@[simp] theorem State.issueRead_acc (s : State) (r : RxPlan) : (s.issueRead r).acc = s.acc := rfl
@[simp] theorem State.issueRead_samp (s : State) (r : RxPlan) : (s.issueRead r).samp = s.samp := rfl
@[simp] theorem State.issueRead_plan (s : State) (r : RxPlan) : (s.issueRead r).plan = s.plan := rfl
@[simp] theorem State.issueRead_env (s : State) (r : RxPlan) : (s.issueRead r).env = s.env := rfl
@[simp] theorem State.issueRead_calls (s : State) (r : RxPlan) : (s.issueRead r).calls = s.calls ++ [.read s.cfg.devAddr r.nbytes s.samp.argTmo] := rfl
@[simp] theorem State.issueRead_rdata (s : State) (r : RxPlan) : (s.issueRead r).rdata = s.rdata := rfl

/-! ### State.receive -/

@[simp] theorem State.receive_cfg (s : State) (bs : List Byte) : (s.receive bs).cfg = s.cfg := rfl
@[simp] theorem State.receive_cw (s : State) (bs : List Byte) : (s.receive bs).cw = s.cw := rfl
@[simp] theorem State.receive_argData (s : State) (bs : List Byte) : (s.receive bs).argData = s.argData := rfl
@[simp] theorem State.receive_argTmo (s : State) (bs : List Byte) : (s.receive bs).argTmo = s.argTmo := rfl
@[simp] theorem State.receive_go (s : State) (bs : List Byte) : (s.receive bs).go = s.go := rfl
@[simp] theorem State.receive_rst (s : State) (bs : List Byte) : (s.receive bs).rst = s.rst := rfl
@[simp] theorem State.receive_status (s : State) (bs : List Byte) : (s.receive bs).status = s.status := rfl
@[simp] theorem State.receive_rf (s : State) (bs : List Byte) : (s.receive bs).rf = s.rf := rfl
@[simp] theorem State.receive_ru (s : State) (bs : List Byte) : (s.receive bs).ru = s.ru := rfl
@[simp] theorem State.receive_r32 (s : State) (bs : List Byte) : (s.receive bs).r32 = s.r32 := rfl
@[simp] theorem State.receive_r16 (s : State) (bs : List Byte) : (s.receive bs).r16 = s.r16 := rfl
@[simp] theorem State.receive_rvMajor (s : State) (bs : List Byte) : (s.receive bs).rvMajor = s.rvMajor := rfl
@[simp] theorem State.receive_rvMinor (s : State) (bs : List Byte) : (s.receive bs).rvMinor = s.rvMinor := rfl
@[simp] theorem State.receive_rs (s : State) (bs : List Byte) : (s.receive bs).rs = s.rs := rfl
@[simp] theorem State.receive_rsLen (s : State) (bs : List Byte) : (s.receive bs).rsLen = s.rsLen := rfl
@[simp] theorem State.receive_crcB0 (s : State) (bs : List Byte) : (s.receive bs).crcB0 = s.crcB0 := rfl
@[simp] theorem State.receive_crcB1 (s : State) (bs : List Byte) : (s.receive bs).crcB1 = s.crcB1 := rfl
@[simp] theorem State.receive_phase (s : State) (bs : List Byte) : (s.receive bs).phase = .validate := rfl
@[simp] theorem State.receive_widx (s : State) (bs : List Byte) : (s.receive bs).widx = s.widx := rfl
@[simp] theorem State.receive_bidx (s : State) (bs : List Byte) : (s.receive bs).bidx = s.bidx := rfl
@[simp] theorem State.receive_txbuf (s : State) (bs : List Byte) : (s.receive bs).txbuf = s.txbuf := rfl
@[simp] theorem State.receive_txlen (s : State) (bs : List Byte) : (s.receive bs).txlen = s.txlen := rfl
@[simp] theorem State.receive_rxbuf (s : State) (bs : List Byte) : (s.receive bs).rxbuf = memWrite s.rxbuf 0 bs := rfl
@[simp] theorem State.receive_rxlen (s : State) (bs : List Byte) : (s.receive bs).rxlen = bs.length := rfl
@[simp] theorem State.receive_acc (s : State) (bs : List Byte) : (s.receive bs).acc = s.acc := rfl
@[simp] theorem State.receive_samp (s : State) (bs : List Byte) : (s.receive bs).samp = s.samp := rfl
@[simp] theorem State.receive_plan (s : State) (bs : List Byte) : (s.receive bs).plan = s.plan := rfl
@[simp] theorem State.receive_env (s : State) (bs : List Byte) : (s.receive bs).env = s.env := rfl
@[simp] theorem State.receive_calls (s : State) (bs : List Byte) : (s.receive bs).calls = s.calls := rfl
@[simp] theorem State.receive_rdata (s : State) (bs : List Byte) : (s.receive bs).rdata = s.rdata := rfl

/-! ### State.validate -/

@[simp] theorem State.validate_cfg (s : State) (r : RxPlan) : (s.validate r).cfg = s.cfg := rfl
@[simp] theorem State.validate_cw (s : State) (r : RxPlan) : (s.validate r).cw = s.cw := rfl
@[simp] theorem State.validate_argData (s : State) (r : RxPlan) : (s.validate r).argData = s.argData := rfl
@[simp] theorem State.validate_argTmo (s : State) (r : RxPlan) : (s.validate r).argTmo = s.argTmo := rfl
@[simp] theorem State.validate_go (s : State) (r : RxPlan) : (s.validate r).go = s.go := rfl
@[simp] theorem State.validate_rst (s : State) (r : RxPlan) : (s.validate r).rst = s.rst := rfl
@[simp] theorem State.validate_status (s : State) (r : RxPlan) : (s.validate r).status = s.status := rfl
@[simp] theorem State.validate_rf (s : State) (r : RxPlan) : (s.validate r).rf = s.rf := rfl
@[simp] theorem State.validate_ru (s : State) (r : RxPlan) : (s.validate r).ru = s.ru := rfl
@[simp] theorem State.validate_r32 (s : State) (r : RxPlan) : (s.validate r).r32 = s.r32 := rfl
@[simp] theorem State.validate_r16 (s : State) (r : RxPlan) : (s.validate r).r16 = s.r16 := rfl
@[simp] theorem State.validate_rvMajor (s : State) (r : RxPlan) : (s.validate r).rvMajor = s.rvMajor := rfl
@[simp] theorem State.validate_rvMinor (s : State) (r : RxPlan) : (s.validate r).rvMinor = s.rvMinor := rfl
@[simp] theorem State.validate_rs (s : State) (r : RxPlan) : (s.validate r).rs = s.rs := rfl
@[simp] theorem State.validate_rsLen (s : State) (r : RxPlan) : (s.validate r).rsLen = s.rsLen := rfl
@[simp] theorem State.validate_crcB0 (s : State) (r : RxPlan) : (s.validate r).crcB0 = s.crcB0 := rfl
@[simp] theorem State.validate_crcB1 (s : State) (r : RxPlan) : (s.validate r).crcB1 = s.crcB1 := rfl
@[simp] theorem State.validate_phase (s : State) (r : RxPlan) : (s.validate r).phase = .decode := rfl
@[simp] theorem State.validate_widx (s : State) (r : RxPlan) : (s.validate r).widx = checkIndex r.words (s.frameCheck r) := rfl
@[simp] theorem State.validate_bidx (s : State) (r : RxPlan) : (s.validate r).bidx = s.bidx := rfl
@[simp] theorem State.validate_txbuf (s : State) (r : RxPlan) : (s.validate r).txbuf = s.txbuf := rfl
@[simp] theorem State.validate_txlen (s : State) (r : RxPlan) : (s.validate r).txlen = s.txlen := rfl
@[simp] theorem State.validate_rxbuf (s : State) (r : RxPlan) : (s.validate r).rxbuf = s.rxbuf := rfl
@[simp] theorem State.validate_rxlen (s : State) (r : RxPlan) : (s.validate r).rxlen = s.rxlen := rfl
@[simp] theorem State.validate_acc (s : State) (r : RxPlan) : (s.validate r).acc = lastChecksum s.acc (dataView s.received (checkedWords r.words (s.frameCheck r))) := rfl
@[simp] theorem State.validate_samp (s : State) (r : RxPlan) : (s.validate r).samp = s.samp := rfl
@[simp] theorem State.validate_plan (s : State) (r : RxPlan) : (s.validate r).plan = s.plan := rfl
@[simp] theorem State.validate_env (s : State) (r : RxPlan) : (s.validate r).env = s.env := rfl
@[simp] theorem State.validate_calls (s : State) (r : RxPlan) : (s.validate r).calls = s.calls := rfl
@[simp] theorem State.validate_rdata (s : State) (r : RxPlan) : (s.validate r).rdata = s.rdata := rfl

/-! ### State.deliver: everything but the result registers and `bidx` -/

@[simp] theorem State.deliver_cfg (s : State) (r : RxPlan) : (s.deliver r).cfg = s.cfg := by
  unfold State.deliver; cases r.dec <;> rfl
@[simp] theorem State.deliver_cw (s : State) (r : RxPlan) : (s.deliver r).cw = s.cw := by
  unfold State.deliver; cases r.dec <;> rfl
@[simp] theorem State.deliver_argData (s : State) (r : RxPlan) : (s.deliver r).argData = s.argData := by
  unfold State.deliver; cases r.dec <;> rfl
@[simp] theorem State.deliver_argTmo (s : State) (r : RxPlan) : (s.deliver r).argTmo = s.argTmo := by
  unfold State.deliver; cases r.dec <;> rfl
@[simp] theorem State.deliver_go (s : State) (r : RxPlan) : (s.deliver r).go = s.go := by
  unfold State.deliver; cases r.dec <;> rfl
@[simp] theorem State.deliver_rst (s : State) (r : RxPlan) : (s.deliver r).rst = s.rst := by
  unfold State.deliver; cases r.dec <;> rfl
@[simp] theorem State.deliver_status (s : State) (r : RxPlan) : (s.deliver r).status = s.status := by
  unfold State.deliver; cases r.dec <;> rfl
@[simp] theorem State.deliver_crcB0 (s : State) (r : RxPlan) : (s.deliver r).crcB0 = s.crcB0 := by
  unfold State.deliver; cases r.dec <;> rfl
@[simp] theorem State.deliver_crcB1 (s : State) (r : RxPlan) : (s.deliver r).crcB1 = s.crcB1 := by
  unfold State.deliver; cases r.dec <;> rfl
@[simp] theorem State.deliver_phase (s : State) (r : RxPlan) : (s.deliver r).phase = s.phase := by
  unfold State.deliver; cases r.dec <;> rfl
@[simp] theorem State.deliver_widx (s : State) (r : RxPlan) : (s.deliver r).widx = s.widx := by
  unfold State.deliver; cases r.dec <;> rfl
@[simp] theorem State.deliver_txbuf (s : State) (r : RxPlan) : (s.deliver r).txbuf = s.txbuf := by
  unfold State.deliver; cases r.dec <;> rfl
@[simp] theorem State.deliver_txlen (s : State) (r : RxPlan) : (s.deliver r).txlen = s.txlen := by
  unfold State.deliver; cases r.dec <;> rfl
@[simp] theorem State.deliver_rxbuf (s : State) (r : RxPlan) : (s.deliver r).rxbuf = s.rxbuf := by
  unfold State.deliver; cases r.dec <;> rfl
@[simp] theorem State.deliver_rxlen (s : State) (r : RxPlan) : (s.deliver r).rxlen = s.rxlen := by
  unfold State.deliver; cases r.dec <;> rfl
@[simp] theorem State.deliver_acc (s : State) (r : RxPlan) : (s.deliver r).acc = s.acc := by
  unfold State.deliver; cases r.dec <;> rfl
@[simp] theorem State.deliver_samp (s : State) (r : RxPlan) : (s.deliver r).samp = s.samp := by
  unfold State.deliver; cases r.dec <;> rfl
@[simp] theorem State.deliver_plan (s : State) (r : RxPlan) : (s.deliver r).plan = s.plan := by
  unfold State.deliver; cases r.dec <;> rfl
@[simp] theorem State.deliver_env (s : State) (r : RxPlan) : (s.deliver r).env = s.env := by
  unfold State.deliver; cases r.dec <;> rfl
@[simp] theorem State.deliver_calls (s : State) (r : RxPlan) : (s.deliver r).calls = s.calls := by
  unfold State.deliver; cases r.dec <;> rfl
@[simp] theorem State.deliver_rdata (s : State) (r : RxPlan) : (s.deliver r).rdata = s.rdata := by
  unfold State.deliver; cases r.dec <;> rfl

/-! ### State.deliver: a result register is written by its own decoder and by no other (R190, R155) -/

theorem State.deliver_rf_of_dec (s : State) (r : RxPlan) (h : r.dec = .f32set) :
    (s.deliver r).rf = decF32set (dataView s.received r.words) := by simp [State.deliver, h]
theorem State.deliver_rf_ne (s : State) (r : RxPlan) (h : r.dec ≠ .f32set) : (s.deliver r).rf = s.rf := by
  unfold State.deliver; cases hd : r.dec <;> simp_all
theorem State.deliver_ru_of_dec (s : State) (r : RxPlan) (h : r.dec = .u16set) :
    (s.deliver r).ru = decU16set (dataView s.received r.words) := by simp [State.deliver, h]
theorem State.deliver_ru_ne (s : State) (r : RxPlan) (h : r.dec ≠ .u16set) : (s.deliver r).ru = s.ru := by
  unfold State.deliver; cases hd : r.dec <;> simp_all
theorem State.deliver_r32_of_dec (s : State) (r : RxPlan) (h : r.dec = .u32) :
    (s.deliver r).r32 = decU32 (dataView s.received r.words) := by simp [State.deliver, h]
theorem State.deliver_r32_ne (s : State) (r : RxPlan) (h : r.dec ≠ .u32) : (s.deliver r).r32 = s.r32 := by
  unfold State.deliver; cases hd : r.dec <;> simp_all
theorem State.deliver_r16_of_dec (s : State) (r : RxPlan) (h : r.dec = .u16) :
    (s.deliver r).r16 = decU16 (dataView s.received r.words) 0 := by simp [State.deliver, h]
theorem State.deliver_r16_ne (s : State) (r : RxPlan) (h : r.dec ≠ .u16) : (s.deliver r).r16 = s.r16 := by
  unfold State.deliver; cases hd : r.dec <;> simp_all
theorem State.deliver_rvMajor_of_dec (s : State) (r : RxPlan) (h : r.dec = .ver) :
    (s.deliver r).rvMajor = (decVer (dataView s.received r.words)).1 := by simp [State.deliver, h]
theorem State.deliver_rvMajor_ne (s : State) (r : RxPlan) (h : r.dec ≠ .ver) : (s.deliver r).rvMajor = s.rvMajor := by
  unfold State.deliver; cases hd : r.dec <;> simp_all
theorem State.deliver_rvMinor_of_dec (s : State) (r : RxPlan) (h : r.dec = .ver) :
    (s.deliver r).rvMinor = (decVer (dataView s.received r.words)).2 := by simp [State.deliver, h]
theorem State.deliver_rvMinor_ne (s : State) (r : RxPlan) (h : r.dec ≠ .ver) : (s.deliver r).rvMinor = s.rvMinor := by
  unfold State.deliver; cases hd : r.dec <;> simp_all
theorem State.deliver_rs_of_dec (s : State) (r : RxPlan) (cap : Byte) (h : r.dec = .ascii cap) :
    (s.deliver r).rs = (decAscii s.cfg.strMax (dataView s.received r.words) cap).1 := by simp [State.deliver, h]
theorem State.deliver_rs_ne (s : State) (r : RxPlan) (h : ∀ cap, r.dec ≠ .ascii cap) : (s.deliver r).rs = s.rs := by
  unfold State.deliver; cases hd : r.dec <;> simp_all
theorem State.deliver_rsLen_of_dec (s : State) (r : RxPlan) (cap : Byte) (h : r.dec = .ascii cap) :
    (s.deliver r).rsLen = BitVec.ofNat 8 (decAscii s.cfg.strMax (dataView s.received r.words) cap).2 := by simp [State.deliver, h]
theorem State.deliver_rsLen_ne (s : State) (r : RxPlan) (h : ∀ cap, r.dec ≠ .ascii cap) : (s.deliver r).rsLen = s.rsLen := by
  unfold State.deliver; cases hd : r.dec <;> simp_all
theorem State.deliver_bidx_of_dec (s : State) (r : RxPlan) (cap : Byte) (h : r.dec = .ascii cap) :
    (s.deliver r).bidx = (decAscii s.cfg.strMax (dataView s.received r.words) cap).2 := by simp [State.deliver, h]
theorem State.deliver_bidx_ne (s : State) (r : RxPlan) (h : ∀ cap, r.dec ≠ .ascii cap) : (s.deliver r).bidx = s.bidx := by
  unfold State.deliver; cases hd : r.dec <;> simp_all

end Sys2Proof.Machine
end

