-- ==== Sys2Proof/Laws/Ops.lean ====
section
/-! SUPPORT. One lemma for each shared operation that says everything it can do: the waits of `TX` and `RX`, the end of a
read, the row of a command run to rest, and the host operations. Later proofs cite these and unfold nothing. -/

namespace Sys2Proof.Machine

open Sys2Proof

/-! ### The frame sent and the frame received -/

/-- R136, R137: what is sent is the frame of the row. -/
theorem State.build_frame (s : State) (p : Plan) (hw : s.txbuf.wf = true) :
    memRead (s.build p).txbuf 0 (s.build p).txlen = encPtrData p.opc p.data := by
  simp only [State.build_txbuf, State.build_txlen]
  exact memRead_memWrite s.txbuf 0 _ hw

/-- R150: what is validated and decoded is what was received. -/
theorem State.received_receive (s : State) (bs : List Byte) (hw : s.rxbuf.wf = true) :
    (s.receive bs).received = bs := by
  simp only [State.received, State.receive_rxbuf, State.receive_rxlen]
  exact memRead_memWrite s.rxbuf 0 bs hw

theorem State.received_validate (s : State) (r : RxPlan) : (s.validate r).received = s.received := rfl

theorem State.frameCheck_receive (s : State) (r : RxPlan) (bs : List Byte) (hw : s.rxbuf.wf = true) :
    (s.receive bs).frameCheck r = validateFrame bs r.words := by
  rw [State.frameCheck, State.received_receive s bs hw]

/-! ### A read comes to its end -/

/-- R155: a read ends with its results committed, or with the first invalid Word. -/
theorem State.finishRead_cases (s : State) (r : RxPlan) (bs : List Byte) :
    ((s.receive bs).frameCheck r = .ok ∧
      s.finishRead r bs = (((s.receive bs).validate r).deliver r).completeOk r.kind) ∨
    (∃ k, (s.receive bs).frameCheck r = .checksumFailure k ∧
      s.finishRead r bs = ((s.receive bs).validate r).raise (.checksumFailure k)) := by
  unfold State.finishRead
  cases h : (s.receive bs).frameCheck r with
  | ok => exact .inl ⟨rfl, rfl⟩
  | checksumFailure k => exact .inr ⟨k, rfl, rfl⟩

/-! ### Waiting in RX -/

theorem State.awaitRead_nil (s : State) (r : RxPlan) (h : s.env = []) : s.awaitRead r = .next s := by
  simp [State.awaitRead, h]

theorem State.awaitRead_host (s : State) (r : RxPlan) (op : HostOp) (rest : List Event) (h : s.env = .host op :: rest) :
    s.awaitRead r = .next s := by simp [State.awaitRead, h]

theorem State.awaitRead_error (s : State) (r : RxPlan) (rest : List Event) (h : s.env = .answer .error :: rest) :
    s.awaitRead r = .next ((s.setEnv rest).raise (.transportFailure .read)) := by
  simp [State.awaitRead, h]

theorem State.awaitRead_bytes (s : State) (r : RxPlan) (bs : List Byte) (rest : List Event)
    (h : s.env = .answer (.bytes bs) :: rest) (hl : bs.length = r.nbytes) :
    s.awaitRead r = .next ((s.setEnv rest).finishRead r bs) := by simp [State.awaitRead, h, hl]

/-- `RX` goes on to: no answer yet, a failed read, or a finished one. -/
theorem State.awaitRead_next (s t : State) (r : RxPlan) (h : s.awaitRead r = .next t) :
    (t = s ∧ (s.env = [] ∨ ∃ op rest, s.env = .host op :: rest)) ∨
    (∃ rest, s.env = .answer .error :: rest ∧ t = (s.setEnv rest).raise (.transportFailure .read)) ∨
    (∃ bs rest, s.env = .answer (.bytes bs) :: rest ∧ bs.length = r.nbytes ∧
      t = (s.setEnv rest).finishRead r bs) := by
  unfold State.awaitRead at h
  split at h
  · split at h
    · injection h with h
      exact .inr (.inr ⟨_, _, ‹_›, ‹_›, h.symm⟩)
    · simp at h
  · injection h with h
    exact .inr (.inl ⟨_, ‹_›, h.symm⟩)
  · simp at h
  · injection h with h
    exact .inl ⟨h.symm, .inr ⟨_, _, ‹_›⟩⟩
  · injection h with h
    exact .inl ⟨h.symm, .inl ‹_›⟩

/-- `RX` is refused only on an answer outside the contract (R57, S8). -/
theorem State.awaitRead_refused (s : State) (r : RxPlan) (e : Refusal) (h : s.awaitRead r = .refused e) :
    e = .transportContract ∧ ((∃ rest, s.env = .answer .done :: rest) ∨
      ∃ bs rest, s.env = .answer (.bytes bs) :: rest ∧ bs.length ≠ r.nbytes) := by
  unfold State.awaitRead at h
  split at h
  · split at h
    · simp at h
    · injection h with h
      exact ⟨h.symm, .inr ⟨_, _, ‹_›, ‹_›⟩⟩
  · simp at h
  · injection h with h
    exact ⟨h.symm, .inl ⟨_, ‹_›⟩⟩
  · simp at h
  · simp at h

/-! ### Waiting in TX -/

theorem State.awaitWrite_nil (s : State) (h : s.env = []) : s.awaitWrite = .next s := by simp [State.awaitWrite, h]

theorem State.awaitWrite_host (s : State) (op : HostOp) (rest : List Event) (h : s.env = .host op :: rest) :
    s.awaitWrite = .next s := by simp [State.awaitWrite, h]

theorem State.awaitWrite_error (s : State) (rest : List Event) (h : s.env = .answer .error :: rest) :
    s.awaitWrite = .next ((s.setEnv rest).raise (.transportFailure .write)) := by
  simp [State.awaitWrite, h]

theorem State.awaitWrite_done (s : State) (rest : List Event) (h : s.env = .answer .done :: rest)
    (hp : s.plan.rx = none) : s.awaitWrite = .next ((s.setEnv rest).completeOk .none) := by
  simp [State.awaitWrite, h, hp]

theorem State.awaitWrite_done_read (s : State) (r : RxPlan) (rest : List Event) (h : s.env = .answer .done :: rest)
    (hp : s.plan.rx = some r) :
    s.awaitWrite = ((s.setEnv rest).issueRead r).awaitRead r := by
  simp [State.awaitWrite, h, hp]

/-- `TX` goes on to: no answer yet, a failed write, a completed write-shaped command, or the read. -/
theorem State.awaitWrite_next (s t : State) (h : s.awaitWrite = .next t) :
    (t = s ∧ (s.env = [] ∨ ∃ op rest, s.env = .host op :: rest)) ∨
    (∃ rest, s.env = .answer .error :: rest ∧ t = (s.setEnv rest).raise (.transportFailure .write)) ∨
    (∃ rest, s.env = .answer .done :: rest ∧ s.plan.rx = none ∧ t = (s.setEnv rest).completeOk .none) ∨
    (∃ r rest, s.env = .answer .done :: rest ∧ s.plan.rx = some r ∧
      ((s.setEnv rest).issueRead r).awaitRead r = .next t) := by
  unfold State.awaitWrite at h
  split at h
  · split at h
    · injection h with h
      exact .inr (.inr (.inl ⟨_, ‹_›, ‹_›, h.symm⟩))
    · exact .inr (.inr (.inr ⟨_, _, ‹_›, ‹_›, h⟩))
  · injection h with h
    exact .inr (.inl ⟨_, ‹_›, h.symm⟩)
  · simp at h
  · injection h with h
    exact .inl ⟨h.symm, .inr ⟨_, _, ‹_›⟩⟩
  · injection h with h
    exact .inl ⟨h.symm, .inl ‹_›⟩

/-- `TX` is refused only on an answer outside the contract: of a read to the write, or, to the read that follows, one that
`RX` refuses. -/
theorem State.awaitWrite_refused (s : State) (e : Refusal) (h : s.awaitWrite = .refused e) :
    e = .transportContract ∧ ((∃ bs rest, s.env = .answer (.bytes bs) :: rest) ∨
      ∃ r rest, s.plan.rx = some r ∧ s.env = .answer .done :: rest ∧ ((∃ rest', rest = .answer .done :: rest') ∨
        ∃ bs rest', rest = .answer (.bytes bs) :: rest' ∧ bs.length ≠ r.nbytes)) := by
  unfold State.awaitWrite at h
  split at h
  · split at h
    · simp at h
    · obtain ⟨g1, g2⟩ := State.awaitRead_refused _ _ _ h
      exact ⟨g1, .inr ⟨_, _, ‹_›, ‹_›, g2⟩⟩
  · simp at h
  · injection h with h
    exact ⟨h.symm, .inl ⟨_, _, ‹_›⟩⟩
  · simp at h
  · simp at h

/-- No wait faults (R240: nothing does). -/
theorem outcome_ne_fault (o : Host.Outcome State Fault Refusal) (f : Fault) : o ≠ .fault f := nomatch f

/-! ### A row run to rest -/

/-- What a row can come to (R200 steps 2 to 5): the write not answered yet, the write failed, a write-shaped command
complete, or the read in one of its own four endings. Every state is named by the operations that made it. -/
theorem execPlan_next (p : Plan) (s t : State) (h : execPlan p s = .next t) :
    (t = (s.build p).issueWrite ∧ (s.env = [] ∨ ∃ op rest, s.env = .host op :: rest)) ∨
    (∃ rest, s.env = .answer .error :: rest ∧
      t = ((s.build p).issueWrite.setEnv rest).raise (.transportFailure .write)) ∨
    (∃ rest, s.env = .answer .done :: rest ∧ p.rx = none ∧ t = ((s.build p).issueWrite.setEnv rest).completeOk .none) ∨
    (∃ r rest, s.env = .answer .done :: rest ∧ p.rx = some r ∧
      ((t = ((s.build p).issueWrite.setEnv rest).issueRead r ∧ (rest = [] ∨ ∃ op rest', rest = .host op :: rest')) ∨
      (∃ rest', rest = .answer .error :: rest' ∧
        t = ((((s.build p).issueWrite.setEnv rest).issueRead r).setEnv rest').raise (.transportFailure .read)) ∨
      (∃ bs rest' c, rest = .answer (.bytes bs) :: rest' ∧ bs.length = r.nbytes ∧
        c = ((((s.build p).issueWrite.setEnv rest).issueRead r).setEnv rest').receive bs ∧
        ((c.frameCheck r = .ok ∧ t = ((c.validate r).deliver r).completeOk r.kind) ∨
          ∃ k, c.frameCheck r = .checksumFailure k ∧ t = (c.validate r).raise (.checksumFailure k))))) := by
  rcases State.awaitWrite_next _ _ h with ⟨rfl, g⟩ | ⟨rest, h1, rfl⟩ | ⟨rest, h1, h2, rfl⟩ | ⟨r, rest, h1, h2, h3⟩
  · exact .inl ⟨rfl, g⟩
  · exact .inr (.inl ⟨rest, h1, rfl⟩)
  · exact .inr (.inr (.inl ⟨rest, h1, h2, rfl⟩))
  · refine .inr (.inr (.inr ⟨r, rest, h1, h2, ?_⟩))
    rcases State.awaitRead_next _ _ _ h3 with ⟨rfl, g⟩ | ⟨rest', g1, rfl⟩ | ⟨bs, rest', g1, g2, rfl⟩
    · exact .inl ⟨rfl, g⟩
    · exact .inr (.inl ⟨rest', g1, rfl⟩)
    · refine .inr (.inr ⟨bs, rest', _, g1, g2, rfl, ?_⟩)
      rcases State.finishRead_cases ((((s.build p).issueWrite.setEnv rest).issueRead r).setEnv rest') r bs with
        ⟨a, b⟩ | ⟨k, a, b⟩
      · exact .inl ⟨a, b⟩
      · exact .inr ⟨k, a, b⟩

/-! ### The host -/

/-- What a host operation can do: it is refused only as a forbidden read, and otherwise touches only its own register. -/
theorem hostOp_next (op : HostOp) (s t : State) (h : hostOp op s = .next t) :
    (∃ v, op = .writeCw v ∧ t = s.setCw v) ∨
    (∃ v, op = .writeArgData v ∧ t = s.setArgData v) ∨
    (∃ v, op = .writeArgTmo v ∧ t = s.setArgTmo (v % 2 ^ s.cfg.tmoW)) ∨
    (∃ v, op = .writeGo v ∧ t = s.writeGo v) ∨
    (∃ v, op = .writeCrcB0 v ∧ t = s.setCrcB0 v) ∨
    (∃ v, op = .writeCrcB1 v ∧ t = s.setCrcB1 v) ∨
    (∃ r v, op = .read r ∧ s.hostRead r = .value v ∧ t = s.setRdata v) ∨
    (∃ b, op = .rst b ∧ t = s.applyRst b) ∨
    (op = .rstRelease ∧ t = s.setRst false) := by
  cases op with
  | writeCw v => exact .inl ⟨v, rfl, by simpa [hostOp] using h.symm⟩
  | writeArgData v => exact .inr (.inl ⟨v, rfl, by simpa [hostOp] using h.symm⟩)
  | writeArgTmo v => exact .inr (.inr (.inl ⟨v, rfl, by simpa [hostOp] using h.symm⟩))
  | writeGo v => exact .inr (.inr (.inr (.inl ⟨v, rfl, by simpa [hostOp] using h.symm⟩)))
  | writeCrcB0 v => exact .inr (.inr (.inr (.inr (.inl ⟨v, rfl, by simpa [hostOp] using h.symm⟩))))
  | writeCrcB1 v => exact .inr (.inr (.inr (.inr (.inr (.inl ⟨v, rfl, by simpa [hostOp] using h.symm⟩)))))
  | read r =>
    simp only [hostOp] at h
    split at h
    · injection h with h
      exact .inr (.inr (.inr (.inr (.inr (.inr (.inl ⟨r, _, rfl, ‹_›, h.symm⟩))))))
    · simp at h
  | rst b => exact .inr (.inr (.inr (.inr (.inr (.inr (.inr (.inl ⟨b, rfl, by simpa [hostOp] using h.symm⟩)))))))
  | rstRelease => exact .inr (.inr (.inr (.inr (.inr (.inr (.inr (.inr ⟨rfl, by simpa [hostOp] using h.symm⟩)))))))

theorem hostOp_refused (op : HostOp) (s : State) (e : Refusal) (h : hostOp op s = .refused e) :
    ∃ r, op = .read r ∧ s.hostRead r = .refused e := by
  cases op with
  | read r =>
    simp only [hostOp] at h
    split at h
    · simp at h
    · injection h with h
      exact ⟨r, rfl, by rw [← h]; assumption⟩
  | _ => simp [hostOp] at h

/-- What a host operation can do while `RST` is asserted (R270): nothing, the answer of a read, or the release. -/
theorem hostOpHeld_next (op : HostOp) (s t : State) (h : hostOpHeld op s = .next t) :
    t = s ∨ (∃ r v, op = .read r ∧ s.hostRead r = .value v ∧ t = s.setRdata v) ∨
    (op = .rstRelease ∧ t = s.setRst false) := by
  cases op with
  | read r =>
    simp only [hostOpHeld, hostOp] at h
    split at h
    · injection h with h
      exact .inr (.inl ⟨r, _, rfl, ‹_›, h.symm⟩)
    · simp at h
  | rstRelease => exact .inr (.inr ⟨rfl, by simpa [hostOpHeld, hostOp] using h.symm⟩)
  | _ => exact .inl (by simpa [hostOpHeld] using h.symm)

theorem hostOpHeld_refused (op : HostOp) (s : State) (e : Refusal) (h : hostOpHeld op s = .refused e) :
    ∃ r, op = .read r ∧ s.hostRead r = .refused e := by
  cases op with
  | read r => exact hostOp_refused _ _ _ h
  | _ => simp [hostOpHeld, hostOp] at h

/-- What a host read answers does not depend on what the environment does next. -/
@[simp] theorem State.hostRead_setEnv (s : State) (e : List Event) (r : HostReg) :
    (s.setEnv e).hostRead r = s.hostRead r := by cases r <;> rfl

/-- A host read is refused under one of two names (R31, R21). -/
theorem State.hostRead_refused (s : State) (r : HostReg) (e : Refusal) (h : s.hostRead r = .refused e) :
    e = .resultHoldsNoValue ∨ e = .noSuchRegister := by
  cases r <;> simp only [State.hostRead, State.readResult] at h <;>
    (try split at h) <;> (try split at h) <;> simp_all

end Sys2Proof.Machine
end

