-- ==== Sys2Proof/Laws/PerInstr.lean ====
section
/-! SUPPORT. What is said of every command as syntax, one lemma per constructor (LAWS.json, family WordFields): the fields of
its command word (30_encoding.md R80, R81, R84, R96, R98). -/

namespace Sys2Proof.Laws.WordFields

open Sys2Proof

/-- R80, R84, R98: the word of a command carries its wire opcode, its `ARG8`, its `DIR`, and a zero reserved field; the opcode
is one of the 14 of R81. -/
def Statement (i : Instr) : Prop :=
  i.opc ∈ wireOpcodes ∧ cwOpc (encode i) = i.opc ∧ cwArg8 (encode i) = i.arg8 ∧ cwDir (encode i) = i.dir ∧
    cwRsv (encode i) = 0#7

/-- The four fields are read back whatever the command is; what is left is that its opcode is in the list. -/
theorem of_opcode (i : Instr) (h : i.opc ∈ wireOpcodes) : Statement i :=
  ⟨h, cwOpc_packCw _ _ _, cwArg8_packCw _ _ _, cwDir_packCw _ _ _, cwRsv_packCw _ _ _⟩

theorem startm (fmt : Byte) : Statement (.startm fmt) := of_opcode _ (by simp [Instr.opc, wireOpcodes])
theorem stopm : Statement .stopm := of_opcode _ (by simp [Instr.opc, wireOpcodes])
theorem rdrdy : Statement .rdrdy := of_opcode _ (by simp [Instr.opc, wireOpcodes])
theorem rdvalF : Statement .rdvalF := of_opcode _ (by simp [Instr.opc, wireOpcodes])
theorem rdvalI : Statement .rdvalI := of_opcode _ (by simp [Instr.opc, wireOpcodes])
theorem sleep : Statement .sleep := of_opcode _ (by simp [Instr.opc, wireOpcodes])
theorem wake : Statement .wake := of_opcode _ (by simp [Instr.opc, wireOpcodes])
theorem fancln : Statement .fancln := of_opcode _ (by simp [Instr.opc, wireOpcodes])
theorem getaci : Statement .getaci := of_opcode _ (by simp [Instr.opc, wireOpcodes])
theorem setaci : Statement .setaci := of_opcode _ (by simp [Instr.opc, wireOpcodes])
theorem rdpt (cap : Byte) : Statement (.rdpt cap) := of_opcode _ (by simp [Instr.opc, wireOpcodes])
theorem rdsn (cap : Byte) : Statement (.rdsn cap) := of_opcode _ (by simp [Instr.opc, wireOpcodes])
theorem rdver : Statement .rdver := of_opcode _ (by simp [Instr.opc, wireOpcodes])
theorem rdstat : Statement .rdstat := of_opcode _ (by simp [Instr.opc, wireOpcodes])
theorem clrstat : Statement .clrstat := of_opcode _ (by simp [Instr.opc, wireOpcodes])
theorem reset : Statement .reset := of_opcode _ (by simp [Instr.opc, wireOpcodes])

end Sys2Proof.Laws.WordFields
end

