-- ==== Sys2Proof/Laws/Step.lean ====
section
/-! SUPPORT. What one step can do (Machine/Step.lean), said once. -/

namespace Sys2Proof.Machine

open Sys2Proof

theorem step_idle_go (s : State) (hs : s.rst = false) (hp : s.phase = .idle) (hg : s.go = true) :
    step s = match decode s.cw with
      | .command i => exec i s
      | .illegal _ => rejectCommand s := by
  cases h : decode s.cw <;> simp [step, hs, hp, hg, fetch, h]

theorem step_idle_quiet (s : State) (hs : s.rst = false) (hp : s.phase = .idle) (hg : s.go = false) :
    step s = idleStep s := by simp [step, hs, hp, hg]

theorem step_waiting (s : State) (hs : s.rst = false) (hp : s.phase = .tx ∨ s.phase = .rx) : step s = waitStep s := by
  rcases hp with hp | hp <;> simp [step, hs, hp]

theorem step_held (s : State) (hs : s.rst = true) : step s = heldStep s := by simp [step, hs]

/-- A host operation at the head of the environment is what happens in any resting state in which no strobe is to be
taken. -/
theorem step_host (s : State) (op : HostOp) (rest : List Event) (he : s.env = .host op :: rest)
    (hs : s.rst = false) (hp : (s.phase = .idle ∧ s.go = false) ∨ s.phase = .tx ∨ s.phase = .rx) :
    step s = hostOp op (s.setEnv rest) := by
  rcases hp with ⟨hp, hg⟩ | hp
  · rw [step_idle_quiet s hs hp hg, idleStep, he]
  · rw [step_waiting s hs hp, waitStep, he]

/-- Waiting in `TX` with no host move to come first, the step is the wait for the write's answer. -/
theorem step_tx (s : State) (hs : s.rst = false) (hp : s.phase = .tx) (he : ∀ op rest, s.env ≠ .host op :: rest) :
    step s = s.awaitWrite := by
  rw [step_waiting s hs (.inl hp), waitStep]
  split
  · exact absurd ‹_› (he _ _)
  · simp [hp]

theorem step_rx (s : State) (r : RxPlan) (hs : s.rst = false) (hp : s.phase = .rx) (hr : s.plan.rx = some r)
    (he : ∀ op rest, s.env ≠ .host op :: rest) : step s = s.awaitRead r := by
  rw [step_waiting s hs (.inr hp), waitStep]
  split
  · exact absurd ‹_› (he _ _)
  · simp [hp, hr]

/-- What a step can do while `RST` is asserted (R270): nothing, drop a move of the environment, answer a read, let go. -/
theorem heldStep_next (s t : State) (h : heldStep s = .next t) :
    t = s ∨ (∃ m rest, s.env = m :: rest ∧ t = s.setEnv rest) ∨
    (∃ r v rest, s.env = .host (.read r) :: rest ∧ s.hostRead r = .value v ∧ t = (s.setEnv rest).setRdata v) ∨
    (∃ rest, s.env = .host .rstRelease :: rest ∧ t = (s.setEnv rest).setRst false) := by
  unfold heldStep at h
  split at h
  · injection h with h
    exact .inl h.symm
  · rcases hostOpHeld_next _ _ _ h with rfl | ⟨r, v, rfl, hv, rfl⟩ | ⟨rfl, rfl⟩
    · exact .inr (.inl ⟨_, _, ‹_›, rfl⟩)
    · exact .inr (.inr (.inl ⟨r, v, _, ‹_›, by rw [← hv, State.hostRead_setEnv], rfl⟩))
    · exact .inr (.inr (.inr ⟨_, ‹_›, rfl⟩))
  · injection h with h
    exact .inr (.inl ⟨_, _, ‹_›, h.symm⟩)

/-- What a step can do from a resting state in which `RST` is not asserted. -/
theorem step_next_cases (s t : State) (h : step s = .next t) (hs : s.rst = false)
    (hr : s.phase = .idle ∨ s.phase = .tx ∨ s.phase = .rx) :
    (s.phase = .idle ∧ s.go = true ∧ ∃ i, decode s.cw = .command i ∧ exec i s = .next t) ∨
    (s.phase = .idle ∧ s.go = true ∧ t = s.accept.raise .invalidArgument) ∨
    (t = s) ∨
    (s.phase = .idle ∧ ∃ a rest, s.env = .answer a :: rest ∧ t = s.setEnv rest) ∨
    (∃ op rest, s.env = .host op :: rest ∧ hostOp op (s.setEnv rest) = .next t) ∨
    (s.phase = .tx ∧ s.awaitWrite = .next t) ∨
    (s.phase = .rx ∧ ∃ r, s.plan.rx = some r ∧ s.awaitRead r = .next t) := by
  rcases hr with hp | hp
  · cases hg : s.go with
    | true =>
      rw [step_idle_go s hs hp hg] at h
      split at h
      · exact .inl ⟨hp, rfl, _, ‹_›, h⟩
      · rw [rejectCommand] at h
        injection h with h
        exact .inr (.inl ⟨hp, rfl, h.symm⟩)
    | false =>
      rw [step_idle_quiet s hs hp hg, idleStep] at h
      split at h
      · injection h with h
        exact .inr (.inr (.inl h.symm))
      · exact .inr (.inr (.inr (.inr (.inl ⟨_, _, ‹_›, h⟩))))
      · injection h with h
        exact .inr (.inr (.inr (.inl ⟨hp, _, _, ‹_›, h.symm⟩)))
  · rw [step_waiting s hs hp, waitStep] at h
    split at h
    · exact .inr (.inr (.inr (.inr (.inl ⟨_, _, ‹_›, h⟩))))
    · split at h
      · exact .inr (.inr (.inr (.inr (.inr (.inl ⟨‹_›, h⟩)))))
      · have hrx : s.phase = .rx := hp.resolve_left ‹_›
        split at h
        · injection h with h
          exact .inr (.inr (.inl h.symm))
        · exact .inr (.inr (.inr (.inr (.inr (.inr ⟨hrx, _, ‹_›, h⟩)))))

end Sys2Proof.Machine
end

