-- ==== Sys2Proof/Tests/Slice0.lean ====
section
/-! SUPPORT. The model's own tests, each one step on a small state, with results taken from 95_test_vectors.md and from the
tables of 30_encoding.md; and for every statement with hypotheses a witness that meets them. -/

namespace Sys2Proof.Tests

/- One theorem at a time: each decide below blocks a thread of its own while the kernel works. -/
set_option Elab.async false

open Sys2Proof Sys2Proof.Machine Sys2Proof.Safety Sys2Proof.Claims

/-! ### WellFormed (R82): an ill-formed command for each check, and the legal operands at the edges of their ranges -/

theorem test_wf_startm_format :
    Instr.wellFormed (.startm 0x04#8) = false ∧ Instr.wellFormed (.startm 0x00#8) = false ∧
    Instr.wellFormed (.startm 0xFF#8) = false := by decide
theorem test_wf_rdpt_capacity_zero : Instr.wellFormed (.rdpt 0x00#8) = false := by decide
theorem test_wf_rdsn_capacity_zero : Instr.wellFormed (.rdsn 0x00#8) = false := by decide
theorem test_wf_legal_operands :
    Instr.wellFormed (.startm 0x03#8) = true ∧ Instr.wellFormed (.startm 0x05#8) = true ∧
    Instr.wellFormed (.rdpt 0x01#8) = true ∧ Instr.wellFormed (.rdsn 0xFF#8) = true ∧
    Instr.wellFormed .setaci = true := by decide

/-! ### Decoding: words written out field by field, RSV (7 bits), DIR (1), ARG8 (8), OPC (16), from R80 and R98 -/

theorem test_decode_pointer_only :
    decode 0b00000000000000000000000100000100#32 = .command .stopm ∧
    decode 0b00000000000000000001000000000001#32 = .command .sleep ∧
    decode 0b00000000000000000001000100000011#32 = .command .wake ∧
    decode 0b00000000000000000101011000000111#32 = .command .fancln ∧
    decode 0b00000000000000001101001000010000#32 = .command .clrstat ∧
    decode 0b00000000000000001101001100000100#32 = .command .reset := by decide
theorem test_decode_write_data :
    decode 0b00000000000000110000000000010000#32 = .command (.startm 0x03#8) ∧
    decode 0b00000000000001010000000000010000#32 = .command (.startm 0x05#8) ∧
    decode 0b00000001000000001000000000000100#32 = .command .setaci := by decide
theorem test_decode_read :
    decode 0b00000000000000000000001000000010#32 = .command .rdrdy ∧
    decode 0b00000000000000110000001100000000#32 = .command .rdvalF ∧
    decode 0b00000000000001010000001100000000#32 = .command .rdvalI ∧
    decode 0b00000000000000001000000000000100#32 = .command .getaci ∧
    decode 0b00000000000010011101000000000010#32 = .command (.rdpt 9#8) ∧
    decode 0b00000000001000011101000000110011#32 = .command (.rdsn 33#8) ∧
    decode 0b00000000000000001101000100000000#32 = .command .rdver ∧
    decode 0b00000000000000001101001000000110#32 = .command .rdstat := by decide
/-- T-ERR: illegal words, each with the step of R101 that stops it. -/
theorem test_decode_illegal :
    decode 0x00000300#32 = .illegal .noSuchFormat ∧ decode 0x00040300#32 = .illegal .noSuchFormat ∧
    decode 0x00010104#32 = .illegal .arg8Nonzero ∧ decode 0x00018004#32 = .illegal .arg8Nonzero ∧
    decode 0x01018004#32 = .illegal .arg8Nonzero ∧ decode 0x01000104#32 = .illegal .dirOnOtherOpcode ∧
    decode 0x0100D100#32 = .illegal .dirOnOtherOpcode ∧ decode 0x02000104#32 = .illegal .reservedNonzero ∧
    decode 0x80030010#32 = .illegal .reservedNonzero ∧ decode 0x00000000#32 = .illegal .unknownOpcode ∧
    decode 0x0000FFFF#32 = .illegal .unknownOpcode ∧ decode 0x0000D207#32 = .illegal .unknownOpcode ∧
    decode 0x00001000#32 = .illegal .unknownOpcode ∧ decode 0x00000011#32 = .illegal .unknownOpcode := by decide
/-- R99. -/
theorem test_pseudo_words :
    pseudoWord .rdpt = 0x0009D002#32 ∧ pseudoWord .rdsn = 0x0021D033#32 ∧
    pseudoWord (.rdval 0x03#8) = 0x00030300#32 ∧ decode (pseudoWord (.rdval 0x04#8)) = .illegal .noSuchFormat := by decide
theorem test_decodeTableWord :
    decodeTableWord 32 0x01008004 = some .setaci ∧ decodeTableWord 32 0x00000010 = some (.startm 0x00#8) ∧
    decodeTableWord 16 0x8004 = some .getaci ∧ decodeTableWord 32 0x02000104 = none := by decide

/-! ### The Checksum Engine (T-CRC, T-CRC-TABLE, T-WORD) -/

theorem test_crc8Bit :
    [0x00#8, 0x01#8, 0x40#8, 0x7F#8, 0x80#8, 0x81#8, 0xC0#8, 0xFF#8].map crc8Bit =
      [0x00#8, 0x02#8, 0x80#8, 0xFE#8, 0x31#8, 0x33#8, 0xB1#8, 0xCF#8] := by decide
theorem test_checksum_vectors :
    checksum 0xBE#8 0xEF#8 = 0x92#8 ∧ checksum 0x12#8 0x34#8 = 0x37#8 ∧ checksum 0x00#8 0xFF#8 = 0x2D#8 ∧
    checksum 0x31#8 0x00#8 = 0xC7#8 ∧ checksum 0x7F#8 0xC0#8 = 0x64#8 := by decide +kernel
/-- The catalogue check value, and the residue of a valid Word. -/
theorem test_crc8_other_lengths :
    crc8 [] = 0xFF#8 ∧ crc8 [0x01#8] = 0x9D#8 ∧ crc8 [0xBE#8, 0xEF#8, 0x92#8] = 0x00#8 ∧
    crc8 [0x31#8, 0x32#8, 0x33#8, 0x34#8, 0x35#8, 0x36#8, 0x37#8, 0x38#8, 0x39#8] = 0xF7#8 := by decide +kernel
theorem test_step8_table :
    [0x0F#8, 0x41#8, 0x80#8, 0xE3#8, 0xF0#8, 0xFF#8].map step8 =
      [0x2E#8, 0x0C#8, 0x7A#8, 0x92#8, 0x82#8, 0xAC#8] := by decide +kernel
theorem test_wordOk :
    wordOk [0xBE#8, 0xEF#8, 0x92#8] = true ∧ wordOk [0xBE#8, 0xEF#8, 0x93#8] = false ∧
    wordOk [0xBF#8, 0xEF#8, 0x92#8] = false ∧ wordOk [0xFF#8, 0x00#8, 0x00#8] = true ∧
    wordOk [0xEF#8, 0xBE#8, 0x92#8] = false := by decide +kernel

/-! ### Frames and decoders (T-ENC, T-VAL, T-STR) -/

theorem test_encSetaci :
    encSetaci 0x12345678#32 = [0x80#8, 0x04#8, 0x12#8, 0x34#8, 0x37#8, 0x56#8, 0x78#8, 0x7D#8] := by decide +kernel
theorem test_encStart : encStart 0x05#8 = [0x00#8, 0x10#8, 0x05#8, 0x00#8, 0xF6#8] := by decide +kernel
theorem test_encAscii :
    encAscii [0x53#8, 0x45#8, 0x4E#8, 0x35#8, 0x30#8] 3 =
      [0x53#8, 0x45#8, 0x83#8, 0x4E#8, 0x35#8, 0x55#8, 0x30#8, 0x00#8, 0x33#8] := by decide +kernel
theorem test_validateFrame :
    validateFrame [0x00#8, 0x09#8, 0x09#8, 0x3A#8, 0x80#8, 0xA7#8] 2 = .ok ∧
    validateFrame [0x00#8, 0x09#8, 0x09#8, 0x3A#8, 0x81#8, 0xA7#8] 2 = .checksumFailure 1 ∧
    validateFrame [0x01#8, 0x09#8, 0x09#8, 0x3A#8, 0x81#8, 0xA7#8] 2 = .checksumFailure 0 ∧
    validateFrame [0x00#8, 0x09#8, 0x09#8, 0x3A#8, 0x81#8, 0xA7#8] 1 = .ok ∧ validateFrame [] 0 = .ok := by
  decide +kernel
theorem test_dataView :
    dataView [0x00#8, 0x09#8, 0x09#8, 0x3A#8, 0x80#8, 0xA7#8] 2 = [0x00#8, 0x09#8, 0x3A#8, 0x80#8] := by decide
/-- T-STR-1: the characters for each capacity, and the first zero ending the string for good. -/
theorem test_decAscii :
    ([1#8, 2#8, 4#8, 6#8, 9#8, 255#8].map fun cap =>
      (decAscii 41 [0x53#8, 0x45#8, 0x4E#8, 0x35#8, 0x30#8, 0x00#8] cap).2) = [0, 1, 3, 5, 5, 5] ∧
    (decAscii 5 [0x41#8, 0x00#8, 0x42#8, 0x43#8] 9#8) = ([0x41#8, 0#8, 0#8, 0#8, 0#8], 1) ∧
    (decAscii 7 [0x80#8, 0xFF#8, 0x01#8, 0x7F#8, 0x00#8, 0x00#8] 9#8) =
      ([0x80#8, 0xFF#8, 0x01#8, 0x7F#8, 0#8, 0#8, 0#8], 4) ∧
    (decAscii 3 [0x00#8, 0x41#8] 9#8).2 = 0 := by decide

/-! ### One step on a small state -/

/-- `SCRATCH_MAX = 60`, `DEV_ADDR = 7`, `TMO_W = 8`. -/
def cfg : Config := { scratchExtra := 0, devAddr := 7, tmoExtra := 7, tCmd := 0, tFanclean := 0, tReset := 0 }

/-- After `RST`, with a command word, a value and a timeout of 5 written, the strobe given, and what the environment does. -/
def ready (cw argData : Word32) (env : List Event) : State :=
  { State.resetWith cfg with cw := cw, argData := argData, argTmo := 5, go := true, env := env }

/-- What one step leaves of the state, seen through a view. -/
def seen {α : Type} (f : State → α) (s : State) : Option α :=
  match step s with
  | .next t => some (f t)
  | .fault _ => none
  | .refused _ => none

/-- `STATUS` and the Transport calls. -/
def outcome (t : State) : BitVec 16 × List Call := (t.status.word, t.calls)

def ok : Event := .answer .done
def failed : Event := .answer .error
def data (bs : List Byte) : Event := .answer (.bytes bs)

theorem test_startm_float :
    seen outcome (ready 0x00030010#32 0#32 [ok]) =
      some (0x0002#16, [.write 7 [0x00#8, 0x10#8, 0x03#8, 0x00#8, 0xAC#8] 5]) := by decide +kernel
/-- P4 step 1; the Transport is never asked (R244). -/
theorem test_startm_bad_format : seen outcome (ready 0x00040010#32 0#32 [failed]) = some (0x000E#16, []) := by
  decide +kernel
theorem test_stopm :
    seen outcome (ready 0x00000104#32 0#32 [ok]) = some (0x0002#16, [.write 7 [0x01#8, 0x04#8] 5]) := by decide +kernel
theorem test_sleep_write_failed :
    seen outcome (ready 0x00001001#32 0#32 [failed]) = some (0x0006#16, [.write 7 [0x10#8, 0x01#8] 5]) := by
  decide +kernel
theorem test_wake :
    seen outcome (ready 0x00001103#32 0#32 [ok]) = some (0x0002#16, [.write 7 [0x11#8, 0x03#8] 5]) := by decide +kernel
theorem test_fancln_write_failed :
    seen outcome (ready 0x00005607#32 0#32 [failed]) = some (0x0006#16, [.write 7 [0x56#8, 0x07#8] 5]) := by
  decide +kernel
theorem test_clrstat :
    seen outcome (ready 0x0000D210#32 0#32 [ok]) = some (0x0002#16, [.write 7 [0xD2#8, 0x10#8] 5]) := by decide +kernel
/-- P4 step 8: the sensor is reset, not the block. -/
theorem test_reset :
    seen outcome (ready 0x0000D304#32 0#32 [ok]) = some (0x0002#16, [.write 7 [0xD3#8, 0x04#8] 5]) := by decide +kernel
theorem test_setaci :
    seen outcome (ready 0x01008004#32 0x00093A80#32 [ok]) =
      some (0x0002#16, [.write 7 [0x80#8, 0x04#8, 0x00#8, 0x09#8, 0x09#8, 0x3A#8, 0x80#8, 0xA7#8] 5]) := by
  decide +kernel
theorem test_getaci :
    seen (fun t => (outcome t, t.r32))
        (ready 0x00008004#32 0#32 [ok, data [0x00#8, 0x09#8, 0x09#8, 0x3A#8, 0x80#8, 0xA7#8]]) =
      some ((0x0032#16, [.write 7 [0x80#8, 0x04#8] 5, .read 7 6 5]), 0x00093A80#32) := by decide +kernel
/-- P3 step 2: Word 1 invalid, so no result although Word 0 was valid. -/
theorem test_getaci_checksum :
    seen (fun t => (t.status.word, t.hostRead .r32))
        (ready 0x00008004#32 0#32 [ok, data [0x00#8, 0x09#8, 0x09#8, 0x3A#8, 0x81#8, 0xA7#8]]) =
      some (0x010A#16, .refused .resultHoldsNoValue) := by decide +kernel
theorem test_rdstat :
    seen (fun t => (t.status.word, t.hostRead .r32))
        (ready 0x0000D206#32 0#32 [ok, data [0x00#8, 0x21#8, 0x36#8, 0x00#8, 0x30#8, 0x44#8]]) =
      some (0x0032#16, .value 0x00210030) := by decide +kernel
/-- P4 step 5. -/
theorem test_rdstat_read_failed :
    seen outcome (ready 0x0000D206#32 0#32 [ok, failed]) =
      some (0x0086#16, [.write 7 [0xD2#8, 0x06#8] 5, .read 7 6 5]) := by decide +kernel
theorem test_rdver :
    seen (fun t => (t.status.word, t.hostRead .rvMajor, t.hostRead .rvMinor))
        (ready 0x0000D100#32 0#32 [ok, data [0x02#8, 0x03#8, 0x0B#8]]) =
      some (0x0042#16, .value 2, .value 3) := by decide +kernel
theorem test_rdver_write_failed :
    seen outcome (ready 0x0000D100#32 0#32 [failed]) = some (0x0006#16, [.write 7 [0xD1#8, 0x00#8] 5]) := by
  decide +kernel
theorem test_rdrdy :
    seen (fun t => (t.status.word, t.hostRead .r16)) (ready 0x00000202#32 0#32 [ok, data [0x00#8, 0x01#8, 0xB0#8]]) =
      some (0x0062#16, .value 1) := by decide +kernel
theorem test_rdrdy_checksum :
    seen (fun t => t.status.word) (ready 0x00000202#32 0#32 [ok, data [0x00#8, 0x01#8, 0xB1#8]]) = some 0x000A#16 := by
  decide +kernel

/-- Frame `F` of T-F32-1. -/
def frameF : List Byte :=
  [0x3F#8, 0x80#8, 0xD0#8, 0x00#8, 0x00#8, 0x81#8, 0x40#8, 0x20#8, 0x8E#8, 0x00#8, 0x00#8, 0x81#8, 0x80#8, 0x00#8, 0xA2#8] ++
  [0x00#8, 0x00#8, 0x81#8, 0x00#8, 0x00#8, 0x81#8, 0x00#8, 0x00#8, 0x81#8, 0x7F#8, 0xC0#8, 0x64#8, 0x00#8, 0x01#8, 0xB0#8] ++
  [0xBF#8, 0xC0#8, 0xCE#8, 0x00#8, 0x00#8, 0x81#8, 0x41#8, 0x20#8, 0x7A#8, 0x00#8, 0x00#8, 0x81#8, 0x3F#8, 0x00#8, 0xAA#8] ++
  [0x00#8, 0x00#8, 0x81#8, 0x42#8, 0xC8#8, 0x2F#8, 0x80#8, 0x00#8, 0xA2#8, 0x3F#8, 0x40#8, 0x97#8, 0x00#8, 0x00#8, 0x81#8]

theorem test_rdvalF :
    seen (fun t => (t.status.word, t.rf.toList)) (ready 0x00030300#32 0#32 [ok, data frameF]) =
      some (0x0012#16, [0x3F800000#32, 0x40200000#32, 0x80000000#32, 0x00000000#32, 0x7FC00001#32, 0xBFC00000#32,
        0x41200000#32, 0x3F000000#32, 0x42C88000#32, 0x3F400000#32]) := by decide +kernel
/-- T-F32-2: byte 31 altered, then the last byte. -/
theorem test_rdvalF_checksum :
    seen (fun t => (t.status.word, t.hostRead (.rf 0))) (ready 0x00030300#32 0#32 [ok, data (frameF.set 31 0xC1#8)]) =
      some (0x0A0A#16, .refused .resultHoldsNoValue) ∧
    seen (fun t => t.status.word) (ready 0x00030300#32 0#32 [ok, data (frameF.set 59 0x80#8)]) = some 0x130A#16 := by
  decide +kernel

/-- Frame `G` of T-U16-1. -/
def frameG : List Byte :=
  [0x00#8, 0x01#8, 0xB0#8, 0x00#8, 0x02#8, 0xE3#8, 0x00#8, 0x03#8, 0xD2#8, 0x00#8, 0x04#8, 0x45#8, 0x01#8, 0x00#8, 0x75#8] ++
  [0xFF#8, 0xFF#8, 0xAC#8, 0x00#8, 0x00#8, 0x81#8, 0x80#8, 0x00#8, 0xA2#8, 0x12#8, 0x34#8, 0x37#8, 0x00#8, 0xFF#8, 0x2D#8]

theorem test_rdvalI :
    seen (fun t => (t.status.word, t.ru.toList)) (ready 0x00050300#32 0#32 [ok, data frameG]) =
      some (0x0022#16, [0x0001#16, 0x0002#16, 0x0003#16, 0x0004#16, 0x0100#16, 0xFFFF#16, 0x0000#16, 0x8000#16, 0x1234#16,
        0x00FF#16]) := by decide +kernel
/-- T-U16-3: float bytes read as integers are meaningless and well defined. -/
theorem test_rdvalI_float_bytes :
    seen (fun t => (t.status.word, t.ru.toList)) (ready 0x00050300#32 0#32 [ok, data (frameF.take 30)]) =
      some (0x0022#16, [0x3F80#16, 0x0000#16, 0x4020#16, 0x0000#16, 0x8000#16, 0x0000#16, 0x0000#16, 0x0000#16, 0x7FC0#16,
        0x0001#16]) := by decide +kernel
/-- T-STR-6: the tail byte of an even capacity is received and ignored. -/
theorem test_rdpt_even_capacity :
    seen (fun t => (t.status.word, t.rs.take 6, t.rsLen))
        (ready 0x0006D002#32 0#32 [ok, data [0x53#8, 0x45#8, 0x83#8, 0x4E#8, 0x35#8, 0x55#8, 0xEE#8]]) =
      some (0x0052#16, [0x53#8, 0x45#8, 0x4E#8, 0x35#8, 0x00#8, 0x00#8], 4#8) := by decide +kernel
/-- T-STR-4: capacity 1 makes both calls and reads nothing. -/
theorem test_rdpt_capacity_one :
    seen (fun t => (outcome t, t.rsLen)) (ready 0x0001D002#32 0#32 [ok, data []]) =
      some ((0x0052#16, [.write 7 [0xD0#8, 0x02#8] 5, .read 7 0 5]), 0#8) := by decide +kernel
/-- T-STR-9: the last Word, all padding, is validated too. -/
theorem test_rdsn_padding_checked :
    seen (fun t => t.status.word)
        (ready 0x0009D033#32 0#32
          [ok, data [0x53#8, 0x45#8, 0x83#8, 0x4E#8, 0x35#8, 0x55#8, 0x30#8, 0x00#8, 0x33#8, 0x00#8, 0x00#8, 0x7E#8]]) =
      some 0x030A#16 := by decide +kernel
/-- T-STR-8: 255 is clamped to 60 bytes, and the terminator follows 40 characters. -/
theorem test_rdsn_clamped :
    seen (fun t => (t.status.word, t.rsLen, t.rs.length, t.calls))
        (ready 0x00FFD033#32 0#32 [ok, data (encWords (List.replicate 40 0x41#8))]) =
      some (0x0052#16, 40#8, 41, [.write 7 [0xD0#8, 0x33#8] 5, .read 7 60 5]) := by decide +kernel

/-! ### The host, `RST`, the direct port (T-RST) -/

/-- Idle after `RST`, with what the environment does. -/
def idle (env : List Event) : State := { State.resetWith cfg with env := env }

/-- `STOPM` waiting for the answer to its write. -/
def inTx (env : List Event) : State :=
  { ((ready 0x00000104#32 0#32 []).accept.build (rowPtrOnly 0x0104#16)).issueWrite with env := env }

/-- `RDVER` waiting for the answer to its read. -/
def inRx (env : List Event) : State :=
  { (((ready 0x0000D100#32 0#32 []).accept.build (rowRead 0xD100#16 3 1 .ver .ver)).issueWrite).issueRead
      { nbytes := 3, words := 1, dec := .ver, kind := .ver } with env := env }

theorem test_crc_port :
    (idle []).crcOut = 0x81#8 ∧ (((idle []).setCrcB0 0xBE#8).setCrcB1 0xEF#8).crcOut = 0x92#8 := by decide +kernel
theorem test_go_starts : seen (fun t => t.go) (idle [.host (.writeGo true)]) = some true := by decide +kernel
theorem test_go_while_busy :
    seen (fun t => (t.go, t.status.word)) (inTx [.host (.writeGo true)]) = some (false, 0x0001#16) := by decide +kernel
theorem test_rst_abandons :
    seen outcome (inTx [.host (.rst true)]) = some (0x0000#16, [.write 7 [0x01#8, 0x04#8] 5]) ∧
    seen outcome (inTx [.host (.rst false)]) = some (0x0000#16, []) := by decide +kernel
/-- `RST` asserted while a command waits in `RX`. -/
def held (env : List Event) : State := { (inRx []).applyRst true with env := env }

/-- R270: while `RST` is asserted a write and a `GO` are lost; after the release the block takes them again. -/
theorem test_rst_holds :
    seen (fun t => (t.rst, t.cw, t.env.length)) (held [.host (.writeCw 5#32)]) = some (true, 0#32, 0) ∧
    seen (fun t => (t.rst, t.go)) (held [.host (.writeGo true)]) = some (true, false) := by decide +kernel
theorem test_rst_release :
    seen (fun t => (t.rst, t.phase, t.status.word)) (held [.host .rstRelease]) = some (false, .idle, 0x0000#16) := by
  decide +kernel
theorem test_answer_in_rx :
    seen (fun t => t.hostRead .rvMinor) (inRx [data [0x02#8, 0x03#8, 0x0B#8]]) = some (.value 3) := by decide +kernel
theorem test_contract_breach_refused :
    step (inRx [data [0x02#8]]) = .refused .transportContract := by rfl
/-- The very next step after a word is placed in the machine as reset leaves it runs that word (log 10). -/
theorem test_fetch_from_reset :
    seen (fun t => (t.status.word, t.phase)) (State.reset.withFetchWord 32 0x00000104) = some (0x0001#16, .tx) ∧
    seen (fun t => t.status.word) (State.reset.withFetchWord 32 0x00000010) = some 0x000E#16 := by decide +kernel
theorem test_timeout_width :
    seen (fun t => t.argTmo) (idle [.host (.writeArgTmo 0x1FF)]) = some 0xFF := by decide +kernel

/-! ### Witnesses: the hypotheses of each statement, met together -/

theorem witness_EncodeOfDecodeIsTheWord : decode 0x01008004#32 = .command .setaci := by decide

/-- A legal word, and for each clause of R97 an illegal one, at an idle block with a strobe to take. -/
theorem witness_InvalidArgumentExactlyForIllegalWords :
    (ready 0x00030010#32 0#32 []).rst = false ∧ (ready 0x00030010#32 0#32 []).phase = .idle ∧
      (ready 0x00030010#32 0#32 []).go = true ∧
      LegalWord (ready 0x00030010#32 0#32 []).cw ∧ ¬ LegalWord (ready 0x80030010#32 0#32 []).cw ∧
      ¬ LegalWord (ready 0x00000011#32 0#32 []).cw ∧ ¬ LegalWord (ready 0x01000104#32 0#32 []).cw ∧
      ¬ LegalWord (ready 0x00040010#32 0#32 []).cw ∧ ¬ LegalWord (ready 0x0000D002#32 0#32 []).cw ∧
      ¬ LegalWord (ready 0x00010104#32 0#32 []).cw :=
  ⟨rfl, rfl, rfl,
   ⟨by decide, by decide, by decide, by decide, by decide, by decide⟩,
   fun h => absurd h.rsv (by decide), fun h => absurd h.opcode (by decide), fun h => absurd h.dir (by decide),
   fun h => absurd h.format (by decide), fun h => absurd h.capacity (by decide), fun h => absurd h.unused (by decide)⟩

theorem witness_StepRunsTheDecodedCommand :
    (ready 0x00000104#32 0#32 [ok]).rst = false ∧ (ready 0x00000104#32 0#32 [ok]).phase = .idle ∧
      (ready 0x00000104#32 0#32 [ok]).go = true ∧
      decode (ready 0x00000104#32 0#32 [ok]).cw = .command .stopm ∧ decodeTableWord 32 0x104 = some .stopm := by
  decide +kernel

/-- One alteration of each of the three bytes of a Word. -/
theorem witness_OneAlteredByteIsDetected :
    (0xBF#8 ≠ 0xBE#8) ∧ 0x93#8 ≠ checksum 0xBE#8 0xEF#8 ∧ 0xBF#8 ≠ byteAt (wordBuild 0xBE#8 0xEF#8) 0 ∧
      0xEE#8 ≠ byteAt (wordBuild 0xBE#8 0xEF#8) 1 ∧ 0x93#8 ≠ byteAt (wordBuild 0xBE#8 0xEF#8) 2 := by decide +kernel

/-- The three moves of the host at the port. -/
def portMoves : List Event := [.host (.writeCrcB0 0xBE#8), .host (.writeCrcB1 0xEF#8), .host (.read .crcOut)]

/-- The three resting states in which the environment's next move is taken. -/
theorem moves_idle (env : List Event) : EnvironmentMoves (idle env) := ⟨rfl, .inl ⟨rfl, rfl⟩⟩
theorem moves_inTx (env : List Event) : EnvironmentMoves (inTx env) := ⟨rfl, .inr (.inl rfl)⟩
theorem moves_inRx (env : List Event) : EnvironmentMoves (inRx env) := ⟨rfl, .inr (.inr rfl)⟩

theorem witness_CrcPortAtAnyTime :
    EnvironmentMoves (idle portMoves) ∧ EnvironmentMoves (inTx portMoves) ∧ EnvironmentMoves (inRx portMoves) ∧
      (idle portMoves).env = portMoves ∧ (inTx portMoves).env = portMoves ∧ (inRx portMoves).env = portMoves :=
  ⟨moves_idle _, moves_inTx _, moves_inRx _, rfl, rfl, rfl⟩

/-- Two Words; the first and the last byte altered alone, and a Word altered in two bytes that passes (T-VAL). -/
theorem witness_AlteredFramesAreFound :
    [0x00#8, 0x09#8, 0xBE#8, 0xEE#8].length = 2 * 2 ∧
      0x01#8 ≠ byteAt (encWords [0x00#8, 0x09#8, 0xBE#8, 0xEE#8]) 0 ∧
      0xA2#8 ≠ byteAt (encWords [0x00#8, 0x09#8, 0xBE#8, 0xEE#8]) 5 ∧
      validateFrame [0x00#8, 0x09#8, 0x09#8, 0x41#8, 0x42#8, 0xA3#8] 2 = .ok ∧
      byteAt [0x00#8, 0x09#8, 0x09#8, 0x41#8, 0x42#8, 0xA3#8] 3 ≠
        byteAt (encWords [0x00#8, 0x09#8, 0xBE#8, 0xEE#8]) 3 := by decide +kernel

/-- Clause (d): capacities at both ends, and a string that fills its Words. -/
theorem witness_DecodersInvertTheEncoders :
    (1#8 ≠ 0x00#8) ∧ (255#8 ≠ 0x00#8) ∧ (∀ b ∈ [0x53#8, 0x45#8], b ≠ 0x00#8) ∧ [0x53#8, 0x45#8].length ≤ 2 * 1 := by
  decide

/-- No Word, and as many as `SCRATCH_MAX = 60` allows; two views alike up to the first zero. -/
theorem witness_StringDecoderBounds :
    (1#8 ≠ 0x00#8) ∧ ([] : List Byte).length = 2 * 0 ∧ (List.replicate 40 0x41#8).length = 2 * 20 ∧
      20 ≤ cfg.scratchMax / 3 ∧
      [0x41#8, 0x00#8, 0x42#8].take (min ((9#8).toNat - 1) ([0x41#8, 0x00#8, 0x42#8].findIdx (· == 0x00#8))) =
        [0x41#8, 0x00#8, 0x43#8].take (min ((9#8).toNat - 1) ([0x41#8, 0x00#8, 0x43#8].findIdx (· == 0x00#8))) := by
  decide

/-- The sizing table of R156 at `SCRATCH_MAX = 60`, and at 64 where the clamp and the even clause meet (T-VAL). -/
theorem witness_IdentitySizing :
    ([1#8, 2#8, 9#8, 40#8, 41#8, 42#8, 255#8].map fun cap => (idNbytes cfg cap, idWords cfg cap)) =
      [(0, 0), (1, 0), (12, 4), (58, 19), (60, 20), (60, 20), (60, 20)] ∧
    ([42#8, 44#8, 255#8].map fun cap =>
      (idNbytes { cfg with scratchExtra := 4 } cap, idWords { cfg with scratchExtra := 4 } cap)) =
      [(61, 20), (64, 21), (64, 21)] := by decide

/-- The write-shaped statements: both answers to the write. -/
theorem witness_WriteOutcomes :
    (Instr.stopm, 0x00000104#32, [0x01#8, 0x04#8]) ∈ pointerOnly ∧ (Instr.reset, 0x0000D304#32, [0xD3#8, 0x04#8]) ∈ pointerOnly ∧
      (ready 0#32 0#32 [ok]).txbuf.wf = true ∧ (ready 0#32 0#32 [ok]).env = .answer .done :: [] ∧
      (ready 0#32 0#32 [failed]).env = .answer .error :: [] := by decide +kernel

/-- R99: a format that no row has. -/
theorem witness_PseudoCommandsExpand : (0x04#8 ≠ 0x03#8) ∧ (0x04#8 ≠ 0x05#8) ∧ ¬ LegalWord (pseudoWord (.rdval 0x04#8)) :=
  ⟨by decide, by decide, fun h => absurd h.format (by decide)⟩

/-- STARTM: the formats either side of the legal two. -/
theorem witness_StartmCompletes :
    (0x02#8 ≠ 0x03#8 ∧ 0x02#8 ≠ 0x05#8) ∧ (0x04#8 ≠ 0x03#8 ∧ 0x04#8 ≠ 0x05#8) ∧ (0x06#8 ≠ 0x03#8 ∧ 0x06#8 ≠ 0x05#8) := by
  decide

/-- The read-shaped statements: a frame of valid Words, one with its first and one with its last Word invalid, and the two
failures of the Transport. -/
theorem witness_ReadOutcomes :
    BuffersWf (ready 0#32 0#32 [ok, data frameF]) ∧ frameF.length = 60 ∧
      (ready 0#32 0#32 [ok, data frameF]).env = .answer .done :: .answer (.bytes frameF) :: [] ∧
      (∀ k, k < 20 → wordOk (frameWord frameF k) = true) ∧
      wordOk (frameWord (frameF.set 0 0x3E#8) 0) = false ∧
      wordOk (frameWord (frameF.set 59 0x80#8) 19) = false ∧
      (∀ j, j < 19 → wordOk (frameWord (frameF.set 59 0x80#8) j) = true) ∧
      (ready 0#32 0#32 [failed]).env = .answer .error :: [] ∧
      (ready 0#32 0#32 [ok, failed]).env = .answer .done :: .answer .error :: [] := by
  refine ⟨⟨by decide +kernel, by decide +kernel⟩, ?_⟩
  decide +kernel

/-- The identity reads: lengths of the read at the smallest, an odd, an even and the largest capacity. -/
theorem witness_IdentityReads :
    (1#8 ≠ 0x00#8) ∧ ([] : List Byte).length = min (((1#8).toNat - 1) * 3 / 2) cfg.scratchMax ∧
      (List.replicate 12 0x00#8).length = min (((9#8).toNat - 1) * 3 / 2) cfg.scratchMax ∧
      (List.replicate 13 0x00#8).length = min (((10#8).toNat - 1) * 3 / 2) cfg.scratchMax ∧
      frameF.length = min (((255#8).toNat - 1) * 3 / 2) cfg.scratchMax := by decide +kernel

theorem witness_WriteShapedCommandsFrame :
    writeShaped .setaci = some 8 ∧ (∃ t, exec .setaci (ready 0x01008004#32 0#32 [ok]) = .next t) ∧
      writeShaped .stopm = some 2 ∧ (∃ t, exec .stopm (ready 0x00000104#32 0#32 []) = .next t) ∧
      writeShaped (.startm 0x04#8) = some 5 ∧ Instr.wellFormed (.startm 0x04#8) = false ∧
      ∃ t, exec (.startm 0x04#8) (ready 0x00040010#32 0#32 []) = .next t :=
  ⟨rfl, ⟨_, rfl⟩, rfl, ⟨_, rfl⟩, rfl, rfl, ⟨_, rfl⟩⟩

/-- A read that fails, one not answered, and a capacity refused. -/
theorem witness_ReadShapedCommandsFrame :
    (readShaped (ready 0x0000D100#32 0#32 [ok, failed]).cfg .rdver = some (.ver, 3) ∧
      ∃ t, exec .rdver (ready 0x0000D100#32 0#32 [ok, failed]) = .next t ∧ t.status.resKind = .none) ∧
      (∀ bs rest, (ready 0x0000D100#32 0#32 [ok]).env ≠ .answer .done :: .answer (.bytes bs) :: rest) ∧
      (∃ t, exec .rdver (ready 0x0000D100#32 0#32 [ok]) = .next t) ∧
      readShaped (ready 0x0000D002#32 0#32 []).cfg (.rdpt 0x00#8) = some (.str, 0) ∧
      Instr.wellFormed (.rdpt 0x00#8) = false ∧ ∃ t, exec (.rdpt 0x00#8) (ready 0x0000D002#32 0#32 []) = .next t :=
  ⟨⟨rfl, _, rfl, rfl⟩, fun _ _ h => (nomatch h), ⟨_, rfl⟩, by decide +kernel, rfl, ⟨_, rfl⟩⟩

theorem witness_TransmitBufferLayout :
    Instr.wellFormed .setaci = true ∧ (ready 0x01008004#32 0#32 [ok]).txbuf.wf = true ∧
      2 * 1 < (sentData (ready 0x01008004#32 0#32 [ok]) .setaci).length ∧
      ∃ t, exec .setaci (ready 0x01008004#32 0#32 [ok]) = .next t :=
  ⟨rfl, rfl, by decide +kernel, _, rfl⟩

theorem witness_ReceiveBufferLayout :
    Instr.wellFormed .rdver = true ∧ (ready 0#32 0#32 []).rxbuf.wf = true ∧
      readShaped cfg .rdver = some (.ver, [0x02#8, 0x03#8, 0x0B#8].length) ∧
      validateFrame [0x02#8, 0x03#8, 0x0B#8] (3 / 3) = .ok ∧
      validateFrame [0x02#8, 0x03#8, 0x0A#8] (3 / 3) = .checksumFailure 0 := by decide +kernel

/-- An error of each kind; the last with its first invalid Word the second. -/
theorem witness_ErrorsArePrecise :
    seen (fun t => (t.status.err, t.status.faultPhase)) (ready 0x00040010#32 0#32 []) = some (.invalidArgument, .write) ∧
      seen (fun t => (t.status.err, t.status.faultPhase)) (ready 0x00000104#32 0#32 [failed]) =
        some (.transportFailure, .write) ∧
      seen (fun t => (t.status.err, t.status.faultPhase)) (ready 0x0000D100#32 0#32 [ok, failed]) =
        some (.transportFailure, .read) ∧
      seen (fun t => (t.status.err, t.status.faultPhase)) (ready 0x0000D100#32 0#32 [ok, data [0#8, 0#8, 0#8]]) =
        some (.checksumFailure, .write) ∧
      (ready 0x00008004#32 0#32 []).rxbuf.wf = true ∧
      seen (fun t => (t.status.err, t.status.faultWord))
          (ready 0x00008004#32 0#32 [ok, data [0x00#8, 0x09#8, 0x09#8, 0x3A#8, 0x81#8, 0xA7#8]]) =
        some (.checksumFailure, 1#8) := by decide +kernel

/-- None, one and two calls. -/
theorem witness_AtMostTwoCallsInOrder :
    (∃ t, exec (.rdpt 0x00#8) (ready 0x0000D002#32 0#32 []) = .next t) ∧
      (∃ t, exec .wake (ready 0x00001103#32 0#32 [ok]) = .next t) ∧
      ∃ t, exec .rdver (ready 0x0000D100#32 0#32 [ok, failed]) = .next t := ⟨⟨_, rfl⟩, ⟨_, rfl⟩, ⟨_, rfl⟩⟩

theorem witness_EveryCommandCompletes :
    (∀ kind n, readShaped cfg .rdver = some (kind, n) → [0x02#8, 0x03#8, 0x0B#8].length = n) ∧
      (ready 0#32 0#32 [ok, data [0x02#8, 0x03#8, 0x0B#8]]).env =
        .answer .done :: .answer (.bytes [0x02#8, 0x03#8, 0x0B#8]) :: [] ∧
      (ready 0#32 0#32 [failed]).env = .answer .error :: [] ∧
      (ready 0#32 0#32 [ok, failed]).env = .answer .done :: .answer .error :: [] :=
  ⟨by rintro kind n ⟨⟩; rfl, rfl, rfl, rfl⟩

/-- A wait in TX, and one in RX. -/
theorem witness_CommandWaitsForTheTransport :
    Instr.wellFormed .fancln = true ∧ (ready 0x00005607#32 0#32 []).env = [] ∧
      readShaped (ready 0x0000D100#32 0#32 [ok]).cfg .rdver = some (.ver, 3) ∧
      (ready 0x0000D100#32 0#32 [ok]).env = [.answer .done] := by decide +kernel

/-- The strobe written at an idle block, at a waiting one, and written as 0. -/
theorem witness_GoStrobe :
    (EnvironmentMoves (idle [.host (.writeGo true)]) ∧ (idle [.host (.writeGo true)]).status.busy = false) ∧
      (EnvironmentMoves (inTx [.host (.writeGo true)]) ∧ (inTx [.host (.writeGo true)]).status.busy = true) ∧
      (EnvironmentMoves (inRx [.host (.writeGo false)]) ∧
        (inRx [.host (.writeGo false)]).env = [.host (.writeGo false)]) :=
  ⟨⟨moves_idle _, rfl⟩, ⟨moves_inTx _, rfl⟩, ⟨moves_inRx _, rfl⟩⟩

/-- A write in each resting state, one of them wider than `ARG_TMO`. -/
theorem witness_HostWritesTouchOnlyTheirRegister :
    (EnvironmentMoves (idle [.host (.writeArgTmo 0x1FF)]) ∧
        (idle [.host (.writeArgTmo 0x1FF)]).env = [.host (.writeArgTmo 0x1FF)]) ∧
      (EnvironmentMoves (inTx [.host (.writeCw 1#32)]) ∧ (inTx [.host (.writeCw 1#32)]).env = [.host (.writeCw 1#32)]) ∧
      (EnvironmentMoves (inRx [.host (.writeArgData 1#32)]) ∧
        (inRx [.host (.writeArgData 1#32)]).env = [.host (.writeArgData 1#32)]) :=
  ⟨⟨moves_idle _, rfl⟩, ⟨moves_inTx _, rfl⟩, ⟨moves_inRx _, rfl⟩⟩

/-- A register that is always readable, a result declared and one not, and the last and the first missing byte of `RS`. -/
theorem witness_HostReadsReturnTheRegister :
    EnvironmentMoves (inTx [.host (.read .status)]) ∧ resultKind .status = none ∧
      Declared { idle [] with status := Status.success .str } .str ∧ ¬ Declared (idle []) .u32 ∧
      RegisterExists (idle []) (.rs 40) ∧ ¬ RegisterExists (idle []) (.rs 41) :=
  ⟨moves_inTx _, rfl, ⟨rfl, rfl, rfl⟩, fun h => absurd h.1 (by decide +kernel),
   fun i h => by cases h; decide, fun h => absurd (h 41 rfl) (by decide)⟩

/-- A wait in TX, and one in RX. -/
theorem witness_ArgumentsAreFixedAtGo :
    (Instr.wellFormed .setaci = true ∧ (ready 0x01008004#32 0x00093A80#32 []).rst = false ∧ noHostMove [ok] ∧
      ∃ u, exec .setaci ((ready 0x01008004#32 0x00093A80#32 []).setEnv [ok]) = .next u) ∧
      readShaped (ready 0x0000D100#32 0#32 []).cfg .rdver = some (.ver, 3) ∧ noHostMove [failed] ∧
      ∃ u, exec .rdver ((ready 0x0000D100#32 0#32 []).setEnv (.answer .done :: [failed])) = .next u :=
  ⟨⟨rfl, rfl, trivial, _, rfl⟩, rfl, trivial, _, rfl⟩

/-- Two states that differ in everything an earlier command can leave, and agree on the arguments. -/
theorem witness_OutcomeDependsOnArgumentsAlone :
    BuffersWf (ready 0x0000D100#32 0#32 [ok]) ∧
      BuffersWf { ready 0x0000D100#32 0#32 [ok] with r32 := 1#32, txbuf := [(3, 0x01#8)], rxlen := 7, acc := 0x55#8 } ∧
      { ready 0x0000D100#32 0#32 [ok] with r32 := 1#32, txbuf := [(3, 0x01#8)], rxlen := 7, acc := 0x55#8 } ≠
        ready 0x0000D100#32 0#32 [ok] := by
  refine ⟨⟨by decide +kernel, by decide +kernel⟩, ⟨by decide +kernel, by decide +kernel⟩, ?_⟩
  decide +kernel

theorem witness_CommandsAgreeWithTheRom : Instr.wellFormed (.rdsn 33#8) = true := by decide

theorem witness_OneStepIsThePhasesInOrder :
    (ready 0x0000D100#32 0#32 [ok, failed]).rst = false ∧ (ready 0x0000D100#32 0#32 [ok, failed]).phase = .idle ∧
      (ready 0x0000D100#32 0#32 [ok, failed]).go = true := by decide +kernel

/-- Declared and not declared, and the last byte of the string buffer. -/
theorem witness_ResultsReadableExactlyWhenDeclared :
    resultKind .r32 = some .u32 ∧ RegisterExists (idle []) .r32 ∧ resultKind (.rs 40) = some .str ∧
      RegisterExists (idle []) (.rs 40) ∧ Declared { idle [] with status := Status.success .u32 } .u32 ∧
      ¬ Declared (idle []) .u32 :=
  ⟨rfl, fun _ h => (nomatch h), rfl, fun i h => by cases h; decide, ⟨rfl, rfl, rfl⟩,
   fun h => absurd h.1 (by decide +kernel)⟩

theorem witness_RstAbandonsTheCommand :
    (EnvironmentMoves (inTx [.host (.rst false)]) ∧ (inTx [.host (.rst false)]).env = [.host (.rst false)]) ∧
      (EnvironmentMoves (inRx [.host (.rst true)]) ∧ (inRx [.host (.rst true)]).env = [.host (.rst true)]) ∧
      EnvironmentMoves (idle [.host (.rst false)]) :=
  ⟨⟨moves_inTx _, rfl⟩, ⟨moves_inRx _, rfl⟩, moves_idle _⟩

/-- Held in reset: with nothing to come, and with each kind of move. -/
theorem witness_RstIsActiveWhileAsserted :
    (held []).rst = true ∧ (held []).env = [] ∧ (held [ok]).env = [.answer .done] ∧
      (held [.host (.writeCw 5#32)]).env = [.host (.writeCw 5#32)] ∧
      (∀ r, HostOp.writeCw 5#32 ≠ .read r) ∧ HostOp.writeCw 5#32 ≠ .rstRelease ∧
      (held []).hostRead .status = .value 0 ∧ (held []).hostRead .r32 = .refused .resultHoldsNoValue ∧
      (held [.host .rstRelease]).env = [.host .rstRelease] := by
  refine ⟨rfl, rfl, rfl, rfl, fun _ h => (nomatch h), by decide, by decide +kernel, by decide +kernel, rfl⟩

theorem inTx_string : StringTerminated (inTx [ok]) where
  whole := by decide +kernel
  shorter := by decide +kernel
  chars_nonzero := by intro i h; exact absurd h (by simp [inTx, ready, State.resetWith])
  rest_zero := by
    intro i _
    show byteAt (List.replicate 41 0x00#8) i = 0x00#8
    by_cases h : i < 41
    · rw [byteAt_eq_getElem _ _ (by simpa using h)]; simp only [List.getElem_replicate]
    · exact byteAt_of_length_le _ _ (by simpa using h)

/-- The invariant at a state that is not reset: a command waiting in `TX`, from which the step goes on. -/
theorem witness_StepKeepsTheInvariant : Inv (inTx [ok]) ∧ ∃ t, step (inTx [ok]) = .next t where
  left :=
    { rests := .inr (.inl rfl)
      busy_iff := by decide +kernel
      go_idle := by decide +kernel
      held := by decide +kernel
      status :=
        ⟨by decide +kernel, by decide +kernel, by decide +kernel, by decide +kernel, by decide +kernel, by decide +kernel⟩
      tmo := by decide +kernel
      tmo_sampled := by decide +kernel
      txbuf_wf := by decide +kernel
      txbuf_within := by decide +kernel
      txlen := by decide +kernel
      rxbuf_wf := by decide +kernel
      rxbuf_within := by decide +kernel
      rxlen := by decide +kernel
      widx := by decide +kernel
      bidx := by decide +kernel
      plan := ⟨by decide +kernel, by intro r h; exact absurd h (by simp [inTx, rowPtrOnly]),
        by intro r h; exact absurd h (by simp [inTx, rowPtrOnly])⟩
      string := inTx_string
      call := ⟨fun _ => by decide +kernel, fun h => absurd h (by decide +kernel)⟩ }
  right := ⟨_, rfl⟩

theorem witness_ParametersAndLogAreKept :
    (∃ t, step (inTx [ok]) = .next t) ∧ (∃ t, step (inTx [.host (.rst false)]) = .next t) ∧
      ∃ t, step (held [ok]) = .next t := ⟨⟨_, rfl⟩, ⟨_, rfl⟩, ⟨_, rfl⟩⟩

theorem witness_OnlyTheStrobeStartsACommand :
    (idle [ok]).phase = .idle ∧ (idle [ok]).go = false ∧ ∃ t, step (idle [ok]) = .next t := ⟨rfl, rfl, _, rfl⟩

/-- Each of the three refusals, the last while a command runs, and while one waits in TX and in RX. -/
theorem witness_RefusalsAreForbiddenReadsAndContractBreaches :
    step (idle [.host (.read .r32)]) = .refused .resultHoldsNoValue ∧
      step (idle [.host (.read (.rs 41))]) = .refused .noSuchRegister ∧
      step (ready 0x0000D100#32 0#32 [ok, ok]) = .refused .transportContract ∧
      step (inTx [data []]) = .refused .transportContract ∧
      step (inRx [data [0x02#8]]) = .refused .transportContract := ⟨rfl, rfl, rfl, rfl, rfl⟩

/-- A breach of each kind: bytes for a write, none for a read, and the wrong number of them. -/
theorem witness_ContractBreachesAreRefused :
    BreaksContract ((readShaped cfg .stopm).map Prod.snd) [data []] ∧
      BreaksContract ((readShaped cfg .rdver).map Prod.snd) [ok, data [0x02#8]] ∧
      ((inTx [data []]).rst = false ∧ (inTx [data []]).phase = .tx ∧
        BreaksContract ((inTx [data []]).plan.rx.map RxPlan.nbytes) (inTx [data []]).env) ∧
      ((inRx [ok]).rst = false ∧ (inRx [ok]).phase = .rx ∧ BreaksRead 3 (inRx [ok]).env) :=
  ⟨.inl ⟨_, _, rfl⟩, .inr ⟨3, _, rfl, rfl, .inr ⟨_, _, rfl, by decide⟩⟩, ⟨rfl, rfl, .inl ⟨_, _, rfl⟩⟩,
   ⟨rfl, rfl, .inl ⟨_, rfl⟩⟩⟩

end Sys2Proof.Tests
end

section
/-! Every command is its row of the command ROM run from the state in which `GO` was accepted, or is refused for its
operand; and what the rows hold. -/

namespace Sys2Proof.Machine

open Sys2Proof Sys2Proof.Safety Sys2Proof.Claims

/-! ### Commands and rows -/

/-- R201, R211, R212, R241: an illegal operand ends the command before anything is built. -/
theorem exec_of_not_wellFormed (i : Instr) (s : State) (h : i.wellFormed = false) :
    exec i s = .next (s.accept.raise .invalidArgument) := by
  cases i with
  | startm fmt =>
    have hf : fmt ≠ fmtF32 ∧ fmt ≠ fmtU16 := by simpa [Instr.wellFormed, fmtLegal, fmtF32, fmtU16] using h
    exact if_pos hf
  | rdpt cap => exact if_pos (by simpa [Instr.wellFormed, capLegal] using h)
  | rdsn cap => exact if_pos (by simpa [Instr.wellFormed, capLegal] using h)
  | _ => cases h

/-- R40, R96: with legal operands a command is its row, with the arguments as `GO` sampled them. -/
theorem exec_of_wellFormed (i : Instr) (s : State) (h : i.wellFormed = true) :
    exec i s = execPlan (romRow s.cfg s.accept.samp i) s.accept := by
  cases i with
  | startm fmt =>
    have hf : ¬ (fmt ≠ fmtF32 ∧ fmt ≠ fmtU16) := by
      rintro ⟨h3, h5⟩
      simp_all [Instr.wellFormed, fmtLegal, fmtF32, fmtU16]
    exact if_neg hf
  | rdpt cap => exact if_neg (by simpa [Instr.wellFormed, capLegal] using h)
  | rdsn cap => exact if_neg (by simpa [Instr.wellFormed, capLegal] using h)
  | _ => rfl

/-- The command's write is made, and it waits in `TX` (R136, R137): the state from which a row goes on. -/
def State.launch (s : State) (i : Instr) : State :=
  (s.accept.build (romRow s.cfg s.accept.samp i)).issueWrite

/-- The bytes a command's write carries, as they stand in `TXBUF` (R51, R137). -/
def State.sentBytes (s : State) (i : Instr) : List Byte := memRead (s.launch i).txbuf 0 (s.launch i).txlen

theorem exec_eq_awaitWrite (i : Instr) (s : State) (h : i.wellFormed = true) :
    exec i s = (s.launch i).awaitWrite := exec_of_wellFormed i s h

/-- What a command can come to: the refusal of its operand, or what its write is answered. -/
theorem exec_next (i : Instr) (s t : State) (h : exec i s = .next t) :
    (i.wellFormed = false ∧ t = s.accept.raise .invalidArgument) ∨
    (i.wellFormed = true ∧ (s.launch i).awaitWrite = .next t) := by
  cases hw : i.wellFormed with
  | false =>
    rw [exec_of_not_wellFormed i s hw] at h
    injection h with h
    exact .inl ⟨rfl, h.symm⟩
  | true => exact .inr ⟨rfl, by rw [← exec_eq_awaitWrite i s hw, h]⟩

section Launch
variable (s : State) (i : Instr)

@[simp] theorem State.launch_env : (s.launch i).env = s.env := rfl
@[simp] theorem State.launch_cfg : (s.launch i).cfg = s.cfg := rfl
@[simp] theorem State.launch_go : (s.launch i).go = false := rfl
@[simp] theorem State.launch_rst : (s.launch i).rst = s.rst := rfl
@[simp] theorem State.launch_phase : (s.launch i).phase = .tx := rfl
@[simp] theorem State.launch_status : (s.launch i).status = Status.atGo := rfl
@[simp] theorem State.launch_samp :
    (s.launch i).samp = { cw := s.cw, argData := s.argData, argTmo := s.argTmo } := rfl
@[simp] theorem State.launch_plan :
    (s.launch i).plan = romRow s.cfg { cw := s.cw, argData := s.argData, argTmo := s.argTmo } i := rfl
@[simp] theorem State.launch_rxbuf : (s.launch i).rxbuf = s.rxbuf := rfl
@[simp] theorem State.launch_rxlen : (s.launch i).rxlen = s.rxlen := rfl
@[simp] theorem State.launch_widx : (s.launch i).widx = s.widx := rfl
@[simp] theorem State.launch_txbuf :
    (s.launch i).txbuf = memWrite s.txbuf 0 (encPtrData (s.launch i).plan.opc (s.launch i).plan.data) := rfl
@[simp] theorem State.launch_txlen :
    (s.launch i).txlen = (encPtrData (s.launch i).plan.opc (s.launch i).plan.data).length := rfl
@[simp] theorem State.launch_acc : (s.launch i).acc = lastChecksum s.acc (s.launch i).plan.data := rfl
theorem State.launch_calls :
    (s.launch i).calls = s.calls ++ [.write s.cfg.devAddr (s.sentBytes i) s.argTmo] := rfl

theorem State.sentBytes_length : (s.sentBytes i).length =
    (encPtrData (s.launch i).plan.opc (s.launch i).plan.data).length := memRead_length _ _ _

theorem State.launch_argumentsKept : ArgumentsKept s (s.launch i) := ⟨rfl, rfl, rfl, rfl, rfl, rfl, rfl, rfl⟩

theorem State.launch_resultsKept (k : ResKind) : ResultsKeptBut k s (s.launch i) :=
  ⟨fun _ => rfl, fun _ => rfl, fun _ => rfl, fun _ => rfl, fun _ => rfl, fun _ => rfl, fun _ => rfl, fun _ => rfl⟩

end Launch

/-! ### What the rows hold -/

/-- The result kind of a decoder's registers (R96, R155). -/
def Decoder.kind : Decoder → ResKind
  | .u16 => .u16
  | .f32set => .f32x10
  | .u16set => .u16x10
  | .u32 => .u32
  | .ver => .ver
  | .ascii _ => .str

theorem Decoder.kind_ne_none (d : Decoder) : d.kind ≠ .none := by cases d <;> exact nofun

/-- R57, R96: the read-shaped commands are those whose row has a read, of that kind and of so many bytes. -/
theorem readShaped_eq_romRow (c : Config) (a : Sampled) (i : Instr) :
    readShaped c i = (romRow c a i).rx.map fun r => (r.kind, r.nbytes) := by cases i <;> rfl

/-- R96: the read of a row is decoded into the registers of the row's own kind, and holds as many Words as fit. -/
theorem romRow_rx (c : Config) (a : Sampled) (i : Instr) (r : RxPlan) (h : (romRow c a i).rx = some r) :
    r.kind = r.dec.kind ∧ r.words = r.nbytes / 3 := by
  cases i <;> cases h <;> exact ⟨rfl, rfl⟩

/-- R57, R96: the read that a read-shaped command makes. -/
theorem romRow_of_readShaped (c : Config) (a : Sampled) (i : Instr) (kind : ResKind) (n : Nat)
    (h : readShaped c i = some (kind, n)) :
    ∃ r, (romRow c a i).rx = some r ∧ r.dec.kind = kind ∧ r.nbytes = n ∧ r.words = n / 3 ∧ r.kind = kind := by
  rw [readShaped_eq_romRow c a, Option.map_eq_some_iff] at h
  obtain ⟨r, hr, he⟩ := h
  obtain ⟨rfl, rfl⟩ := Prod.mk.inj he
  obtain ⟨hk, hw⟩ := romRow_rx c a i r hr
  exact ⟨r, hr, hk.symm, rfl, hw, rfl⟩

/-- R56, R96: a write-shaped command has no read and sends the bytes it stores. -/
theorem romRow_of_writeShaped (c : Config) (a : Sampled) (i : Instr) (n : Nat) (h : writeShaped i = some n) :
    (romRow c a i).rx = none ∧ (encPtrData (romRow c a i).opc (romRow c a i).data).length = n ∧
      (n = 2 → (romRow c a i).data = []) := by
  cases i with
  | startm fmt => cases h; exact ⟨rfl, rfl, nofun⟩
  | setaci => cases h; exact ⟨rfl, rfl, nofun⟩
  | _ => cases h <;> exact ⟨rfl, rfl, fun _ => rfl⟩

/-- R56: a frame has 2, 5 or 8 bytes, and 2 when a read follows it. -/
theorem romRow_frame_length (c : Config) (a : Sampled) (i : Instr) :
    (encPtrData (romRow c a i).opc (romRow c a i).data).length = 2 ∨
    ((romRow c a i).rx = none ∧ ((encPtrData (romRow c a i).opc (romRow c a i).data).length = 5 ∨
      (encPtrData (romRow c a i).opc (romRow c a i).data).length = 8)) := by
  cases i with
  | startm fmt => exact .inr ⟨rfl, .inl rfl⟩
  | setaci => exact .inr ⟨rfl, .inr rfl⟩
  | _ => exact .inl rfl

theorem romRow_frame_length_of_read (c : Config) (a : Sampled) (i : Instr) (r : RxPlan)
    (h : (romRow c a i).rx = some r) : (encPtrData (romRow c a i).opc (romRow c a i).data).length = 2 := by
  rcases romRow_frame_length c a i with h2 | ⟨hn, -⟩
  · exact h2
  · rw [hn] at h; cases h

/-- R63, R157: the read of a row fits `RXBUF`. -/
theorem romRow_read_fits (c : Config) (a : Sampled) (i : Instr) (r : RxPlan) (h : (romRow c a i).rx = some r) :
    r.nbytes ≤ c.scratchMax ∧ r.nbytes ≤ 381 := by
  have hid : ∀ cap, idNbytes c cap ≤ c.scratchMax ∧ idNbytes c cap ≤ 381 := by
    intro cap
    have := cap.isLt
    simp only [idNbytes]
    omega
  have hfix : ∀ n, n ≤ 60 → n ≤ c.scratchMax ∧ n ≤ 381 := by
    intro n hn
    simp only [Config.scratchMax]
    omega
  cases i with
  | rdpt cap => cases h; exact hid cap
  | rdsn cap => cases h; exact hid cap
  | _ => cases h <;> exact hfix _ (by decide)

/-- R51, R57, R63, R157: every row fits the buffers. -/
theorem romRow_fits (c : Config) (a : Sampled) (i : Instr) : PlanFits c (romRow c a i) where
  data_fits := by
    rcases romRow_frame_length c a i with h | ⟨-, h | h⟩ <;> omega
  read_fits r h := (romRow_read_fits c a i r h).1
  words_fit r h := by
    have hn := romRow_read_fits c a i r h
    have hw := (romRow_rx c a i r h).2
    omega

end Sys2Proof.Machine
end

section
/-! `STATUS` bit by bit (R35), which results it declares (R31), and what a host read answers. -/

namespace Sys2Proof.Machine

open Sys2Proof Sys2Proof.Safety Sys2Proof.Claims

/-! ### STATUS -/

/-- R35: the bits of `STATUS`, from `BUSY` in bit 0 up to `FAULT_WORD`. -/
theorem Status.word_getLsbD (st : Status) (j : Nat) :
    st.word.getLsbD j =
      if j < 1 then (BitVec.ofBool st.busy).getLsbD j
      else if j - 1 < 1 then (BitVec.ofBool st.done).getLsbD (j - 1)
      else if j - 1 - 1 < 2 then (errCode st.err).getLsbD (j - 1 - 1)
      else if j - 1 - 1 - 2 < 3 then (resCode st.resKind).getLsbD (j - 1 - 1 - 2)
      else if j - 1 - 1 - 2 - 3 < 1 then (callPhaseCode st.faultPhase).getLsbD (j - 1 - 1 - 2 - 3)
      else st.faultWord.getLsbD (j - 1 - 1 - 2 - 3 - 1) := by
  unfold Status.word
  rw [BitVec.getLsbD_append, BitVec.getLsbD_append, BitVec.getLsbD_append, BitVec.getLsbD_append,
    BitVec.getLsbD_append]

theorem Status.word_busy (st : Status) : st.word.getLsbD 0 = st.busy := by
  rw [Status.word_getLsbD]; simp

theorem Status.word_done (st : Status) : st.word.getLsbD 1 = st.done := by
  rw [Status.word_getLsbD]; simp

theorem Status.word_err (st : Status) : st.word.extractLsb' 2 2 = errCode st.err := by
  apply BitVec.eq_of_getLsbD_eq
  intro j hj
  rw [BitVec.getLsbD_extractLsb', Status.word_getLsbD, if_neg (by omega), if_neg (by omega), if_pos (by omega),
    show 2 + j - 1 - 1 = j by omega]
  simp [hj]

theorem Status.word_resKind (st : Status) : st.word.extractLsb' 4 3 = resCode st.resKind := by
  apply BitVec.eq_of_getLsbD_eq
  intro j hj
  rw [BitVec.getLsbD_extractLsb', Status.word_getLsbD, if_neg (by omega), if_neg (by omega), if_neg (by omega),
    if_pos (by omega), show 4 + j - 1 - 1 - 2 = j by omega]
  simp [hj]

theorem Status.word_faultPhase (st : Status) : st.word.extractLsb' 7 1 = callPhaseCode st.faultPhase := by
  apply BitVec.eq_of_getLsbD_eq
  intro j hj
  rw [BitVec.getLsbD_extractLsb', Status.word_getLsbD, if_neg (by omega), if_neg (by omega), if_neg (by omega),
    if_neg (by omega), if_pos (by omega), show 7 + j - 1 - 1 - 2 - 3 = j by omega]
  simp [hj]

theorem Status.word_faultWord (st : Status) : st.word.extractLsb' 8 8 = st.faultWord := by
  apply BitVec.eq_of_getLsbD_eq
  intro j hj
  rw [BitVec.getLsbD_extractLsb', Status.word_getLsbD, if_neg (by omega), if_neg (by omega), if_neg (by omega),
    if_neg (by omega), if_neg (by omega), show 8 + j - 1 - 1 - 2 - 3 - 1 = j by omega]
  simp [hj]

/-! ### Host reads -/

/-- R31: which register is a result register is told by its kind, which is never `NONE`. -/
theorem resultKind_ne_none (r : HostReg) (k : ResKind) (h : resultKind r = some k) : k ≠ .none := by
  cases r <;> cases h <;> exact nofun

theorem registerExists_of_ne_rs (s : State) (r : HostReg) (h : ∀ i, r ≠ .rs i) : RegisterExists s r :=
  fun i hi => absurd hi (h i)

theorem registerExists_rs (s : State) (i : Nat) : RegisterExists s (.rs i) ↔ i < s.cfg.strMax :=
  ⟨fun h => h i rfl, fun h j hj => by cases hj; exact h⟩

theorem declared_iff (s : State) (k : ResKind) : Declared s k ↔ s.status.declares k = true :=
  (Status.declares_iff s.status k).symm

/-- R21: a register that is no result register reads as it stands. -/
theorem State.hostRead_of_argument (s : State) (r : HostReg) (h : resultKind r = none) :
    s.hostRead r = .value (registerValue s r) := by
  cases r <;> cases h <;> rfl

/-- R31: a result register that exists is read under the rule of its kind. -/
theorem State.hostRead_of_result (s : State) (r : HostReg) (k : ResKind) (h : resultKind r = some k)
    (he : RegisterExists s r) : s.hostRead r = s.readResult k (registerValue s r) := by
  cases r with
  | rs i => cases h; exact if_pos ((registerExists_rs s i).mp he)
  | _ => cases h <;> rfl

/-- R21: a byte of `RS` beyond `STR_MAX` is no register. -/
theorem State.hostRead_of_not_exists (s : State) (r : HostReg) (he : ¬ RegisterExists s r) :
    s.hostRead r = .refused .noSuchRegister := by
  cases r with
  | rs i => exact if_neg fun hi => he ((registerExists_rs s i).mpr hi)
  | _ => exact absurd (registerExists_of_ne_rs s _ (by simp)) he

theorem State.hostRead_of_declared (s : State) (r : HostReg) (k : ResKind) (h : resultKind r = some k)
    (he : RegisterExists s r) (hd : Declared s k) : s.hostRead r = .value (registerValue s r) := by
  rw [State.hostRead_of_result s r k h he, State.readResult, if_pos ((declared_iff s k).mp hd)]

theorem State.hostRead_of_not_declared (s : State) (r : HostReg) (k : ResKind) (h : resultKind r = some k)
    (he : RegisterExists s r) (hd : ¬ Declared s k) : s.hostRead r = .refused .resultHoldsNoValue := by
  rw [State.hostRead_of_result s r k h he, State.readResult, if_neg fun hv => hd ((declared_iff s k).mpr hv)]

/-- A host read is refused for one of two reasons: `STATUS` does not declare the result (R31), or the block has no such
byte of `RS` (R21). -/
theorem State.hostRead_refused_cases (s : State) (r : HostReg) (e : Refusal) (h : s.hostRead r = .refused e) :
    (e = .resultHoldsNoValue ∧ ∃ k, resultKind r = some k ∧ ¬ Declared s k) ∨
    (e = .noSuchRegister ∧ ¬ RegisterExists s r) := by
  by_cases he : RegisterExists s r
  · cases hk : resultKind r with
    | none => rw [State.hostRead_of_argument s r hk] at h; cases h
    | some k =>
      by_cases hd : Declared s k
      · rw [State.hostRead_of_declared s r k hk he hd] at h; cases h
      · rw [State.hostRead_of_not_declared s r k hk he hd] at h
        cases h
        exact .inl ⟨rfl, k, rfl, hd⟩
  · rw [State.hostRead_of_not_exists s r he] at h
    cases h
    exact .inr ⟨rfl, he⟩

/-- R31: a status that is not done, or records an error, or names no kind, declares no result. -/
theorem not_declared (s : State) (k : ResKind) (hk : k ≠ .none)
    (h : s.status.done = false ∨ s.status.err ≠ .ok ∨ s.status.resKind = .none) : ¬ Declared s k := by
  rintro ⟨hd, he, hr⟩
  rcases h with h | h | h
  · rw [hd] at h; cases h
  · exact h he
  · exact hk (hr.symm.trans h)

theorem noResult_of_status (s : State)
    (h : s.status.done = false ∨ s.status.err ≠ .ok ∨ s.status.resKind = .none) : NoResult s := by
  intro r k hr v hv
  by_cases he : RegisterExists s r
  · rw [State.hostRead_of_not_declared s r k hr he (not_declared s k (resultKind_ne_none r k hr) h)] at hv
    cases hv
  · rw [State.hostRead_of_not_exists s r he] at hv
    cases hv

theorem Status.raised_err_ne_ok (e : Raised) : (Status.raised e).err ≠ .ok := by cases e <;> exact nofun

end Sys2Proof.Machine

/-! ### The statements about `STATUS`, the results and reset -/

namespace Sys2Proof.Proofs

open Sys2Proof Sys2Proof.Machine Sys2Proof.Safety Sys2Proof.Claims

/-- Settles O44, field by field. -/
theorem statusWordLayout : Obligations.StatusWordLayout := by
  intro st
  exact ⟨st.word_busy, st.word_done, st.word_err, st.word_resKind, st.word_faultPhase, st.word_faultWord,
    ⟨rfl, rfl, rfl, rfl⟩, ⟨rfl, rfl⟩, rfl, rfl, rfl, rfl, rfl, rfl, rfl⟩

/-- Settles O45: a read of a result register is answered exactly as `STATUS` declares its kind. -/
theorem resultsReadableExactlyWhenDeclared : Obligations.ResultsReadableExactlyWhenDeclared := by
  intro s r k hk he
  have hgo : ¬ Declared s.accept k := not_declared s.accept k (resultKind_ne_none r k hk) (.inl rfl)
  refine ⟨fun v => ?_, State.hostRead_of_not_declared s r k hk he, rfl,
    State.hostRead_of_not_declared s.accept r k hk he hgo⟩
  by_cases hd : Declared s k
  · simp [State.hostRead_of_declared s r k hk he hd, hd, eq_comm]
  · simp [State.hostRead_of_not_declared s r k hk he hd, hd]

/-- Settles O46: the reset status is not done, so it declares nothing. -/
theorem resetLeavesNothingReadable : Obligations.ResetLeavesNothingReadable :=
  ⟨rfl, rfl, rfl, noResult_of_status State.reset (.inl rfl)⟩

/-- Settles O42: the operand is legal, so the command's own check passes and its row is run. -/
theorem commandsAgreeWithTheRom : Obligations.CommandsAgreeWithTheRom := exec_of_wellFormed

end Sys2Proof.Proofs
end

section
/-! The frame of a command: what waiting for the Transport, and what the Transport's answers, leave unchanged. -/

namespace Sys2Proof.Machine

open Sys2Proof Sys2Proof.Safety Sys2Proof.Claims

/-! ### The relations of the frame -/

/-- The arguments are kept by an update that names none of them (each equation is then true by definition). -/
theorem argumentsKept_of_eq {s t : State} (cfg : t.cfg = s.cfg := by rfl) (cw : t.cw = s.cw := by rfl)
    (argData : t.argData = s.argData := by rfl) (argTmo : t.argTmo = s.argTmo := by rfl)
    (crcB0 : t.crcB0 = s.crcB0 := by rfl) (crcB1 : t.crcB1 = s.crcB1 := by rfl) (rst : t.rst = s.rst := by rfl)
    (rdata : t.rdata = s.rdata := by rfl) : ArgumentsKept s t := ⟨cfg, cw, argData, argTmo, crcB0, crcB1, rst, rdata⟩

theorem argumentsKept_trans {s t u : State} (h : ArgumentsKept s t) (g : ArgumentsKept t u) : ArgumentsKept s u :=
  ⟨g.cfg.trans h.cfg, g.cw.trans h.cw, g.argData.trans h.argData, g.argTmo.trans h.argTmo, g.crcB0.trans h.crcB0,
    g.crcB1.trans h.crcB1, g.rst.trans h.rst, g.rdata.trans h.rdata⟩

/-- The results are kept by an update that names none of them. -/
theorem resultsKept_of_eq {s t : State} (k : ResKind) (rf : t.rf = s.rf := by rfl) (ru : t.ru = s.ru := by rfl)
    (r32 : t.r32 = s.r32 := by rfl) (r16 : t.r16 = s.r16 := by rfl) (rvMajor : t.rvMajor = s.rvMajor := by rfl)
    (rvMinor : t.rvMinor = s.rvMinor := by rfl) (rs : t.rs = s.rs := by rfl) (rsLen : t.rsLen = s.rsLen := by rfl) :
    ResultsKeptBut k s t :=
  ⟨fun _ => rf, fun _ => ru, fun _ => r32, fun _ => r16, fun _ => rvMajor, fun _ => rvMinor, fun _ => rs,
    fun _ => rsLen⟩

theorem resultsKept_trans {k : ResKind} {s t u : State} (h : ResultsKeptBut k s t) (g : ResultsKeptBut k t u) :
    ResultsKeptBut k s u :=
  ⟨fun n => (g.rf n).trans (h.rf n), fun n => (g.ru n).trans (h.ru n), fun n => (g.r32 n).trans (h.r32 n),
    fun n => (g.r16 n).trans (h.r16 n), fun n => (g.rvMajor n).trans (h.rvMajor n),
    fun n => (g.rvMinor n).trans (h.rvMinor n), fun n => (g.rs n).trans (h.rs n),
    fun n => (g.rsLen n).trans (h.rsLen n)⟩

/-- When no result at all is written, those of every kind are kept. -/
theorem resultsKept_of_none {s t : State} (k : ResKind) (h : ResultsKeptBut .none s t) : ResultsKeptBut k s t :=
  ⟨fun _ => h.rf nofun, fun _ => h.ru nofun, fun _ => h.r32 nofun, fun _ => h.r16 nofun, fun _ => h.rvMajor nofun,
    fun _ => h.rvMinor nofun, fun _ => h.rs nofun, fun _ => h.rsLen nofun⟩

/-- What no answer of the Transport changes: the argument registers and the sampled arguments, the strobe, the selected
row, and the transmit side. -/
structure WaitKeeps (s t : State) : Prop where
  arguments : ArgumentsKept s t
  go : t.go = s.go
  samp : t.samp = s.samp
  plan : t.plan = s.plan
  txbuf : t.txbuf = s.txbuf
  txlen : t.txlen = s.txlen

/-- The receive side stands as it was (R33, R39). -/
structure ReceiveKept (s t : State) : Prop where
  rxbuf : t.rxbuf = s.rxbuf
  rxlen : t.rxlen = s.rxlen
  widx : t.widx = s.widx

/-! ### The end of a read -/

/-- R155: delivering results touches the result registers, and `bidx` of a string. -/
theorem State.deliver_argumentsKept (s : State) (r : RxPlan) : ArgumentsKept s (s.deliver r) :=
  ⟨s.deliver_cfg r, s.deliver_cw r, s.deliver_argData r, s.deliver_argTmo r, s.deliver_crcB0 r, s.deliver_crcB1 r,
    s.deliver_rst r, s.deliver_rdata r⟩

/-- R155: a read ends by delivering its results or by raising a checksum failure, and touches only the receive side, the
result registers and `STATUS` in doing so. -/
theorem State.finishRead_waitKeeps (s : State) (r : RxPlan) (bs : List Byte) : WaitKeeps s (s.finishRead r bs) := by
  rcases State.finishRead_cases s r bs with ⟨-, h⟩ | ⟨k, -, h⟩ <;> rw [h]
  · let x := (s.receive bs).validate r
    have hx : ArgumentsKept s x := argumentsKept_of_eq
    have hc : ArgumentsKept (x.deliver r) ((x.deliver r).completeOk r.kind) := argumentsKept_of_eq
    exact ⟨argumentsKept_trans hx (argumentsKept_trans (x.deliver_argumentsKept r) hc), x.deliver_go r,
      x.deliver_samp r, x.deliver_plan r, x.deliver_txbuf r, x.deliver_txlen r⟩
  · exact ⟨argumentsKept_of_eq, rfl, rfl, rfl, rfl, rfl⟩

@[simp] theorem State.finishRead_phase (s : State) (r : RxPlan) (bs : List Byte) :
    (s.finishRead r bs).phase = .idle := by
  rcases State.finishRead_cases s r bs with ⟨-, h⟩ | ⟨k, -, h⟩ <;> rw [h] <;> rfl

@[simp] theorem State.finishRead_env (s : State) (r : RxPlan) (bs : List Byte) : (s.finishRead r bs).env = s.env := by
  rcases State.finishRead_cases s r bs with ⟨-, h⟩ | ⟨k, -, h⟩ <;> rw [h] <;> simp

@[simp] theorem State.finishRead_calls (s : State) (r : RxPlan) (bs : List Byte) :
    (s.finishRead r bs).calls = s.calls := by
  rcases State.finishRead_cases s r bs with ⟨-, h⟩ | ⟨k, -, h⟩ <;> rw [h] <;> simp

/-- R52: the received bytes are in `RXBUF`, whether or not they are valid. -/
@[simp] theorem State.finishRead_rxbuf (s : State) (r : RxPlan) (bs : List Byte) :
    (s.finishRead r bs).rxbuf = memWrite s.rxbuf 0 bs := by
  rcases State.finishRead_cases s r bs with ⟨-, h⟩ | ⟨k, -, h⟩ <;> rw [h] <;> simp

@[simp] theorem State.finishRead_rxlen (s : State) (r : RxPlan) (bs : List Byte) :
    (s.finishRead r bs).rxlen = bs.length := by
  rcases State.finishRead_cases s r bs with ⟨-, h⟩ | ⟨k, -, h⟩ <;> rw [h] <;> simp

/-- R33: where the word loop left `widx`. -/
@[simp] theorem State.finishRead_widx (s : State) (r : RxPlan) (bs : List Byte) :
    (s.finishRead r bs).widx = checkIndex r.words ((s.receive bs).frameCheck r) := by
  rcases State.finishRead_cases s r bs with ⟨-, h⟩ | ⟨k, -, h⟩ <;> rw [h] <;> simp

/-- R155, R190: a decoder writes the registers of its own kind alone. -/
theorem State.deliver_resultsKept (s : State) (r : RxPlan) : ResultsKeptBut r.dec.kind s (s.deliver r) where
  rf h := State.deliver_rf_ne s r fun hd => h (by rw [hd]; rfl)
  ru h := State.deliver_ru_ne s r fun hd => h (by rw [hd]; rfl)
  r32 h := State.deliver_r32_ne s r fun hd => h (by rw [hd]; rfl)
  r16 h := State.deliver_r16_ne s r fun hd => h (by rw [hd]; rfl)
  rvMajor h := State.deliver_rvMajor_ne s r fun hd => h (by rw [hd]; rfl)
  rvMinor h := State.deliver_rvMinor_ne s r fun hd => h (by rw [hd]; rfl)
  rs h := State.deliver_rs_ne s r fun _ hd => h (by rw [hd]; rfl)
  rsLen h := State.deliver_rsLen_ne s r fun _ hd => h (by rw [hd]; rfl)

/-- R155: a read writes the results of its own kind, and none when it ends without a result. -/
theorem State.finishRead_resultsKept (s : State) (r : RxPlan) (bs : List Byte) (hk : r.kind = r.dec.kind) :
    ResultsKeptBut r.dec.kind s (s.finishRead r bs) ∧
      ((s.finishRead r bs).status.resKind = .none → ResultsKeptBut .none s (s.finishRead r bs)) := by
  rcases State.finishRead_cases s r bs with ⟨-, h⟩ | ⟨k, -, h⟩
  · rw [h]
    refine ⟨?_, fun hn => absurd (hk.symm.trans hn) r.dec.kind_ne_none⟩
    obtain ⟨h1, h2, h3, h4, h5, h6, h7, h8⟩ := State.deliver_resultsKept ((s.receive bs).validate r) r
    exact ⟨h1, h2, h3, h4, h5, h6, h7, h8⟩
  · rw [h]
    have hn : ResultsKeptBut .none s (((s.receive bs).validate r).raise (.checksumFailure k)) := resultsKept_of_eq _
    exact ⟨resultsKept_of_none _ hn, fun _ => hn⟩

/-! ### Waiting for the Transport -/

theorem State.setEnv_raise_waitKeeps (s : State) (rest : List Event) (e : Raised) :
    WaitKeeps s ((s.setEnv rest).raise e) := ⟨argumentsKept_of_eq, rfl, rfl, rfl, rfl, rfl⟩

theorem State.awaitRead_waitKeeps (s t : State) (r : RxPlan) (h : s.awaitRead r = .next t) : WaitKeeps s t := by
  rcases State.awaitRead_next s t r h with ⟨rfl, -⟩ | ⟨rest, -, rfl⟩ | ⟨bs, rest, -, -, rfl⟩
  · exact ⟨argumentsKept_of_eq, rfl, rfl, rfl, rfl, rfl⟩
  · exact State.setEnv_raise_waitKeeps s rest _
  · obtain ⟨ha, h1, h2, h3, h4, h5⟩ := State.finishRead_waitKeeps (s.setEnv rest) r bs
    exact ⟨argumentsKept_trans (t := s.setEnv rest) argumentsKept_of_eq ha, h1, h2, h3, h4, h5⟩

theorem State.awaitWrite_waitKeeps (s t : State) (h : s.awaitWrite = .next t) : WaitKeeps s t := by
  rcases State.awaitWrite_next s t h with ⟨rfl, -⟩ | ⟨rest, -, rfl⟩ | ⟨rest, -, -, rfl⟩ | ⟨r, rest, -, -, h⟩
  · exact ⟨argumentsKept_of_eq, rfl, rfl, rfl, rfl, rfl⟩
  · exact State.setEnv_raise_waitKeeps s rest _
  · exact ⟨argumentsKept_of_eq, rfl, rfl, rfl, rfl, rfl⟩
  · obtain ⟨ha, h1, h2, h3, h4, h5⟩ := State.awaitRead_waitKeeps _ t r h
    exact ⟨argumentsKept_trans (t := (s.setEnv rest).issueRead r) argumentsKept_of_eq ha, h1, h2, h3, h4, h5⟩

theorem State.awaitRead_resultsKept (s t : State) (r : RxPlan) (hk : r.kind = r.dec.kind)
    (h : s.awaitRead r = .next t) :
    ResultsKeptBut r.dec.kind s t ∧ (t.status.resKind = .none → ResultsKeptBut .none s t) := by
  rcases State.awaitRead_next s t r h with ⟨rfl, -⟩ | ⟨rest, -, rfl⟩ | ⟨bs, rest, -, -, rfl⟩
  · exact ⟨resultsKept_of_eq _, fun _ => resultsKept_of_eq _⟩
  · exact ⟨resultsKept_of_eq _, fun _ => resultsKept_of_eq _⟩
  · obtain ⟨h1, h2⟩ := State.finishRead_resultsKept (s.setEnv rest) r bs hk
    have henv (k : ResKind) : ResultsKeptBut k s (s.setEnv rest) := resultsKept_of_eq k
    exact ⟨resultsKept_trans (henv _) h1, fun hn => resultsKept_trans (henv _) (h2 hn)⟩

/-- R39, R57: the receive side changes only when the read is answered with bytes. -/
theorem State.awaitRead_receive (s t : State) (r : RxPlan) (h : s.awaitRead r = .next t) :
    ReceiveKept s t ∨ ∃ bs rest, s.env = .answer (.bytes bs) :: rest ∧ bs.length = r.nbytes ∧
      t.rxbuf = memWrite s.rxbuf 0 bs := by
  rcases State.awaitRead_next s t r h with ⟨rfl, -⟩ | ⟨rest, -, rfl⟩ | ⟨bs, rest, he, hl, rfl⟩
  · exact .inl ⟨rfl, rfl, rfl⟩
  · exact .inl ⟨rfl, rfl, rfl⟩
  · exact .inr ⟨bs, rest, he, hl, by rw [State.finishRead_rxbuf, State.setEnv_rxbuf]⟩

theorem State.awaitRead_calls (s t : State) (r : RxPlan) (h : s.awaitRead r = .next t) : t.calls = s.calls := by
  rcases State.awaitRead_next s t r h with ⟨rfl, -⟩ | ⟨rest, -, rfl⟩ | ⟨bs, rest, -, -, rfl⟩ <;> simp

/-- R137, R138: after its write a command makes no call, or the one read of its row. -/
theorem State.awaitWrite_calls (s t : State) (h : s.awaitWrite = .next t) :
    t.calls = s.calls ∨
      ∃ r, s.plan.rx = some r ∧ t.calls = s.calls ++ [.read s.cfg.devAddr r.nbytes s.samp.argTmo] := by
  rcases State.awaitWrite_next s t h with ⟨rfl, -⟩ | ⟨rest, -, rfl⟩ | ⟨rest, -, -, rfl⟩ | ⟨r, rest, -, hr, h⟩
  · exact .inl rfl
  · exact .inl rfl
  · exact .inl rfl
  · exact .inr ⟨r, hr, State.awaitRead_calls _ t r h⟩

/-! ### The command as a whole -/

theorem State.accept_raise_argumentsKept (s : State) (e : Raised) : ArgumentsKept s (s.accept.raise e) :=
  argumentsKept_of_eq

/-- R276: no command touches the argument registers, the CRC port or the host's last read. -/
theorem exec_argumentsKept (i : Instr) (s t : State) (h : exec i s = .next t) : ArgumentsKept s t := by
  rcases exec_next i s t h with ⟨-, rfl⟩ | ⟨-, h⟩
  · exact s.accept_raise_argumentsKept _
  · exact argumentsKept_trans (s.launch_argumentsKept i) (State.awaitWrite_waitKeeps _ t h).arguments

/-- R137: a write-shaped command ends where it waits, in a failed write, or complete. -/
theorem State.awaitWrite_next_of_no_read (s t : State) (hn : s.plan.rx = none) (h : s.awaitWrite = .next t) :
    t = s ∨ (∃ rest, t = (s.setEnv rest).raise (.transportFailure .write)) ∨
      ∃ rest, t = (s.setEnv rest).completeOk .none := by
  rcases State.awaitWrite_next s t h with ⟨rfl, -⟩ | ⟨rest, -, rfl⟩ | ⟨rest, -, -, rfl⟩ | ⟨r, rest, -, hr, -⟩
  · exact .inl rfl
  · exact .inr (.inl ⟨rest, rfl⟩)
  · exact .inr (.inr ⟨rest, rfl⟩)
  · rw [hn] at hr; cases hr

/-- R51: a command stores its frame in `TXBUF` from address 0 and leaves the rest of the buffer. -/
theorem State.launch_txbuf_kept (s : State) (i : Instr) :
    BufferKeptBeyond (encPtrData (s.launch i).plan.opc (s.launch i).plan.data).length s.txbuf (s.launch i).txbuf :=
  fun a ha => memWrite_read_outside s.txbuf 0 _ a (.inr ((Nat.zero_add _).trans_le ha))

/-- What a write-shaped command leaves of the results, the receive side and the accumulator once its write is made. -/
theorem State.awaitWrite_frame_of_no_read (s t : State) (hn : s.plan.rx = none) (h : s.awaitWrite = .next t) :
    ResultsKeptBut .none s t ∧ ReceiveKept s t ∧ t.acc = s.acc ∧ (t.status.resKind = .none ∨ t.status = s.status) := by
  rcases State.awaitWrite_next_of_no_read s t hn h with rfl | ⟨rest, rfl⟩ | ⟨rest, rfl⟩
  · exact ⟨resultsKept_of_eq _, ⟨rfl, rfl, rfl⟩, rfl, .inr rfl⟩
  · exact ⟨resultsKept_of_eq _, ⟨rfl, rfl, rfl⟩, rfl, .inl rfl⟩
  · exact ⟨resultsKept_of_eq _, ⟨rfl, rfl, rfl⟩, rfl, .inl rfl⟩

/-- What a read-shaped command leaves of the results and of the receive side once its write is made. -/
theorem State.awaitWrite_frame_of_read (s t : State) (r : RxPlan) (hr : s.plan.rx = some r) (hk : r.kind = r.dec.kind)
    (h : s.awaitWrite = .next t) :
    ResultsKeptBut r.dec.kind s t ∧ (t.status.resKind = .none → ResultsKeptBut .none s t) ∧
      (ReceiveKept s t ∨ ∃ bs rest, s.env = .answer .done :: .answer (.bytes bs) :: rest ∧ bs.length = r.nbytes ∧
        t.rxbuf = memWrite s.rxbuf 0 bs) := by
  rcases State.awaitWrite_next s t h with ⟨rfl, -⟩ | ⟨rest, -, rfl⟩ | ⟨rest, -, hn, -⟩ | ⟨r', rest, he, hr', h⟩
  · exact ⟨resultsKept_of_eq _, fun _ => resultsKept_of_eq _, .inl ⟨rfl, rfl, rfl⟩⟩
  · exact ⟨resultsKept_of_eq _, fun _ => resultsKept_of_eq _, .inl ⟨rfl, rfl, rfl⟩⟩
  · rw [hr] at hn; cases hn
  · obtain rfl : r = r' := Option.some.inj (hr.symm.trans hr')
    have hissue (k : ResKind) : ResultsKeptBut k s ((s.setEnv rest).issueRead r) := resultsKept_of_eq k
    obtain ⟨h1, h2⟩ := State.awaitRead_resultsKept _ t r hk h
    refine ⟨resultsKept_trans (hissue _) h1, fun h0 => resultsKept_trans (hissue _) (h2 h0), ?_⟩
    rcases State.awaitRead_receive _ t r h with ⟨g1, g2, g3⟩ | ⟨bs, rest', he', hl, hm⟩
    · exact .inl ⟨g1, g2, g3⟩
    · obtain rfl : rest = .answer (.bytes bs) :: rest' := he'
      exact .inr ⟨bs, rest', he, hl, hm⟩

/-! ### A command whose Transport answers, or does not -/

/-- R137, R251: with its write not answered yet a command stands in `TX`. -/
theorem exec_write_pending (i : Instr) (s : State) (hw : i.wellFormed = true) (he : s.env = []) :
    exec i s = .next (s.launch i) := by
  rw [exec_eq_awaitWrite i s hw, State.awaitWrite_nil (s.launch i) he]

/-- R138, R251: with its write answered `Ok` and its read not answered yet it stands in `RX`. -/
theorem exec_read_pending (i : Instr) (s : State) (r : RxPlan) (hw : i.wellFormed = true)
    (hr : (s.launch i).plan.rx = some r) (he : s.env = [.answer .done]) :
    exec i s = .next (((s.launch i).setEnv []).issueRead r) := by
  rw [exec_eq_awaitWrite i s hw, State.awaitWrite_done_read (s.launch i) r [] he hr, State.awaitRead_nil _ r rfl]

/-- R150: with both calls answered `Ok` it ends its read. -/
theorem exec_read_answered (i : Instr) (s : State) (r : RxPlan) (bs : List Byte) (rest : List Event)
    (hw : i.wellFormed = true) (hr : (s.launch i).plan.rx = some r)
    (he : s.env = .answer .done :: .answer (.bytes bs) :: rest) (hl : bs.length = r.nbytes) :
    exec i s = .next ((((s.launch i).setEnv rest).issueRead r).finishRead r bs) := by
  rw [exec_eq_awaitWrite i s hw, State.awaitWrite_done_read (s.launch i) r _ he hr,
    State.awaitRead_bytes _ r bs rest rfl hl]
  rfl

/-- R251: a command that waits, with no move to come, waits on, whether or not `RST` is asserted. -/
theorem step_waiting_nil (s : State) (hp : s.phase = .tx ∨ s.phase = .rx) (he : s.env = []) : step s = .next s := by
  cases hs : s.rst with
  | true => rw [step_held s hs, heldStep, he]
  | false =>
    have hno : ∀ op rest, s.env ≠ .host op :: rest := by rw [he]; exact fun _ _ => nofun
    rcases hp with hp | hp
    · rw [step_tx s hs hp hno, State.awaitWrite_nil s he]
    · cases hr : s.plan.rx with
      | some r => rw [step_rx s r hs hp hr hno, State.awaitRead_nil s r he]
      | none => rw [step_waiting s hs (.inr hp), waitStep, he]; simp [hp, hr]

/-- R56, R57, R59: a command makes no call, its write, or its write and then its read. -/
theorem exec_calls (i : Instr) (s t : State) (h : exec i s = .next t) :
    t.calls = s.calls ∨ t.calls = (s.launch i).calls ∨
      ∃ r, (s.launch i).plan.rx = some r ∧
        t.calls = (s.launch i).calls ++ [.read s.cfg.devAddr r.nbytes s.argTmo] := by
  rcases exec_next i s t h with ⟨-, rfl⟩ | ⟨-, h⟩
  · exact .inl rfl
  · exact .inr (State.awaitWrite_calls _ t h)

end Sys2Proof.Machine

/-! ### The frames of the commands, their calls, and what a read leaves -/

namespace Sys2Proof.Proofs

open Sys2Proof Sys2Proof.Machine Sys2Proof.Safety Sys2Proof.Claims

/-- Settles O29: a refused STARTM builds nothing; any other write-shaped command stores its frame and then only waits,
fails or completes. -/
theorem writeShapedCommandsFrame : Obligations.WriteShapedCommandsFrame := by
  intro i stored s t hi h
  refine ⟨exec_argumentsKept i s t h, ?_⟩
  rcases exec_next i s t h with ⟨hw, rfl⟩ | ⟨hw, ht⟩
  · exact ⟨resultsKept_of_eq _, fun _ _ => rfl, fun _ => ⟨fun _ => rfl, rfl⟩, fun _ => rfl, rfl, rfl, fun _ => rfl, rfl⟩
  · obtain ⟨hn, hl, hd⟩ := romRow_of_writeShaped s.cfg (s.launch i).samp i stored hi
    obtain ⟨hres, hrecv, hacc, hstatus⟩ := State.awaitWrite_frame_of_no_read _ t hn ht
    have htx := (State.awaitWrite_waitKeeps _ t ht).txbuf
    refine ⟨resultsKept_trans (s.launch_resultsKept i _) hres, ?_, ?_, ?_, hrecv.rxlen, hrecv.widx, ?_, ?_⟩
    · intro a ha
      rw [htx]
      exact s.launch_txbuf_kept i a (hl.trans_le ha)
    · intro hf
      rw [hw] at hf
      cases hf
    · intro a
      rw [hrecv.rxbuf, State.launch_rxbuf]
    · intro h2
      rw [hacc, State.launch_acc, show (s.launch i).plan.data = [] from hd h2]
      rfl
    · rcases hstatus with hs | hs
      · exact hs
      · rw [hs]; rfl

/-- Settles O30: the receive side changes only on bytes for the read, the results only on success. -/
theorem readShapedCommandsFrame : Obligations.ReadShapedCommandsFrame := by
  intro i kind n s t hi h
  refine ⟨exec_argumentsKept i s t h, ?_⟩
  rcases exec_next i s t h with ⟨hw, rfl⟩ | ⟨hw, ht⟩
  · exact ⟨resultsKept_of_eq _, fun _ _ => rfl, fun _ _ => rfl, fun _ => resultsKept_of_eq _,
      fun _ => ⟨fun _ => rfl, rfl, rfl⟩, fun _ => ⟨fun _ => rfl, rfl⟩⟩
  · obtain ⟨r, hr, hk, hn, -, hkind⟩ := romRow_of_readShaped s.cfg (s.launch i).samp i kind n hi
    have htx := (State.awaitWrite_waitKeeps _ t ht).txbuf
    have hl : (encPtrData (s.launch i).plan.opc (s.launch i).plan.data).length = 2 :=
      romRow_frame_length_of_read s.cfg _ i r hr
    obtain ⟨hres, hnone, hrecv⟩ := State.awaitWrite_frame_of_read _ t r hr (hkind.trans hk.symm) ht
    rw [hk] at hres
    have hrx : BufferKeptBeyond n s.rxbuf t.rxbuf ∧
        (ReceiveKept (s.launch i) t ∨ ∃ bs rest, s.env = .answer .done :: .answer (.bytes bs) :: rest) := by
      rcases hrecv with h1 | ⟨bs, rest, he, hb, hm⟩
      · exact ⟨fun a _ => by rw [h1.rxbuf, State.launch_rxbuf], .inl h1⟩
      · refine ⟨fun a ha => ?_, .inr ⟨bs, rest, he⟩⟩
        rw [hm]
        exact memWrite_read_outside s.rxbuf 0 bs a (.inr (by omega))
    refine ⟨resultsKept_trans (s.launch_resultsKept i _) hres, ?_, hrx.1, ?_, ?_, ?_⟩
    · intro a ha
      rw [htx]
      exact s.launch_txbuf_kept i a (hl.trans_le ha)
    · exact fun h0 => resultsKept_trans (s.launch_resultsKept i _) (hnone h0)
    · intro hno
      rcases hrx.2 with h1 | ⟨bs, rest, he⟩
      · exact ⟨fun a => by rw [h1.rxbuf, State.launch_rxbuf], h1.rxlen, h1.widx⟩
      · rcases hno with hf | hf
        · rw [hw] at hf; cases hf
        · exact absurd he (hf bs rest)
    · intro hf
      rw [hw] at hf
      cases hf

/-- Settles O32: the bytes received stand in `RXBUF`, and the word loop leaves `widx` where the check of them ends. -/
theorem receiveBufferLayout : Obligations.ReceiveBufferLayout := by
  intro i s kind rx rest hw hwf hi he
  obtain ⟨r, hr, -, hn, hwords, -⟩ := romRow_of_readShaped s.cfg (s.launch i).samp i kind rx.length hi
  refine ⟨_, exec_read_answered i s r rx rest hw hr he hn.symm, State.finishRead_rxlen _ r rx, ?_, ?_⟩
  · intro k hk
    have hread := memWrite_read_inside s.rxbuf 0 rx k hwf hk
    rw [Nat.zero_add] at hread
    rw [State.finishRead_rxbuf]
    exact hread
  · have hcheck : ((((s.launch i).setEnv rest).issueRead r).receive rx).frameCheck r =
        validateFrame rx (rx.length / 3) := by
      rw [State.frameCheck_receive (((s.launch i).setEnv rest).issueRead r) r rx hwf, hwords]
    rw [State.finishRead_widx, hcheck, hwords]
    exact ⟨fun h => by rw [h]; rfl, fun k h => by rw [h]; rfl⟩

/-- Settles O34: the calls of a command are those of its row, whose frame and whose read fit the buffers. -/
theorem atMostTwoCallsInOrder : Obligations.AtMostTwoCallsInOrder := by
  intro i s t h
  rcases exec_calls i s t h with h | h | ⟨r, hr, h⟩
  · exact .inl h
  · refine .inr (.inl ⟨s.sentBytes i, ?_, h⟩)
    rw [State.sentBytes_length]
    exact (romRow_frame_length s.cfg (s.launch i).samp i).imp_right And.right
  · refine .inr (.inr ⟨s.sentBytes i, r.nbytes, ?_, (romRow_read_fits s.cfg _ i r hr).1, ?_⟩)
    · exact (s.sentBytes_length i).trans (romRow_frame_length_of_read s.cfg _ i r hr)
    · rw [h, State.launch_calls, List.append_assoc]
      rfl

/-- Settles O36: a command waits in `TX`, and a read-shaped one in `RX`, and a step without a move to come changes
nothing. -/
theorem commandWaitsForTheTransport : Obligations.CommandWaitsForTheTransport := by
  intro i s hw
  constructor
  · intro he
    exact ⟨s.launch i, exec_write_pending i s hw he, rfl, Status.word_atGo, rfl, rfl, ⟨_, rfl⟩,
      noResult_of_status _ (.inl rfl), s.launch_argumentsKept i, s.launch_resultsKept i _,
      step_waiting_nil _ (.inl rfl) he⟩
  · intro kind n hi he
    obtain ⟨r, hr, -, rfl, -, -⟩ := romRow_of_readShaped s.cfg (s.launch i).samp i kind n hi
    refine ⟨_, exec_read_pending i s r hw hr he, rfl, Status.word_atGo, rfl, rfl, rfl, ⟨s.sentBytes i, ?_⟩,
      noResult_of_status _ (.inl rfl), argumentsKept_of_eq, resultsKept_of_eq _, step_waiting_nil _ (.inr rfl) rfl⟩
    rw [State.issueRead_calls, State.setEnv_calls, State.launch_calls, List.append_assoc]
    rfl

end Sys2Proof.Proofs
end

section
/-! The moves of the environment: what the host does to the block in a resting state, and what every step keeps. -/

namespace Sys2Proof.Machine

open Sys2Proof Sys2Proof.Safety Sys2Proof.Claims

/-! ### RST and GO -/

section ApplyRst
variable (s : State) (b : Bool)

theorem State.applyRst_status_word : (s.applyRst b).status.word = 0x0000#16 := by
  rw [show (s.applyRst b).status = State.reset.status from rfl]
  rfl

/-- R271: with no call pending, or with the pending one carried out, the log stays. -/
theorem State.applyRst_calls_kept (h : s.callPending = false ∨ b = true) : (s.applyRst b).calls = s.calls := by
  refine if_neg ?_
  rcases h with h | h <;> simp [h]

/-- R271: a pending call that was not carried out leaves the log. -/
theorem State.applyRst_calls_dropped (h : s.callPending = true) (hb : b = false) :
    (s.applyRst b).calls = s.calls.dropLast := if_pos (by simp [h, hb])

end ApplyRst

theorem State.callPending_idle (s : State) (h : s.phase = .idle) : s.callPending = false := by
  rw [State.callPending, h]; rfl

theorem State.callPending_waiting (s : State) (h : s.phase = .tx ∨ s.phase = .rx) : s.callPending = true := by
  rcases h with h | h <;> rw [State.callPending, h] <;> rfl

/-- R36: a `GO` written is a strobe, given while the block is not busy, or nothing. -/
theorem State.writeGo_cases (s : State) (v : Bool) :
    (v = true ∧ s.status.busy = false ∧ s.writeGo v = s.setGo true) ∨
    ((v = false ∨ s.status.busy = true) ∧ s.writeGo v = s) := by
  unfold State.writeGo
  cases v <;> cases hb : s.status.busy <;> simp

/-! ### What every step keeps -/

/-- The parameters stand, and no call is taken back (R43, R59). -/
def KeepsLog (s t : State) : Prop := t.cfg = s.cfg ∧ s.calls <+: t.calls

theorem keepsLog_of_append {s t : State} (made : List Call) (hcfg : t.cfg = s.cfg) (h : t.calls = s.calls ++ made) :
    KeepsLog s t := ⟨hcfg, made, h.symm⟩

theorem keepsLog_of_eq {s t : State} (hcfg : t.cfg = s.cfg := by rfl) (hcalls : t.calls = s.calls := by rfl) :
    KeepsLog s t := keepsLog_of_append [] hcfg (hcalls.trans (List.append_nil _).symm)

theorem keepsLog_trans {s t u : State} (h : KeepsLog s t) (g : KeepsLog t u) : KeepsLog s u :=
  ⟨g.1.trans h.1, h.2.trans g.2⟩

theorem State.awaitRead_keepsLog (s t : State) (r : RxPlan) (h : s.awaitRead r = .next t) : KeepsLog s t :=
  keepsLog_of_eq (State.awaitRead_waitKeeps s t r h).arguments.cfg (State.awaitRead_calls s t r h)

theorem State.awaitWrite_keepsLog (s t : State) (h : s.awaitWrite = .next t) : KeepsLog s t := by
  have hcfg := (State.awaitWrite_waitKeeps s t h).arguments.cfg
  rcases State.awaitWrite_calls s t h with h | ⟨r, -, h⟩
  · exact keepsLog_of_eq hcfg h
  · exact keepsLog_of_append _ hcfg h

theorem exec_keepsLog (i : Instr) (s t : State) (h : exec i s = .next t) : KeepsLog s t := by
  rcases exec_next i s t h with ⟨-, rfl⟩ | ⟨-, h⟩
  · exact keepsLog_of_eq
  · exact keepsLog_trans (t := s.launch i) (keepsLog_of_append _ rfl (s.launch_calls i))
      (State.awaitWrite_keepsLog _ t h)

/-- R21, R270: a host operation other than `RST` leaves the parameters, the phase, `STATUS` and the log alone. -/
theorem hostOp_keeps (op : HostOp) (s t : State) (h : hostOp op s = .next t) :
    (t.cfg = s.cfg ∧ t.phase = s.phase ∧ t.status = s.status ∧ t.calls = s.calls) ∨
    ∃ b, op = .rst b ∧ t = s.applyRst b := by
  rcases hostOp_next op s t h with ⟨v, -, rfl⟩ | ⟨v, -, rfl⟩ | ⟨v, -, rfl⟩ | ⟨v, -, rfl⟩ | ⟨v, -, rfl⟩ | ⟨v, -, rfl⟩ |
    ⟨r, v, -, -, rfl⟩ | ⟨b, hb, rfl⟩ | ⟨-, rfl⟩
  · exact .inl ⟨rfl, rfl, rfl, rfl⟩
  · exact .inl ⟨rfl, rfl, rfl, rfl⟩
  · exact .inl ⟨rfl, rfl, rfl, rfl⟩
  · rcases s.writeGo_cases v with ⟨-, -, h⟩ | ⟨-, h⟩ <;> rw [h] <;> exact .inl ⟨rfl, rfl, rfl, rfl⟩
  · exact .inl ⟨rfl, rfl, rfl, rfl⟩
  · exact .inl ⟨rfl, rfl, rfl, rfl⟩
  · exact .inl ⟨rfl, rfl, rfl, rfl⟩
  · exact .inr ⟨b, hb, rfl⟩
  · exact .inl ⟨rfl, rfl, rfl, rfl⟩

/-- R270: a step while `RST` is asserted leaves the parameters, the phase, `STATUS` and the log alone. -/
theorem heldStep_keeps (s t : State) (h : heldStep s = .next t) :
    t.cfg = s.cfg ∧ t.phase = s.phase ∧ t.status = s.status ∧ t.calls = s.calls := by
  rcases heldStep_next s t h with rfl | ⟨m, rest, -, rfl⟩ | ⟨r, v, rest, -, -, rfl⟩ | ⟨rest, -, rfl⟩ <;>
    exact ⟨rfl, rfl, rfl, rfl⟩

/-! ### The phases that a command passes through -/

/-- A phase that a command passes through inside a step (R32). -/
def State.passing (s : State) : Prop :=
  s.phase = .argchk ∨ s.phase = .build ∨ s.phase = .validate ∨ s.phase = .decode

theorem State.rests_or_passing (s : State) : (s.phase = .idle ∨ s.phase = .tx ∨ s.phase = .rx) ∨ s.passing := by
  unfold State.passing
  cases s.phase <;> simp

/-- From a phase that is passed through a step is one phase of the sequencer, which goes on and takes back no call. -/
theorem step_passing (s : State) (hs : s.rst = false) (hp : s.passing) : ∃ t, step s = .next t ∧ KeepsLog s t := by
  rcases hp with hp | hp | hp | hp
  · have h : step s = .next (phaseArgchk s) := by simp [step, hs, hp, phaseStep]
    refine ⟨_, h, ?_⟩
    unfold phaseArgchk
    split
    · exact keepsLog_of_eq
    · split
      · exact keepsLog_of_eq
      · exact keepsLog_of_eq
  · have h : step s = .next (s.build s.plan).issueWrite := by simp [step, hs, hp, phaseStep]
    exact ⟨_, h, keepsLog_of_append _ rfl (State.issueWrite_calls _)⟩
  · cases hr : s.plan.rx with
    | none => exact ⟨s, by simp [step, hs, hp, phaseStep, hr], keepsLog_of_eq⟩
    | some r =>
      have h : step s = .next (phaseValidate s r) := by simp [step, hs, hp, phaseStep, hr]
      refine ⟨_, h, ?_⟩
      unfold phaseValidate
      split
      · exact keepsLog_of_eq
      · exact keepsLog_of_eq
  · cases hr : s.plan.rx with
    | none => exact ⟨s, by simp [step, hs, hp, phaseStep, hr], keepsLog_of_eq⟩
    | some r =>
      have h : step s = .next ((s.deliver r).completeOk r.kind) := by simp [step, hs, hp, phaseStep, hr]
      exact ⟨_, h, keepsLog_of_eq (State.deliver_cfg s r) (State.deliver_calls s r)⟩

/-! ### What a step is refused for -/

/-- R57, S8: `RX` refuses exactly the answers that break the contract of a read. -/
theorem State.awaitRead_refused_breaks (s : State) (r : RxPlan) (e : Refusal) (h : s.awaitRead r = .refused e) :
    e = .transportContract ∧ BreaksRead r.nbytes s.env := State.awaitRead_refused s r e h

theorem State.awaitWrite_refused_breaks (s : State) (e : Refusal) (h : s.awaitWrite = .refused e) :
    e = .transportContract ∧ BreaksContract (s.plan.rx.map RxPlan.nbytes) s.env := by
  obtain ⟨he, h1 | ⟨r, rest, hr, henv, h2⟩⟩ := State.awaitWrite_refused s e h
  · exact ⟨he, .inl h1⟩
  · exact ⟨he, .inr ⟨r.nbytes, rest, by rw [hr]; rfl, henv, h2⟩⟩

/-- A command is refused only for an answer that breaks the contract of its write or of its read. -/
theorem exec_refused (i : Instr) (s : State) (e : Refusal) (h : exec i s = .refused e) :
    e = .transportContract ∧ i.wellFormed = true ∧ BreaksContract ((readShaped s.cfg i).map Prod.snd) s.env := by
  cases hw : i.wellFormed with
  | false => rw [exec_of_not_wellFormed i s hw] at h; cases h
  | true =>
    rw [exec_eq_awaitWrite i s hw] at h
    obtain ⟨he, hb⟩ := State.awaitWrite_refused_breaks _ e h
    have hreads : (readShaped s.cfg i).map Prod.snd = (s.launch i).plan.rx.map RxPlan.nbytes := by
      rw [readShaped_eq_romRow s.cfg s.accept.samp i, Option.map_map]
      rfl
    exact ⟨he, rfl, hreads ▸ hb⟩

/-- R21, R31: a host operation is refused only as a read of a register that does not exist or holds no value. -/
theorem hostOp_refused_cases (op : HostOp) (s : State) (rest : List Event) (e : Refusal)
    (h : hostOp op (s.setEnv rest) = .refused e) :
    ∃ r, op = .read r ∧ ((e = .resultHoldsNoValue ∧ ∃ k, resultKind r = some k ∧ ¬ Declared s k) ∨
      (e = .noSuchRegister ∧ ¬ RegisterExists s r)) := by
  obtain ⟨r, rfl, hr⟩ := hostOp_refused op _ e h
  rw [State.hostRead_setEnv] at hr
  exact ⟨r, rfl, State.hostRead_refused_cases s r e hr⟩

end Sys2Proof.Machine

/-! ### The statements about the environment's moves -/

namespace Sys2Proof.Proofs

open Sys2Proof Sys2Proof.Machine Sys2Proof.Safety Sys2Proof.Claims

/-- In a resting state the host's next move is what happens. -/
theorem step_of_host_move (s : State) (op : HostOp) (rest : List Event) (hm : EnvironmentMoves s)
    (he : s.env = .host op :: rest) : step s = hostOp op (s.setEnv rest) :=
  step_host s op rest he hm.1 hm.2

theorem step_read_value (s : State) (r : HostReg) (v : Nat) (rest : List Event) (hm : EnvironmentMoves s)
    (he : s.env = .host (.read r) :: rest) (hv : s.hostRead r = .value v) :
    step s = .next ((s.setEnv rest).setRdata v) := by
  rw [step_of_host_move s _ rest hm he, hostOp, State.hostRead_setEnv, hv]

theorem step_read_refused (s : State) (r : HostReg) (e : Refusal) (rest : List Event) (hm : EnvironmentMoves s)
    (he : s.env = .host (.read r) :: rest) (hv : s.hostRead r = .refused e) : step s = .refused e := by
  rw [step_of_host_move s _ rest hm he, hostOp, State.hostRead_setEnv, hv]

/-- Settles O38. -/
theorem hostWritesTouchOnlyTheirRegister : Obligations.HostWritesTouchOnlyTheirRegister := by
  intro s rest hm
  exact ⟨fun v he => step_of_host_move s (.writeCw v) rest hm he,
    fun v he => step_of_host_move s (.writeArgData v) rest hm he,
    fun v he => step_of_host_move s (.writeArgTmo v) rest hm he,
    fun v he => step_of_host_move s (.writeCrcB0 v) rest hm he,
    fun v he => step_of_host_move s (.writeCrcB1 v) rest hm he⟩

/-- Settles O12: three host moves, of which the writes change nothing that decides whether the next one is taken. -/
theorem crcPortAtAnyTime : Obligations.CrcPortAtAnyTime := by
  intro s b0 b1 rest hm he
  let t : State := { s with crcB0 := b0, env := .host (.writeCrcB1 b1) :: .host (.read .crcOut) :: rest }
  let u : State := { s with crcB0 := b0, crcB1 := b1, env := .host (.read .crcOut) :: rest }
  have ht : step s = .next t := step_of_host_move s (.writeCrcB0 b0) _ hm he
  have hu : step t = .next u := step_of_host_move t (.writeCrcB1 b1) _ hm rfl
  exact ⟨t, u, ht, hu, step_read_value u .crcOut _ rest hm rfl rfl⟩

/-- Settles O37: the two outcomes of a `GO` write, by whether the block is busy. -/
theorem goStrobe : Obligations.GoStrobe := by
  intro s v rest he hm
  have hstep : step s = .next ((s.setEnv rest).writeGo v) := step_of_host_move s _ rest hm he
  rw [hstep]
  rcases (s.setEnv rest).writeGo_cases v with ⟨rfl, hb, h⟩ | ⟨hv, h⟩
  · rw [State.setEnv_status] at hb
    simp [h, hb]
  · rw [State.setEnv_status] at hv
    rcases hv with rfl | hb
    · simp [h]
    · simp [h, hb]

/-- Settles O39: a read that is answered gives what stands in the register, any other is refused. -/
theorem hostReadsReturnTheRegister : Obligations.HostReadsReturnTheRegister := by
  intro s r rest hm he
  refine ⟨fun hr hd => ?_, fun hr k hk hd => ?_, fun hr => ?_⟩
  · refine step_read_value s r _ rest hm he ?_
    cases hk : resultKind r with
    | none => exact State.hostRead_of_argument s r hk
    | some k => exact State.hostRead_of_declared s r k hk hr (hd k hk)
  · exact step_read_refused s r _ rest hm he (State.hostRead_of_not_declared s r k hk hr hd)
  · exact step_read_refused s r _ rest hm he (State.hostRead_of_not_exists s r hr)

/-- Settles O47: the host's `RST` is taken in every resting state, and the reset value of `STATUS` declares nothing. -/
theorem rstAbandonsTheCommand : Obligations.RstAbandonsTheCommand := by
  intro s carriedOut rest he hm
  refine ⟨_, step_of_host_move s _ rest hm he, rfl, rfl, rfl,
    State.applyRst_status_word _ _, noResult_of_status _ (.inl rfl), rfl, rfl, ?_, ?_⟩
  · intro h
    exact State.applyRst_calls_kept (s.setEnv rest) _ (h.imp_left (State.callPending_idle (s.setEnv rest)))
  · intro hp hc
    have hwait : s.phase = .tx ∨ s.phase = .rx := hm.2.resolve_left fun hi => hp hi.1
    exact State.applyRst_calls_dropped (s.setEnv rest) _ (State.callPending_waiting (s.setEnv rest) hwait) hc

/-- Settles O51, by what a step can do in each kind of state. -/
theorem parametersAndLogAreKept : Obligations.ParametersAndLogAreKept := by
  intro s t h
  suffices hs : KeepsLog s t ∨ (t.cfg = s.cfg ∧ ∃ b rest, s.env = .host (.rst b) :: rest) by
    rcases hs with ⟨hc, hl⟩ | ⟨hc, hr⟩
    · exact ⟨hc, .inl hl⟩
    · exact ⟨hc, .inr hr⟩
  cases hrst : s.rst with
  | true =>
    rw [step_held s hrst] at h
    obtain ⟨hcfg, -, -, hcalls⟩ := heldStep_keeps s t h
    exact .inl (keepsLog_of_eq hcfg hcalls)
  | false =>
    rcases s.rests_or_passing with hp | hp
    · rcases step_next_cases s t h hrst hp with ⟨-, -, i, -, h⟩ | ⟨-, -, rfl⟩ | rfl | ⟨-, a, rest, -, rfl⟩ |
        ⟨op, rest, he, h⟩ | ⟨-, h⟩ | ⟨-, r, -, h⟩
      · exact .inl (exec_keepsLog i s t h)
      · exact .inl keepsLog_of_eq
      · exact .inl keepsLog_of_eq
      · exact .inl keepsLog_of_eq
      · rcases hostOp_keeps op _ t h with ⟨hcfg, -, -, hcalls⟩ | ⟨b, rfl, rfl⟩
        · exact .inl (keepsLog_of_eq hcfg hcalls)
        · exact .inr ⟨rfl, b, rest, he⟩
      · exact .inl (State.awaitWrite_keepsLog s t h)
      · exact .inl (State.awaitRead_keepsLog s t r h)
    · obtain ⟨u, hu, hk⟩ := step_passing s hrst hp
      obtain rfl : t = u := by rw [h] at hu; injection hu
      exact .inl hk

/-- Settles O52: without a strobe an idle block only lets the environment move. -/
theorem onlyTheStrobeStartsACommand : Obligations.OnlyTheStrobeStartsACommand := by
  intro s t hp hg h
  cases hrst : s.rst with
  | true =>
    rw [step_held s hrst] at h
    obtain ⟨-, hphase, hstatus, hcalls⟩ := heldStep_keeps s t h
    exact ⟨hphase.trans hp, .inl hstatus, hcalls⟩
  | false =>
    rw [step_idle_quiet s hrst hp hg, idleStep] at h
    split at h
    · cases h
      exact ⟨hp, .inl rfl, rfl⟩
    · rename_i op rest he
      rcases hostOp_keeps op _ t h with ⟨-, hphase, hstatus, hcalls⟩ | ⟨b, rfl, rfl⟩
      · exact ⟨hphase.trans hp, .inl hstatus, hcalls⟩
      · exact ⟨rfl, .inr ⟨b, rest, he⟩, State.applyRst_calls_kept _ _
          (.inl (State.callPending_idle (s.setEnv rest) hp))⟩
    · cases h
      exact ⟨hp, .inl rfl, rfl⟩

/-- Settles O53: in each kind of state the step is a host operation, a command, a wait, or a phase that is never
refused. -/
theorem refusalsAreForbiddenReadsAndContractBreaches : Obligations.RefusalsAreForbiddenReadsAndContractBreaches := by
  intro s e h
  have hread (op : HostOp) (rest : List Event) (he : s.env = .host op :: rest)
      (hop : hostOp op (s.setEnv rest) = .refused e) : ∃ r rest, s.env = .host (.read r) :: rest ∧
      ((e = .resultHoldsNoValue ∧ ∃ k, resultKind r = some k ∧ ¬ Declared s k) ∨
        (e = .noSuchRegister ∧ ¬ RegisterExists s r)) := by
    obtain ⟨r, rfl, hr⟩ := hostOp_refused_cases op s rest e hop
    exact ⟨r, rest, he, hr⟩
  cases hrst : s.rst with
  | true =>
    rw [step_held s hrst, heldStep] at h
    split at h
    · cases h
    · rename_i op rest he
      obtain ⟨r, rfl, hr⟩ := hostOpHeld_refused op _ e h
      exact .inl (hread _ rest he h)
    · cases h
  | false =>
    rcases s.rests_or_passing with hp | hp
    · rcases hp with hp | hp
      · cases hg : s.go with
        | true =>
          rw [step_idle_go s hrst hp hg] at h
          split at h
          · rename_i i hi
            obtain ⟨he, hw, hb⟩ := exec_refused i s e h
            exact .inr ⟨he, rfl, .inl ⟨hp, rfl, i, hi, hw, hb⟩⟩
          · cases h
        | false =>
          rw [step_idle_quiet s hrst hp hg, idleStep] at h
          split at h
          · cases h
          · exact .inl (hread _ _ ‹_› h)
          · cases h
      · rw [step_waiting s hrst hp, waitStep] at h
        split at h
        · exact .inl (hread _ _ ‹_› h)
        · split at h
          · rename_i htx
            obtain ⟨he, hb⟩ := State.awaitWrite_refused_breaks s e h
            exact .inr ⟨he, rfl, .inr (.inl ⟨htx, hb⟩)⟩
          · rename_i htx
            split at h
            · cases h
            · rename_i r hr
              obtain ⟨he, hb⟩ := State.awaitRead_refused_breaks s r e h
              exact .inr ⟨he, rfl, .inr (.inr ⟨hp.resolve_left htx, r, hr, hb⟩)⟩
    · obtain ⟨u, hu, -⟩ := step_passing s hrst hp
      rw [h] at hu
      cases hu

end Sys2Proof.Proofs
end

section
/-! The sequencer phase by phase (R32, R200), and a command that waits while the host writes its arguments (R276). -/

namespace Sys2Proof.Machine

open Sys2Proof Sys2Proof.Safety Sys2Proof.Claims

/-! ### Runs of phases -/

theorem runPhases_succ (n : Nat) (s t : State) (h : phaseStep s = .next t) : runPhases (n + 1) s = runPhases n t := by
  rw [runPhases, h]

theorem runPhases_refused (n : Nat) (s : State) (e : Refusal) (h : phaseStep s = .refused e) :
    runPhases (n + 1) s = .refused e := by
  rw [runPhases, h]

/-- A state that its own phase leaves as it is stays for any number of phases. -/
theorem runPhases_stays (n : Nat) (s : State) (h : phaseStep s = .next s) : runPhases n s = .next s := by
  induction n with
  | zero => rfl
  | succ n ih => rw [runPhases_succ n s s h, ih]

theorem runPhases_idle (n : Nat) (s : State) (h : s.phase = .idle) : runPhases n s = .next s :=
  runPhases_stays n s (by rw [phaseStep, h])

/-- `VALIDATE` and `DECODE` end a read (R153, R155). -/
theorem runPhases_validate (n : Nat) (s : State) (r : RxPlan) (bs : List Byte) (hr : s.plan.rx = some r) :
    runPhases (n + 2) (s.receive bs) = .next (s.finishRead r bs) := by
  have hv : phaseStep (s.receive bs) = .next (phaseValidate (s.receive bs) r) := by
    simp [phaseStep, hr]
  rw [runPhases_succ _ _ _ hv]
  rcases State.finishRead_cases s r bs with ⟨hc, h⟩ | ⟨k, hc, h⟩
  · have hd : phaseStep ((s.receive bs).validate r) =
        .next ((((s.receive bs).validate r).deliver r).completeOk r.kind) := by
      simp [phaseStep, hr]
    rw [phaseValidate, hc, h, runPhases_succ n _ _ hd, runPhases_idle n _ rfl]
  · rw [phaseValidate, hc, h, runPhases_idle _ _ rfl]

/-- From `RX` on the phases are the wait for the read's answer and what follows it. -/
theorem runPhases_rx (n : Nat) (s : State) (r : RxPlan) (hp : s.phase = .rx) (hr : s.plan.rx = some r) :
    runPhases (n + 3) s = s.awaitRead r := by
  have hstep : phaseStep s = phaseRx s r := by simp [phaseStep, hp, hr]
  rcases he : s.env with _ | ⟨⟨op⟩ | ⟨_ | bs | _⟩, rest⟩
  · rw [State.awaitRead_nil s r he, runPhases_stays _ s (by rw [hstep, phaseRx, he])]
  · rw [State.awaitRead_host s r op rest he, runPhases_stays _ s (by rw [hstep, phaseRx, he])]
  · rw [State.awaitRead, he, runPhases_refused _ s _ (by rw [hstep, phaseRx, he])]
  · by_cases hl : bs.length = r.nbytes
    · have hrecv : phaseStep s = .next ((s.setEnv rest).receive bs) := by rw [hstep, phaseRx, he]; exact if_pos hl
      rw [State.awaitRead_bytes s r bs rest he hl, runPhases_succ _ s _ hrecv,
        runPhases_validate n (s.setEnv rest) r bs hr]
    · have hbad : phaseStep s = .refused .transportContract := by rw [hstep, phaseRx, he]; exact if_neg hl
      rw [State.awaitRead, he, runPhases_refused _ s _ hbad]
      exact (if_neg hl).symm
  · have herr : phaseStep s = .next ((s.setEnv rest).raise (.transportFailure .read)) := by rw [hstep, phaseRx, he]
    rw [State.awaitRead_error s r rest he, runPhases_succ _ s _ herr, runPhases_idle _ _ rfl]

/-- From `TX` on they are the wait for the write's answer and what follows it. -/
theorem runPhases_tx (n : Nat) (s : State) (hp : s.phase = .tx) : runPhases (n + 4) s = s.awaitWrite := by
  have hstep : phaseStep s = phaseTx s := by rw [phaseStep, hp]
  rcases he : s.env with _ | ⟨⟨op⟩ | ⟨_ | bs | _⟩, rest⟩
  · rw [State.awaitWrite_nil s he, runPhases_stays _ s (by rw [hstep, phaseTx, he])]
  · rw [State.awaitWrite_host s op rest he, runPhases_stays _ s (by rw [hstep, phaseTx, he])]
  · cases hr : s.plan.rx with
    | none =>
      have hdone : phaseStep s = .next ((s.setEnv rest).completeOk .none) := by rw [hstep, phaseTx, he]; simp [hr]
      rw [State.awaitWrite_done s rest he hr, runPhases_succ _ s _ hdone, runPhases_idle _ _ rfl]
    | some r =>
      have hread : phaseStep s = .next ((s.setEnv rest).issueRead r) := by rw [hstep, phaseTx, he]; simp [hr]
      rw [State.awaitWrite_done_read s r rest he hr, runPhases_succ _ s _ hread, 
        runPhases_rx n ((s.setEnv rest).issueRead r) r rfl hr]
  · rw [State.awaitWrite, he, runPhases_refused _ s _ (by rw [hstep, phaseTx, he])]
  · have herr : phaseStep s = .next ((s.setEnv rest).raise (.transportFailure .write)) := by rw [hstep, phaseTx, he]
    rw [State.awaitWrite_error s rest he, runPhases_succ _ s _ herr, runPhases_idle _ _ rfl]

/-- `ARGCHK` on a word that selects no row (R101, R241). -/
theorem runPhases_of_illegal (n : Nat) (s : State) (e : DecodeError) (hd : decode s.cw = .illegal e) :
    runPhases (n + 1) s.accept = .next (s.accept.raise .invalidArgument) := by
  have h : phaseStep s.accept = .next (s.accept.raise .invalidArgument) := by simp [phaseStep, phaseArgchk, hd]
  rw [runPhases_succ n _ _ h, runPhases_idle n _ rfl]

/-- From `ARGCHK` on the phases are the command that the sampled word decodes to (R200). -/
theorem runPhases_of_command (s : State) (i : Instr) (hd : decode s.cw = .command i) :
    runPhases 6 s.accept = exec i s := by
  cases hw : i.wellFormed with
  | false =>
    have h : phaseStep s.accept = .next (s.accept.raise .invalidArgument) := by simp [phaseStep, phaseArgchk, hd, hw]
    rw [exec_of_not_wellFormed i s hw, runPhases_succ _ _ _ h, runPhases_idle _ _ rfl]
  | true =>
    have h : phaseStep s.accept =
        .next { s.accept with plan := romRow s.cfg s.accept.samp i, phase := .build } := by
      simp [phaseStep, phaseArgchk, hd, hw]
    rw [exec_eq_awaitWrite i s hw, runPhases_succ _ _ _ h, runPhases_succ _ _ (s.launch i) rfl, runPhases_tx 0 _ rfl]

/-! ### The host writes arguments while a command waits -/

/-- `CW`, `ARG_DATA` and `ARG_TMO` written, whatever the block is doing. -/
def State.writeArgs (s : State) (w d : Word32) (m : Nat) : State := ((s.setCw w).setArgData d).setArgTmo m

section WriteArgs
variable (s : State) (w d : Word32) (m : Nat)

theorem State.writeArgs_setEnv (e : List Event) : (s.writeArgs w d m).setEnv e = (s.setEnv e).writeArgs w d m := rfl

theorem State.writeArgs_raise (e : Raised) : (s.writeArgs w d m).raise e = (s.raise e).writeArgs w d m := rfl

theorem State.writeArgs_completeOk (k : ResKind) :
    (s.writeArgs w d m).completeOk k = (s.completeOk k).writeArgs w d m := rfl

theorem State.writeArgs_issueRead (r : RxPlan) :
    (s.writeArgs w d m).issueRead r = (s.issueRead r).writeArgs w d m := rfl

theorem State.writeArgs_receive (bs : List Byte) :
    (s.writeArgs w d m).receive bs = (s.receive bs).writeArgs w d m := rfl

theorem State.writeArgs_validate (r : RxPlan) :
    (s.writeArgs w d m).validate r = (s.validate r).writeArgs w d m := rfl

theorem State.writeArgs_frameCheck (r : RxPlan) : (s.writeArgs w d m).frameCheck r = s.frameCheck r := rfl

theorem State.writeArgs_deliver (r : RxPlan) : (s.writeArgs w d m).deliver r = (s.deliver r).writeArgs w d m := by
  unfold State.deliver
  cases r.dec <;> rfl

theorem State.writeArgs_finishRead (r : RxPlan) (bs : List Byte) :
    (s.writeArgs w d m).finishRead r bs = (s.finishRead r bs).writeArgs w d m := by
  unfold State.finishRead
  rw [State.writeArgs_receive, State.writeArgs_frameCheck, State.writeArgs_validate]
  cases (s.receive bs).frameCheck r with
  | ok => simp only [State.writeArgs_deliver, State.writeArgs_completeOk]
  | checksumFailure k => simp only [State.writeArgs_raise]

end WriteArgs

/-- R276: what the host writes to the argument registers while the read is pending stands there and changes nothing
else. -/
theorem State.awaitRead_writeArgs (s u : State) (r : RxPlan) (w d : Word32) (m : Nat) (h : s.awaitRead r = .next u) :
    (s.writeArgs w d m).awaitRead r = .next (u.writeArgs w d m) := by
  rcases State.awaitRead_next s u r h with ⟨rfl, he | ⟨op, rest, he⟩⟩ | ⟨rest, he, rfl⟩ | ⟨bs, rest, he, hl, rfl⟩
  · exact State.awaitRead_nil _ r he
  · exact State.awaitRead_host _ r op rest he
  · rw [State.awaitRead_error (s.writeArgs w d m) r rest he, State.writeArgs_setEnv, State.writeArgs_raise]
  · rw [State.awaitRead_bytes (s.writeArgs w d m) r bs rest he hl, State.writeArgs_setEnv, State.writeArgs_finishRead]

/-- R276: the same while the write is pending. -/
theorem State.awaitWrite_writeArgs (s u : State) (w d : Word32) (m : Nat) (h : s.awaitWrite = .next u) :
    (s.writeArgs w d m).awaitWrite = .next (u.writeArgs w d m) := by
  rcases State.awaitWrite_next s u h with ⟨rfl, he | ⟨op, rest, he⟩⟩ | ⟨rest, he, rfl⟩ | ⟨rest, he, hn, rfl⟩ |
    ⟨r, rest, he, hr, h⟩
  · exact State.awaitWrite_nil _ he
  · exact State.awaitWrite_host _ op rest he
  · rw [State.awaitWrite_error (s.writeArgs w d m) rest he, State.writeArgs_setEnv, State.writeArgs_raise]
  · rw [State.awaitWrite_done (s.writeArgs w d m) rest he hn, State.writeArgs_setEnv, State.writeArgs_completeOk]
  · rw [State.awaitWrite_done_read (s.writeArgs w d m) r rest he hr, State.writeArgs_setEnv, State.writeArgs_issueRead]
    exact State.awaitRead_writeArgs _ u r w d m h

theorem ne_host_of_noHostMove (env : List Event) (h : noHostMove env) (op : HostOp) (rest : List Event) :
    env ≠ .host op :: rest := by
  rintro rfl
  exact h

/-- The command's write is made without looking at what the environment does next. -/
theorem State.launch_setEnv (s : State) (i : Instr) (e : List Event) : (s.setEnv e).launch i = (s.launch i).setEnv e :=
  rfl

end Sys2Proof.Machine

/-! ### The statements about the phases and the waits -/

namespace Sys2Proof.Proofs

open Sys2Proof Sys2Proof.Machine Sys2Proof.Safety Sys2Proof.Claims

/-- Settles O43: both sides are the word's command, or the refusal of a word that selects none. -/
theorem oneStepIsThePhasesInOrder : Obligations.OneStepIsThePhasesInOrder := by
  intro s hrst hp hg
  rw [step_idle_go s hrst hp hg]
  cases hd : decode s.cw with
  | command i => exact (runPhases_of_command s i hd).symm
  | illegal e => exact (runPhases_of_illegal 5 s e hd).symm

/-- Settles O40: the waiting state, given the answers, is the state from which the command would have gone on at once;
and the argument registers take no part in that. -/
theorem argumentsAreFixedAtGo : Obligations.ArgumentsAreFixedAtGo := by
  intro i s later w d m hw hrst hno
  have hnohost := ne_host_of_noHostMove later hno
  constructor
  · have hexec : exec i (s.setEnv later) = ((s.launch i).setEnv later).awaitWrite := by
      rw [exec_eq_awaitWrite i _ hw, State.launch_setEnv]
    refine ⟨_, exec_write_pending i (s.setEnv []) hw rfl, rfl, ?_, fun u hu => ?_⟩
    · rw [hexec]
      exact step_tx ((s.launch i).setEnv later) hrst rfl hnohost
    · rw [hexec] at hu
      rw [State.launch_setEnv]
      exact (step_tx (((s.launch i).setEnv later).writeArgs w d m) hrst rfl hnohost).trans
        (State.awaitWrite_writeArgs _ u w d m hu)
  · intro kind n hi
    obtain ⟨r, hr, -, -, -, -⟩ := romRow_of_readShaped s.cfg (s.launch i).samp i kind n hi
    have hexec : exec i (s.setEnv (.answer .done :: later)) =
        (((s.launch i).setEnv later).issueRead r).awaitRead r := by
      rw [exec_eq_awaitWrite i _ hw, State.launch_setEnv, State.awaitWrite_done_read _ r later rfl hr]
      rfl
    refine ⟨_, exec_read_pending i (s.setEnv [.answer .done]) r hw hr rfl, rfl, ?_, fun u hu => ?_⟩
    · rw [hexec]
      exact step_rx (((s.launch i).setEnv later).issueRead r) r hrst rfl hr hnohost
    · rw [hexec] at hu
      rw [State.launch_setEnv]
      exact (step_rx ((((s.launch i).setEnv later).issueRead r).writeArgs w d m) r hrst rfl hr hnohost).trans
        (State.awaitRead_writeArgs _ u r w d m hu)

end Sys2Proof.Proofs
end

section
/-! Two blocks that hold the same arguments and meet the same answers come to the same outcome, whatever else they hold
(R42). -/

namespace Sys2Proof.Machine

open Sys2Proof Sys2Proof.Safety Sys2Proof.Claims

/-! ### What two states must agree on -/

/-- Two running commands that cannot be told apart: the parameters, the sampled arguments, the row, what the environment
does, `STATUS` and the phase agree, no result is declared, and what is received will be read back. -/
structure RunAlike (s s' : State) : Prop where
  cfg : s.cfg = s'.cfg
  samp : s.samp = s'.samp
  plan : s.plan = s'.plan
  env : s.env = s'.env
  status : s.status = s'.status
  phase : s.phase = s'.phase
  not_done : s.status.done = false
  rxbuf_wf : s.rxbuf.wf = true
  rxbuf_wf' : s'.rxbuf.wf = true

/-- `t` and `t'` came from `s` and `s'` with the same `STATUS`, phase, remaining environment, calls made and readable
results. -/
structure SameOutcome (made : List Call) (s s' t t' : State) : Prop where
  status : t.status = t'.status
  phase : t.phase = t'.phase
  env : t.env = t'.env
  calls : t.calls = s.calls ++ made
  calls' : t'.calls = s'.calls ++ made
  reads : ∀ r k, resultKind r = some k → t.hostRead r = t'.hostRead r

/-- Both answer with the same outcome, or both are refused for a breach of the contract. -/
def SameAnswer (s s' : State) (o o' : Host.Outcome State Fault Refusal) : Prop :=
  (∃ t t' made, o = .next t ∧ o' = .next t' ∧ SameOutcome made s s' t t') ∨
  (o = .refused .transportContract ∧ o' = .refused .transportContract)

/-- Calls made before two states are part of what was made on the way to their outcomes. -/
theorem sameAnswer_after_calls {s s' x x' : State} {o o' : Host.Outcome State Fault Refusal} (first : List Call)
    (hx : x.calls = s.calls ++ first) (hx' : x'.calls = s'.calls ++ first) (h : SameAnswer x x' o o') :
    SameAnswer s s' o o' := by
  rcases h with ⟨t, t', made, ho, ho', h⟩ | h
  · refine .inl ⟨t, t', first ++ made, ho, ho', h.status, h.phase, h.env, ?_, ?_, h.reads⟩
    · rw [h.calls, hx, List.append_assoc]
    · rw [h.calls', hx', List.append_assoc]
  · exact .inr h

/-! ### Reads -/

/-- R31: two states with one `STATUS` answer a read of a result alike when its register holds the same where it
counts. -/
theorem State.hostRead_congr (t t' : State) (r : HostReg) (k : ResKind) (hk : resultKind r = some k)
    (hcfg : t.cfg = t'.cfg) (hstatus : t.status = t'.status)
    (hvalue : Declared t k → registerValue t r = registerValue t' r) : t.hostRead r = t'.hostRead r := by
  have hdecl : Declared t k ↔ Declared t' k := by rw [Declared, Declared, hstatus]
  have hexists : RegisterExists t r ↔ RegisterExists t' r := by rw [RegisterExists, RegisterExists, hcfg]
  by_cases he : RegisterExists t r
  · have he' := hexists.mp he
    by_cases hd : Declared t k
    · rw [State.hostRead_of_declared t r k hk he hd, State.hostRead_of_declared t' r k hk he' (hdecl.mp hd), hvalue hd]
    · rw [State.hostRead_of_not_declared t r k hk he hd,
        State.hostRead_of_not_declared t' r k hk he' fun h => hd (hdecl.mpr h)]
  · rw [State.hostRead_of_not_exists t r he, State.hostRead_of_not_exists t' r fun h => he (hexists.mpr h)]

/-- Without a result declared, the outcomes agree as soon as `STATUS`, phase, environment and calls do. -/
theorem sameOutcome_of_no_result {made : List Call} {s s' t t' : State} (hcfg : t.cfg = t'.cfg)
    (hstatus : t.status = t'.status) (hphase : t.phase = t'.phase) (henv : t.env = t'.env)
    (hcalls : t.calls = s.calls ++ made) (hcalls' : t'.calls = s'.calls ++ made)
    (hn : t.status.done = false ∨ t.status.err ≠ .ok ∨ t.status.resKind = .none) : SameOutcome made s s' t t' :=
  ⟨hstatus, hphase, henv, hcalls, hcalls', fun r k hk => State.hostRead_congr t t' r k hk hcfg hstatus
    fun hd => absurd hd (not_declared t k (resultKind_ne_none r k hk) hn)⟩

/-- R155, R190: what a decoder writes into its registers is told by the bytes received. -/
theorem State.deliver_registerValue (s s' : State) (r : RxPlan) (reg : HostReg) (hcfg : s.cfg = s'.cfg)
    (hrecv : s.received = s'.received) (hk : resultKind reg = some r.dec.kind) :
    registerValue (s.deliver r) reg = registerValue (s'.deliver r) reg := by
  cases hd : r.dec with
  | u16 =>
    rw [hd] at hk
    cases reg <;> cases hk
    simp only [registerValue, State.deliver_r16_of_dec _ r hd, hrecv]
  | f32set =>
    rw [hd] at hk
    cases reg <;> cases hk
    simp only [registerValue, State.deliver_rf_of_dec _ r hd, hrecv]
  | u16set =>
    rw [hd] at hk
    cases reg <;> cases hk
    simp only [registerValue, State.deliver_ru_of_dec _ r hd, hrecv]
  | u32 =>
    rw [hd] at hk
    cases reg <;> cases hk
    simp only [registerValue, State.deliver_r32_of_dec _ r hd, hrecv]
  | ver =>
    rw [hd] at hk
    cases reg <;> cases hk
    · simp only [registerValue, State.deliver_rvMajor_of_dec _ r hd, hrecv]
    · simp only [registerValue, State.deliver_rvMinor_of_dec _ r hd, hrecv]
  | ascii cap =>
    rw [hd] at hk
    cases reg <;> cases hk
    · simp only [registerValue, State.deliver_rs_of_dec _ r cap hd, hrecv, hcfg]
    · simp only [registerValue, State.deliver_rsLen_of_dec _ r cap hd, hrecv, hcfg]

/-- R250: completion writes no result register. -/
theorem State.completeOk_registerValue (s : State) (kind k : ResKind) (reg : HostReg) (hk : resultKind reg = some k) :
    registerValue (s.completeOk kind) reg = registerValue s reg := by
  cases reg <;> cases hk <;> rfl

/-! ### The waits -/

theorem State.finishRead_of_ok (s : State) (r : RxPlan) (bs : List Byte) (h : (s.receive bs).frameCheck r = .ok) :
    s.finishRead r bs = (((s.receive bs).validate r).deliver r).completeOk r.kind := by
  rw [State.finishRead, h]

theorem State.finishRead_of_failure (s : State) (r : RxPlan) (bs : List Byte) (k : Nat)
    (h : (s.receive bs).frameCheck r = .checksumFailure k) :
    s.finishRead r bs = ((s.receive bs).validate r).raise (.checksumFailure k) := by
  rw [State.finishRead, h]

/-- Two reads that end with the same bytes end alike: the check and the decoder look at the bytes alone. -/
theorem State.finishRead_sameOutcome (s s' : State) (r : RxPlan) (bs : List Byte) (h : RunAlike s s')
    (hk : r.kind = r.dec.kind) : SameOutcome [] s s' (s.finishRead r bs) (s'.finishRead r bs) := by
  have hcheck : (s.receive bs).frameCheck r = (s'.receive bs).frameCheck r := by
    rw [State.frameCheck_receive s r bs h.rxbuf_wf, State.frameCheck_receive s' r bs h.rxbuf_wf']
  have hrecv : ((s.receive bs).validate r).received = ((s'.receive bs).validate r).received := by
    rw [State.received_validate, State.received_validate, State.received_receive s bs h.rxbuf_wf,
      State.received_receive s' bs h.rxbuf_wf']
  cases hc : (s.receive bs).frameCheck r with
  | ok =>
    rw [State.finishRead_of_ok s r bs hc, State.finishRead_of_ok s' r bs (hcheck ▸ hc)]
    refine ⟨rfl, rfl, ?_, ?_, ?_, fun reg k hreg => ?_⟩
    · simpa using h.env
    · simp
    · simp
    · refine State.hostRead_congr _ _ reg k hreg (by simpa using h.cfg) rfl fun hd => ?_
      have hkind : k = r.dec.kind := by rw [← hk]; exact hd.2.2.symm
      rw [State.completeOk_registerValue _ _ k reg hreg, State.completeOk_registerValue _ _ k reg hreg]
      exact State.deliver_registerValue ((s.receive bs).validate r) ((s'.receive bs).validate r) r reg h.cfg hrecv
        (hreg.trans (congrArg some hkind))
  | checksumFailure k =>
    rw [State.finishRead_of_failure s r bs k hc, State.finishRead_of_failure s' r bs k (hcheck ▸ hc)]
    exact sameOutcome_of_no_result h.cfg rfl rfl h.env (List.append_nil _).symm (List.append_nil _).symm
      (.inr (.inr rfl))

/-- A command that goes on waiting. -/
theorem RunAlike.sameOutcome {s s' : State} (h : RunAlike s s') : SameOutcome [] s s' s s' :=
  sameOutcome_of_no_result h.cfg h.status h.phase h.env (List.append_nil _).symm (List.append_nil _).symm
    (.inl h.not_done)

theorem RunAlike.setEnv {s s' : State} (h : RunAlike s s') (rest : List Event) :
    RunAlike (s.setEnv rest) (s'.setEnv rest) := { h with env := rfl }

theorem RunAlike.issueRead {s s' : State} (h : RunAlike s s') (r : RxPlan) :
    RunAlike (s.issueRead r) (s'.issueRead r) := { h with phase := rfl }

theorem RunAlike.raise {s s' : State} (h : RunAlike s s') (e : Raised) :
    SameOutcome [] s s' (s.raise e) (s'.raise e) :=
  sameOutcome_of_no_result h.cfg rfl rfl h.env (List.append_nil _).symm (List.append_nil _).symm
    (.inr (.inl (Status.raised_err_ne_ok e)))

theorem RunAlike.awaitRead {s s' : State} (h : RunAlike s s') (r : RxPlan) (hk : r.kind = r.dec.kind) :
    SameAnswer s s' (s.awaitRead r) (s'.awaitRead r) := by
  have he' := h.env
  rcases he : s.env with _ | ⟨⟨op⟩ | ⟨_ | bs | _⟩, rest⟩ <;> rw [he] at he'
  · exact .inl ⟨s, s', [], State.awaitRead_nil s r he, State.awaitRead_nil s' r he'.symm, h.sameOutcome⟩
  · exact .inl ⟨s, s', [], State.awaitRead_host s r op rest he, State.awaitRead_host s' r op rest he'.symm,
      h.sameOutcome⟩
  · exact .inr ⟨by rw [State.awaitRead, he], by rw [State.awaitRead, ← he']⟩
  · by_cases hl : bs.length = r.nbytes
    · obtain ⟨h1, h2, h3, h4, h5, h6⟩ := State.finishRead_sameOutcome _ _ r bs (h.setEnv rest) hk
      exact .inl ⟨_, _, [], State.awaitRead_bytes s r bs rest he hl, State.awaitRead_bytes s' r bs rest he'.symm hl,
        h1, h2, h3, h4, h5, h6⟩
    · exact .inr ⟨by rw [State.awaitRead, he]; exact if_neg hl, by rw [State.awaitRead, ← he']; exact if_neg hl⟩
  · obtain ⟨h1, h2, h3, h4, h5, h6⟩ := (h.setEnv rest).raise (.transportFailure .read)
    exact .inl ⟨_, _, [], State.awaitRead_error s r rest he, State.awaitRead_error s' r rest he'.symm,
      h1, h2, h3, h4, h5, h6⟩

theorem RunAlike.awaitWrite {s s' : State} (h : RunAlike s s') (hk : ∀ r, s.plan.rx = some r → r.kind = r.dec.kind) :
    SameAnswer s s' s.awaitWrite s'.awaitWrite := by
  have he' := h.env
  rcases he : s.env with _ | ⟨⟨op⟩ | ⟨_ | bs | _⟩, rest⟩ <;> rw [he] at he'
  · exact .inl ⟨s, s', [], State.awaitWrite_nil s he, State.awaitWrite_nil s' he'.symm, h.sameOutcome⟩
  · exact .inl ⟨s, s', [], State.awaitWrite_host s op rest he, State.awaitWrite_host s' op rest he'.symm, h.sameOutcome⟩
  · cases hr : s.plan.rx with
    | none =>
      refine .inl ⟨_, _, [], State.awaitWrite_done s rest he hr,
        State.awaitWrite_done s' rest he'.symm (h.plan ▸ hr), ?_⟩
      exact sameOutcome_of_no_result h.cfg rfl rfl rfl (List.append_nil _).symm (List.append_nil _).symm
        (.inr (.inr rfl))
    | some r =>
      rw [State.awaitWrite_done_read s r rest he hr, State.awaitWrite_done_read s' r rest he'.symm (h.plan ▸ hr)]
      refine sameAnswer_after_calls [.read s.cfg.devAddr r.nbytes s.samp.argTmo] rfl ?_
        (((h.setEnv rest).issueRead r).awaitRead r (hk r hr))
      rw [h.cfg, h.samp]
      rfl
  · exact .inr ⟨by rw [State.awaitWrite, he], by rw [State.awaitWrite, ← he']⟩
  · obtain ⟨h1, h2, h3, h4, h5, h6⟩ := (h.setEnv rest).raise (.transportFailure .write)
    exact .inl ⟨_, _, [], State.awaitWrite_error s rest he, State.awaitWrite_error s' rest he'.symm,
      h1, h2, h3, h4, h5, h6⟩

/-! ### The command as a whole -/

/-- R136, R137: with a canonical `TXBUF` the write carries the frame of the row. -/
theorem State.sentBytes_eq (s : State) (i : Instr) (hw : s.txbuf.wf = true) :
    s.sentBytes i = encPtrData (s.launch i).plan.opc (s.launch i).plan.data := State.build_frame s.accept _ hw

end Sys2Proof.Machine

namespace Sys2Proof.Proofs

open Sys2Proof Sys2Proof.Machine Sys2Proof.Safety Sys2Proof.Claims

/-- Settles O41: the two commands make the same write, from then on run alike, and so are answered alike. -/
theorem outcomeDependsOnArgumentsAlone : Obligations.OutcomeDependsOnArgumentsAlone := by
  intro i s s' ⟨htx, hrx⟩ ⟨htx', hrx'⟩ hcfg hcw hdata htmo henv
  suffices h : SameAnswer s s' (exec i s) (exec i s') by
    rcases h with ⟨t, t', made, ht, ht', h⟩ | h
    · exact .inl ⟨t, t', made, ht, ht', h.status, h.phase, h.env, h.calls, h.calls', h.reads⟩
    · exact .inr h
  cases hw : i.wellFormed with
  | false =>
    refine .inl ⟨_, _, [], exec_of_not_wellFormed i s hw, exec_of_not_wellFormed i s' hw, ?_⟩
    exact sameOutcome_of_no_result hcfg rfl rfl henv (List.append_nil _).symm (List.append_nil _).symm (.inr (.inr rfl))
  | true =>
    rw [exec_eq_awaitWrite i s hw, exec_eq_awaitWrite i s' hw]
    have hsamp : (s.launch i).samp = (s'.launch i).samp := by
      rw [State.launch_samp, State.launch_samp, hcw, hdata, htmo]
    have hplan : (s.launch i).plan = (s'.launch i).plan := by
      rw [State.launch_plan, State.launch_plan, hcfg, hcw, hdata, htmo]
    have hrun : RunAlike (s.launch i) (s'.launch i) :=
      ⟨hcfg, hsamp, hplan, henv, rfl, rfl, rfl, hrx, hrx'⟩
    have hsent : s'.sentBytes i = s.sentBytes i := by
      rw [State.sentBytes_eq s i htx, State.sentBytes_eq s' i htx', hplan]
    refine sameAnswer_after_calls [.write s.cfg.devAddr (s.sentBytes i) s.argTmo] (s.launch_calls i) ?_
      (hrun.awaitWrite fun r hr => (romRow_rx s.cfg _ i r hr).1)
    rw [State.launch_calls, hsent, hcfg, htmo]

end Sys2Proof.Proofs
end

section
/-! The invariant of the block: it holds after reset, and every step keeps it. What does not depend on the phase is held
by every operation on the way, and is kept apart as `DataInv`. -/

namespace Sys2Proof.Machine

open Sys2Proof Sys2Proof.Safety Sys2Proof.Claims

/-- The part of the invariant that speaks of registers, buffers and the row, and not of the phase. -/
structure DataInv (s : State) : Prop where
  tmo : s.argTmo < 2 ^ s.cfg.tmoW
  tmo_sampled : s.samp.argTmo < 2 ^ s.cfg.tmoW
  txbuf_wf : s.txbuf.wf = true
  txbuf_within : s.txbuf.within 8 = true
  txlen : s.txlen ≤ 8
  rxbuf_wf : s.rxbuf.wf = true
  rxbuf_within : s.rxbuf.within s.cfg.scratchMax = true
  rxlen : s.rxlen ≤ s.cfg.scratchMax
  widx : s.widx ≤ 127
  bidx : s.bidx ≤ s.cfg.scratchMax
  plan : PlanFits s.cfg s.plan
  string : StringTerminated s

theorem inv_data {s : State} (h : Inv s) : DataInv s :=
  ⟨h.tmo, h.tmo_sampled, h.txbuf_wf, h.txbuf_within, h.txlen, h.rxbuf_wf, h.rxbuf_within, h.rxlen, h.widx, h.bidx,
    h.plan, h.string⟩

/-- The phase-independent part with what the phase demands is the invariant. -/
theorem inv_of_data {s : State} (h : DataInv s) (rests : s.phase = .idle ∨ s.phase = .tx ∨ s.phase = .rx)
    (busy_iff : s.status.busy = (s.phase != .idle)) (go_idle : s.go = true → s.phase = .idle)
    (held : s.rst = true → s.phase = .idle ∧ s.go = false ∧ s.status.word = 0x0000#16)
    (status : StatusCoherent s.status) (call : CallMade s) : Inv s :=
  { rests, busy_iff, go_idle, held, status, call
    tmo := h.tmo, tmo_sampled := h.tmo_sampled, txbuf_wf := h.txbuf_wf, txbuf_within := h.txbuf_within, txlen := h.txlen
    rxbuf_wf := h.rxbuf_wf, rxbuf_within := h.rxbuf_within, rxlen := h.rxlen, widx := h.widx, bidx := h.bidx
    plan := h.plan, string := h.string }

/-- An idle block waits for no call. -/
theorem callMade_idle {s : State} (h : s.phase = .idle) : CallMade s := by
  constructor <;> intro hp <;> rw [h] at hp <;> cases hp

/-- The string is told by its own two registers and `STR_MAX` (R30). -/
theorem stringTerminated_of_eq {s t : State} (h : StringTerminated s) (hcfg : t.cfg = s.cfg := by rfl)
    (hrs : t.rs = s.rs := by rfl) (hlen : t.rsLen = s.rsLen := by rfl) : StringTerminated t := by
  constructor
  · rw [hrs, hcfg]; exact h.whole
  · rw [hlen, hcfg]; exact h.shorter
  · rw [hrs, hlen]; exact h.chars_nonzero
  · rw [hrs, hlen]; exact h.rest_zero

theorem callMade_of_eq {s t : State} (h : CallMade s) (hcfg : t.cfg = s.cfg := by rfl)
    (hsamp : t.samp = s.samp := by rfl) (hplan : t.plan = s.plan := by rfl) (hphase : t.phase = s.phase := by rfl) (hcalls : t.calls = s.calls := by rfl) :
    CallMade t := by
  constructor
  · rw [hphase, hcfg, hsamp, hplan, hcalls]; exact h.in_tx
  · rw [hphase, hcfg, hsamp, hplan, hcalls]; exact h.in_rx

/-! ### Reset -/

theorem byteAt_replicate_zero (n i : Nat) : byteAt (List.replicate n 0x00#8) i = 0x00#8 := by
  rw [byteAt, List.getD_eq_getElem?_getD, List.getElem?_replicate]
  split <;> rfl

theorem statusCoherent_reset (c : Config) : StatusCoherent (State.resetWith c).status :=
  ⟨nofun, nofun, fun h => absurd rfl h, fun h => absurd rfl h, fun h => absurd rfl h, fun h => absurd rfl h⟩

theorem dataInv_resetWith (c : Config) : DataInv (State.resetWith c) where
  tmo := Nat.two_pow_pos _
  tmo_sampled := Nat.two_pow_pos _
  txbuf_wf := rfl
  txbuf_within := rfl
  txlen := Nat.zero_le _
  rxbuf_wf := rfl
  rxbuf_within := rfl
  rxlen := Nat.zero_le _
  widx := Nat.zero_le _
  bidx := Nat.zero_le _
  plan := ⟨show 2 ≤ 8 by omega, nofun, nofun⟩
  string :=
    { whole := List.length_replicate
      shorter := Nat.zero_le _
      chars_nonzero := nofun
      rest_zero := fun i _ => byteAt_replicate_zero _ i }

theorem inv_resetWith (c : Config) : Inv (State.resetWith c) :=
  inv_of_data (dataInv_resetWith c) (.inl rfl) rfl nofun nofun (statusCoherent_reset c) (callMade_idle rfl)

/-- R270, R271: `RST` takes the block to its reset state, and holds it there. -/
theorem inv_applyRst (s : State) (b : Bool) : Inv (s.applyRst b) :=
  inv_of_data { dataInv_resetWith s.cfg with string := stringTerminated_of_eq (dataInv_resetWith s.cfg).string }
    (.inl rfl) rfl nofun (fun _ => ⟨rfl, rfl, s.applyRst_status_word b⟩) (statusCoherent_reset s.cfg)
    (callMade_idle rfl)

/-! ### The host's moves -/

/-- A move that touches no field of which the invariant speaks, or only the value of one, keeps it. -/
theorem inv_setEnv {s : State} (h : Inv s) (e : List Event) : Inv (s.setEnv e) :=
  { h with string := stringTerminated_of_eq h.string, call := callMade_of_eq h.call }

theorem inv_setCw {s : State} (h : Inv s) (v : Word32) : Inv (s.setCw v) :=
  { h with string := stringTerminated_of_eq h.string, call := callMade_of_eq h.call }

theorem inv_setArgData {s : State} (h : Inv s) (v : Word32) : Inv (s.setArgData v) :=
  { h with string := stringTerminated_of_eq h.string, call := callMade_of_eq h.call }

theorem inv_setArgTmo {s : State} (h : Inv s) (v : Nat) (hv : v < 2 ^ s.cfg.tmoW) : Inv (s.setArgTmo v) :=
  { h with tmo := hv, string := stringTerminated_of_eq h.string, call := callMade_of_eq h.call }

theorem inv_setCrcB0 {s : State} (h : Inv s) (v : Byte) : Inv (s.setCrcB0 v) :=
  { h with string := stringTerminated_of_eq h.string, call := callMade_of_eq h.call }

theorem inv_setCrcB1 {s : State} (h : Inv s) (v : Byte) : Inv (s.setCrcB1 v) :=
  { h with string := stringTerminated_of_eq h.string, call := callMade_of_eq h.call }

theorem inv_setRdata {s : State} (h : Inv s) (v : Nat) : Inv (s.setRdata v) :=
  { h with string := stringTerminated_of_eq h.string, call := callMade_of_eq h.call }

theorem inv_release {s : State} (h : Inv s) : Inv (s.setRst false) :=
  { h with held := nofun, string := stringTerminated_of_eq h.string, call := callMade_of_eq h.call }

/-- R32: a block that is not busy is idle. -/
theorem inv_idle_of_not_busy {s : State} (h : Inv s) (hb : s.status.busy = false) : s.phase = .idle := by
  have := h.busy_iff
  rw [hb] at this
  simpa using this.symm

/-- R36: the strobe is given only to a block that is not busy. -/
theorem inv_writeGo {s : State} (h : Inv s) (hrst : s.rst = false) (v : Bool) : Inv (s.writeGo v) := by
  rcases s.writeGo_cases v with ⟨-, hb, he⟩ | ⟨-, he⟩ <;> rw [he]
  · exact
      { h with
        go_idle := fun _ => inv_idle_of_not_busy (s := s) h hb
        held := fun hr => absurd (hrst.symm.trans hr) nofun
        string := stringTerminated_of_eq h.string
        call := callMade_of_eq h.call }
  · exact h

theorem inv_hostOp {s t : State} (h : Inv s) (hrst : s.rst = false) (op : HostOp) (ht : hostOp op s = .next t) :
    Inv t := by
  rcases hostOp_next op s t ht with ⟨v, -, rfl⟩ | ⟨v, -, rfl⟩ | ⟨v, -, rfl⟩ | ⟨v, -, rfl⟩ | ⟨v, -, rfl⟩ | ⟨v, -, rfl⟩ |
    ⟨r, v, -, -, rfl⟩ | ⟨b, -, rfl⟩ | ⟨-, rfl⟩
  · exact inv_setCw h v
  · exact inv_setArgData h v
  · exact inv_setArgTmo h _ (Nat.mod_lt _ (Nat.two_pow_pos _))
  · exact inv_writeGo h hrst v
  · exact inv_setCrcB0 h v
  · exact inv_setCrcB1 h v
  · exact inv_setRdata h v
  · exact inv_applyRst s b
  · exact inv_release h

theorem inv_heldStep {s t : State} (h : Inv s) (ht : heldStep s = .next t) : Inv t := by
  rcases heldStep_next s t ht with rfl | ⟨m, rest, -, rfl⟩ | ⟨r, v, rest, -, -, rfl⟩ | ⟨rest, -, rfl⟩
  · exact h
  · exact inv_setEnv h rest
  · exact inv_setRdata (inv_setEnv h rest) v
  · exact inv_release (inv_setEnv h rest)

/-! ### The operations of a command -/

theorem dataInv_setEnv {s : State} (h : DataInv s) (e : List Event) : DataInv (s.setEnv e) :=
  { h with string := stringTerminated_of_eq h.string }

theorem dataInv_complete {s : State} (h : DataInv s) (st : Status) : DataInv (s.complete st) :=
  { h with string := stringTerminated_of_eq h.string }

theorem dataInv_issueWrite {s : State} (h : DataInv s) : DataInv s.issueWrite :=
  { h with string := stringTerminated_of_eq h.string }

theorem dataInv_issueRead {s : State} (h : DataInv s) (r : RxPlan) : DataInv (s.issueRead r) :=
  { h with string := stringTerminated_of_eq h.string }

theorem dataInv_accept {s : State} (h : DataInv s) : DataInv s.accept :=
  { h with tmo_sampled := h.tmo, string := stringTerminated_of_eq h.string }

theorem eight_le_scratchMax (c : Config) : 8 ≤ c.scratchMax := by
  rw [Config.scratchMax]; omega

/-- R51: the frame of a row that fits is built inside `TXBUF`. -/
theorem dataInv_build {s : State} (h : DataInv s) (p : Plan) (hp : PlanFits s.cfg p) : DataInv (s.build p) :=
  { h with
    txbuf_wf := memWrite_wf s.txbuf 0 _ h.txbuf_wf
    txbuf_within := memWrite_within s.txbuf 0 8 _ (by have := hp.data_fits; omega) h.txbuf_within
    txlen := hp.data_fits
    bidx := hp.data_fits.trans (eight_le_scratchMax s.cfg)
    plan := hp
    string := stringTerminated_of_eq h.string }

/-- R52, R63: bytes no more than the scratch buffer holds are received inside it. -/
theorem dataInv_receive {s : State} (h : DataInv s) (bs : List Byte) (hl : bs.length ≤ s.cfg.scratchMax) :
    DataInv (s.receive bs) :=
  { h with
    rxbuf_wf := memWrite_wf s.rxbuf 0 bs h.rxbuf_wf
    rxbuf_within := memWrite_within s.rxbuf 0 _ bs ((Nat.zero_add _).trans_le hl) h.rxbuf_within
    rxlen := hl
    string := stringTerminated_of_eq h.string }

/-- R33: the word loop ends at a Word of the frame, or past its last one. -/
theorem checkIndex_validateFrame_le (rx : List Byte) (W : Nat) : checkIndex W (validateFrame rx W) ≤ W := by
  cases hc : validateFrame rx W with
  | ok => exact le_refl W
  | checksumFailure k =>
    have := ((validateFrom_failure rx W 0 k).mp hc).2.1
    simp only [checkIndex]
    omega

theorem dataInv_validate {s : State} (h : DataInv s) (r : RxPlan) (hw : r.words ≤ 127) : DataInv (s.validate r) :=
  { h with
    widx := (checkIndex_validateFrame_le s.received r.words).trans hw
    string := stringTerminated_of_eq h.string }

/-! ### The string -/

/-- R186: no character taken is zero. -/
theorem asciiChars_ne_zero (D : List Byte) (room : Nat) : ∀ b ∈ asciiChars D room, b ≠ 0x00#8 := by
  induction D generalizing room with
  | nil => cases room <;> simp [asciiChars]
  | cons b D ih =>
    cases room with
    | zero => simp [asciiChars]
    | succ room =>
      simp only [asciiChars]
      split
      · simp
      · rename_i hb
        intro x hx
        rcases List.mem_cons.mp hx with rfl | hx
        · exact hb
        · exact ih room x hx

/-- R30, R187: what the string decoder makes of a data view that the string buffer has room for is a terminated
string. -/
theorem stringTerminated_decAscii {t : State} (D : List Byte) (cap : Byte) (hD : D.length ≤ t.cfg.strMax - 1)
    (hrs : t.rs = (decAscii t.cfg.strMax D cap).1) (hlen : t.rsLen = BitVec.ofNat 8 (decAscii t.cfg.strMax D cap).2) :
    StringTerminated t := by
  obtain ⟨hroom, hdata⟩ := asciiChars_length_le D (cap.toNat - 1)
  have hn : t.rsLen.toNat = (asciiChars D (cap.toNat - 1)).length := by
    rw [hlen, decAscii_snd, BitVec.toNat_ofNat, Nat.mod_eq_of_lt]
    have := cap.isLt
    omega
  rw [decAscii_fst] at hrs
  constructor
  · rw [hrs, List.length_append, List.length_replicate]
    have : 1 ≤ t.cfg.strMax := by rw [Config.strMax]; omega
    omega
  · rw [hn]; omega
  · intro i hi
    rw [hn] at hi
    rw [hrs, byteAt_append_left _ _ i hi, byteAt_eq_getElem _ i hi]
    exact asciiChars_ne_zero D _ _ (List.getElem_mem hi)
  · intro i hi
    rw [hn] at hi
    rw [hrs, byteAt_append_right _ _ i hi, byteAt_replicate_zero]

/-- R155: a decoder writes registers that the rest of the invariant does not speak of, or, of an identity read, the
string, whose data view the string buffer has room for (R157). -/
theorem dataInv_deliver {s : State} (h : DataInv s) (r : RxPlan) (hw : 3 * r.words ≤ s.cfg.scratchMax) :
    DataInv (s.deliver r) := by
  unfold State.deliver
  cases r.dec with
  | ascii cap =>
    have hD : (dataView s.received r.words).length ≤ s.cfg.strMax - 1 := by
      rw [dataView_length, Config.strMax]
      omega
    have hb : (decAscii s.cfg.strMax (dataView s.received r.words) cap).2 ≤ s.cfg.scratchMax := by
      have hlen := (asciiChars_length_le (dataView s.received r.words) (cap.toNat - 1)).2
      rw [dataView_length] at hlen
      rw [decAscii_snd]
      omega
    exact { h with
      bidx := hb
      string := stringTerminated_decAscii (dataView s.received r.words) cap hD rfl rfl }
  | _ => exact { h with string := stringTerminated_of_eq h.string }

/-- R150 to R155: a read of a row that fits keeps the registers and buffers as they must be. -/
theorem dataInv_finishRead {s : State} (h : DataInv s) (r : RxPlan) (bs : List Byte) (hr : s.plan.rx = some r)
    (hl : bs.length = r.nbytes) : DataInv (s.finishRead r bs) := by
  have hread := h.plan.read_fits r hr
  obtain ⟨hfit, hwords⟩ := h.plan.words_fit r hr
  have hv : DataInv ((s.receive bs).validate r) := dataInv_validate (dataInv_receive h bs (hl.trans_le hread)) r hwords
  rcases State.finishRead_cases s r bs with ⟨-, he⟩ | ⟨k, -, he⟩ <;> rw [he]
  · exact dataInv_complete (dataInv_deliver hv r (hfit.trans hread)) _
  · exact dataInv_complete hv _

/-! ### STATUS -/

theorem statusCoherent_atGo : StatusCoherent Status.atGo :=
  ⟨fun _ => rfl, fun _ => rfl, fun h => absurd rfl h, fun h => absurd rfl h, fun h => absurd rfl h,
    fun h => absurd rfl h⟩

theorem statusCoherent_success (kind : ResKind) : StatusCoherent (Status.success kind) :=
  ⟨nofun, nofun, fun _ => ⟨rfl, rfl⟩, fun _ => rfl, fun h => absurd rfl h, fun h => absurd rfl h⟩

/-- R245 to R247: each fault field stands only with its own error. -/
theorem statusCoherent_raised (e : Raised) : StatusCoherent (Status.raised e) := by
  cases e with
  | invalidArgument =>
    exact ⟨nofun, nofun, fun h => absurd rfl h, fun _ => rfl, fun h => absurd rfl h, fun h => absurd rfl h⟩
  | transportFailure p => exact ⟨nofun, nofun, fun h => absurd rfl h, fun _ => rfl, fun _ => rfl, fun h => absurd rfl h⟩
  | checksumFailure k => exact ⟨nofun, nofun, fun h => absurd rfl h, fun _ => rfl, fun h => absurd rfl h, fun _ => rfl⟩

theorem Status.raised_busy (e : Raised) : (Status.raised e).busy = false := by cases e <;> rfl

/-! ### A command waits and completes -/

/-- R250: a command that is complete leaves the block idle. -/
theorem inv_complete {s : State} (h : DataInv s) (hrst : s.rst = false) (st : Status) (hb : st.busy = false)
    (hc : StatusCoherent st) : Inv (s.complete st) :=
  inv_of_data (dataInv_complete h st) (.inl rfl) hb (fun _ => rfl) (fun hr => absurd (hrst.symm.trans hr) nofun) hc
    (callMade_idle rfl)

theorem inv_raise {s : State} (h : DataInv s) (hrst : s.rst = false) (e : Raised) : Inv (s.raise e) :=
  inv_complete h hrst _ (Status.raised_busy e) (statusCoherent_raised e)

/-- R36, R137: the command of a block that was good waits in `TX` with its write made. -/
theorem inv_launch {s : State} (h : Inv s) (hrst : s.rst = false) (i : Instr) : Inv (s.launch i) :=
  inv_of_data (dataInv_issueWrite (dataInv_build (dataInv_accept (inv_data h)) _ (romRow_fits s.cfg s.accept.samp i)))
    (.inr (.inl rfl)) rfl nofun (fun hr => absurd (hrst.symm.trans hr) nofun) statusCoherent_atGo
    { in_tx := fun _ => by
        rw [State.launch_calls, List.getLast?_concat, State.sentBytes_eq s i h.txbuf_wf]
        rfl
      in_rx := nofun }

/-- R32, R36: what holds of a block that waits. -/
theorem inv_waiting {s : State} (h : Inv s) (hp : s.phase = .tx ∨ s.phase = .rx) :
    s.status.busy = true ∧ s.go = false := by
  have hne : s.phase ≠ .idle := by rcases hp with hp | hp <;> rw [hp] <;> exact nofun
  refine ⟨by rw [h.busy_iff]; simpa using hne, ?_⟩
  cases hg : s.go with
  | false => rfl
  | true => exact absurd (h.go_idle hg) hne

/-- R138, R150: the write answered `Ok`, the read is made and waits in `RX`. -/
theorem inv_issueRead {s : State} (h : Inv s) (hrst : s.rst = false) (hp : s.phase = .tx) (r : RxPlan)
    (hr : s.plan.rx = some r) : Inv (s.issueRead r) := by
  obtain ⟨hb, hg⟩ := inv_waiting h (.inl hp)
  exact inv_of_data (dataInv_issueRead (inv_data h) r) (.inr (.inr rfl)) hb
    (fun hgo => absurd (hg.symm.trans hgo) nofun) (fun hrs => absurd (hrst.symm.trans hrs) nofun) h.status
    { in_tx := nofun
      in_rx := fun _ => ⟨r, hr, by rw [State.issueRead_calls, List.getLast?_concat]; rfl⟩ }

theorem inv_finishRead {s : State} (h : DataInv s) (hrst : s.rst = false) (r : RxPlan) (bs : List Byte)
    (hr : s.plan.rx = some r) (hl : bs.length = r.nbytes) : Inv (s.finishRead r bs) := by
  have hd := dataInv_finishRead h r bs hr hl
  have hrst' : (s.finishRead r bs).rst = false := (State.finishRead_waitKeeps s r bs).arguments.rst.trans hrst
  have hst : (s.finishRead r bs).status.busy = false ∧ StatusCoherent (s.finishRead r bs).status := by
    rcases State.finishRead_cases s r bs with ⟨-, he⟩ | ⟨k, -, he⟩ <;> rw [he]
    · exact ⟨rfl, statusCoherent_success r.kind⟩
    · exact ⟨rfl, statusCoherent_raised (.checksumFailure k)⟩
  have hphase := State.finishRead_phase s r bs
  exact inv_of_data hd (.inl hphase) (by rw [hst.1, hphase]; rfl) (fun _ => hphase)
    (fun h => absurd (hrst'.symm.trans h) nofun) hst.2 (callMade_idle hphase)

theorem inv_awaitRead {s t : State} (h : Inv s) (hrst : s.rst = false) (r : RxPlan) (hr : s.plan.rx = some r)
    (ht : s.awaitRead r = .next t) : Inv t := by
  rcases State.awaitRead_next s t r ht with ⟨rfl, -⟩ | ⟨rest, -, rfl⟩ | ⟨bs, rest, -, hl, rfl⟩
  · exact h
  · exact inv_raise (dataInv_setEnv (inv_data h) rest) hrst _
  · exact inv_finishRead (dataInv_setEnv (inv_data h) rest) hrst r bs hr hl

theorem inv_awaitWrite {s t : State} (h : Inv s) (hrst : s.rst = false) (hp : s.phase = .tx)
    (ht : s.awaitWrite = .next t) : Inv t := by
  rcases State.awaitWrite_next s t ht with ⟨rfl, -⟩ | ⟨rest, -, rfl⟩ | ⟨rest, -, -, rfl⟩ | ⟨r, rest, -, hr, ht⟩
  · exact h
  · exact inv_raise (dataInv_setEnv (inv_data h) rest) hrst _
  · exact inv_complete (dataInv_setEnv (inv_data h) rest) hrst _ rfl (statusCoherent_success .none)
  · exact inv_awaitRead (inv_issueRead (inv_setEnv h rest) hrst hp r hr) hrst r hr ht

/-- R200: a command run from a good block leaves a good block, wherever it comes to rest. -/
theorem inv_exec {s t : State} (h : Inv s) (hrst : s.rst = false) (i : Instr) (ht : exec i s = .next t) : Inv t := by
  rcases exec_next i s t ht with ⟨-, rfl⟩ | ⟨-, ht⟩
  · exact inv_raise (dataInv_accept (inv_data h)) hrst _
  · exact inv_awaitWrite (inv_launch h hrst i) hrst rfl ht

end Sys2Proof.Machine

namespace Sys2Proof.Proofs

open Sys2Proof Sys2Proof.Machine Sys2Proof.Safety Sys2Proof.Claims

/-- Settles O49: the reset state of any configuration is good. -/
theorem invariantAtReset : Obligations.InvariantAtReset := inv_resetWith Config.chosen

/-- Settles O50, by what a step can do: be held in reset, run a command, refuse a word, or let the environment move. -/
theorem stepKeepsTheInvariant : Obligations.StepKeepsTheInvariant := by
  intro s t h ht
  cases hrst : s.rst with
  | true => exact inv_heldStep h (by rw [← step_held s hrst, ht])
  | false =>
    rcases step_next_cases s t ht hrst h.rests with ⟨-, -, i, -, ht⟩ | ⟨-, -, rfl⟩ | rfl | ⟨-, a, rest, -, rfl⟩ |
      ⟨op, rest, -, ht⟩ | ⟨hp, ht⟩ | ⟨-, r, hr, ht⟩
    · exact inv_exec h hrst i ht
    · exact inv_raise (dataInv_accept (inv_data h)) hrst _
    · exact h
    · exact inv_setEnv h rest
    · exact inv_hostOp (inv_setEnv h rest) hrst op ht
    · exact inv_awaitWrite h hrst hp ht
    · exact inv_awaitRead h hrst r hr ht

end Sys2Proof.Proofs
end

section
/-! The transmit buffer, the sizing of an identity read, and the answers that a Transport never gives (R51, R56, R57,
R156). -/

namespace Sys2Proof.Machine

open Sys2Proof Sys2Proof.Safety Sys2Proof.Claims

/-! ### A placed command word -/

/-- R80, R100: a numbered word is a command when it is no longer than a command word and its bits decode to one. -/
theorem decodeTableWord_eq_some (nbits w : Nat) (i : Instr) :
    decodeTableWord nbits w = some i ↔ nbits ≤ 32 ∧ decode (BitVec.ofNat 32 (w % 2 ^ nbits)) = .command i := by
  unfold decodeTableWord
  by_cases hn : 32 < nbits
  · simp [hn, Nat.not_le.mpr hn]
  · cases hd : decode (BitVec.ofNat 32 (w % 2 ^ nbits)) <;> simp [hn, Nat.not_lt.mp hn]

/-- R36, R200: the strobe taken with a word that decodes to a command runs that command. -/
theorem step_of_decoded (s : State) (i : Instr) (hs : s.rst = false) (hp : s.phase = .idle) (hg : s.go = true)
    (hd : decode s.cw = .command i) : step s = exec i s := by
  rw [step_idle_go s hs hp hg, hd]

/-! ### The sizing of an identity read -/

/-- R157: the whole Words of an identity read fit it and leave at most two bytes over. -/
theorem idWords_bounds (c : Config) (cap : Byte) :
    3 * idWords c cap ≤ idNbytes c cap ∧ idNbytes c cap ≤ 3 * idWords c cap + 2 := by
  rw [idWords]
  omega

/-- R63, R156: an identity read asks for no more than the scratch buffer holds, nor than the capacity 255 needs. -/
theorem idNbytes_le (c : Config) (cap : Byte) : idNbytes c cap ≤ c.scratchMax ∧ idNbytes c cap ≤ 381 := by
  have := cap.isLt
  rw [idNbytes]
  omega

theorem idNbytes_of_not_clamped (c : Config) (cap : Byte) (h : (cap.toNat - 1) * 3 / 2 ≤ c.scratchMax) :
    idNbytes c cap = (cap.toNat - 1) * 3 / 2 := Nat.min_eq_left h

theorem idNbytes_of_clamped (c : Config) (cap : Byte) (h : c.scratchMax ≤ (cap.toNat - 1) * 3 / 2) :
    idNbytes c cap = c.scratchMax := Nat.min_eq_right h

/-! ### The frame in TXBUF -/

/-- R96: a row has the opcode of its command. -/
@[simp] theorem romRow_opc (c : Config) (a : Sampled) (i : Instr) : (romRow c a i).opc = i.opc := by cases i <;> rfl

/-- R96, R136: the data bytes of a command's row are those it sends. -/
theorem State.launch_plan_data (s : State) (i : Instr) : (s.launch i).plan.data = sentData s i := by cases i <;> rfl

/-- R131: the data bytes come in whole pairs: one for STARTM, two for SETACI, none for the others. -/
theorem sentData_length_even (s : State) (i : Instr) : 2 ∣ (sentData s i).length := by
  cases i with
  | startm fmt => exact ⟨1, rfl⟩
  | setaci => exact ⟨2, rfl⟩
  | _ => exact ⟨0, rfl⟩

theorem sentData_length (s : State) (i : Instr) : (sentData s i).length = 2 * ((sentData s i).length / 2) :=
  (Nat.mul_div_cancel' (sentData_length_even s i)).symm

/-- R132: a frame is the two bytes of the pointer and then the Words. -/
theorem encPtrData_eq_cons (opc : Half) (d : List Byte) :
    encPtrData opc d = opc.extractLsb' 8 8 :: opc.extractLsb' 0 8 :: encWords d := rfl

/-- R51, R56: the frame that a command sends. -/
theorem State.launch_frame (s : State) (i : Instr) :
    encPtrData (s.launch i).plan.opc (s.launch i).plan.data =
      i.opc.extractLsb' 8 8 :: i.opc.extractLsb' 0 8 :: encWords (sentData s i) := by
  rw [State.launch_plan_data, State.launch_plan, romRow_opc, encPtrData_eq_cons]

theorem State.launch_txlen_eq (s : State) (i : Instr) :
    (s.launch i).txlen = 2 + 3 * ((sentData s i).length / 2) := by
  rw [State.launch_txlen, State.launch_frame, List.length_cons, List.length_cons,
    encWords_length _ _ (sentData_length s i)]
  omega

/-- R51: with its write made, a command's frame stands in `TXBUF` byte by byte. -/
theorem State.launch_txbuf_read (s : State) (i : Instr) (hw : s.txbuf.wf = true) (j : Nat)
    (hj : j < 2 + 3 * ((sentData s i).length / 2)) :
    (s.launch i).txbuf.read j =
      byteAt (i.opc.extractLsb' 8 8 :: i.opc.extractLsb' 0 8 :: encWords (sentData s i)) j := by
  rw [← State.launch_txlen_eq, State.launch_txlen] at hj
  have hread := memWrite_read_inside s.txbuf 0 _ j hw hj
  rw [Nat.zero_add] at hread
  rw [State.launch_txbuf, hread, State.launch_frame, byteAt]

/-- R51, R114: Word `k` of a command stands in `TXBUF` behind the pointer, with its own checksum. -/
theorem State.launch_txbuf_word (s : State) (i : Instr) (hw : s.txbuf.wf = true) (k : Nat)
    (hk : 2 * k < (sentData s i).length) :
    (s.launch i).txbuf.read (2 + 3 * k) = byteAt (sentData s i) (2 * k) ∧
    (s.launch i).txbuf.read (3 + 3 * k) = byteAt (sentData s i) (2 * k + 1) ∧
    (s.launch i).txbuf.read (4 + 3 * k) =
      checksum (byteAt (sentData s i) (2 * k)) (byteAt (sentData s i) (2 * k + 1)) := by
  have hlen := sentData_length s i
  have hread (j : Nat) (hj : j < 3 * ((sentData s i).length / 2)) :
      (s.launch i).txbuf.read (j + 1 + 1) = byteAt (encWords (sentData s i)) j := by
    rw [State.launch_txbuf_read s i hw _ (by omega), byteAt_cons_succ, byteAt_cons_succ]
  obtain ⟨h0, h1, h2⟩ := byteAt_encWords _ _ hlen k (by omega)
  refine ⟨?_, ?_, ?_⟩
  · rw [show 2 + 3 * k = 3 * k + 1 + 1 by omega, hread _ (by omega), h0]
  · rw [show 3 + 3 * k = 3 * k + 1 + 1 + 1 by omega, hread _ (by omega), h1]
  · rw [show 4 + 3 * k = 3 * k + 2 + 1 + 1 by omega, hread _ (by omega), h2]

/-! ### Answers outside the contract -/

/-- R57, S8: every answer that breaks the contract of a read is refused in `RX`. -/
theorem State.awaitRead_of_breaks (s : State) (r : RxPlan) (h : BreaksRead r.nbytes s.env) :
    s.awaitRead r = .refused .transportContract := by
  rcases h with ⟨rest, he⟩ | ⟨bs, rest, he, hl⟩
  · rw [State.awaitRead, he]
  · rw [State.awaitRead, he]
    exact if_neg hl

/-- R56, R57, S8: in `TX` every answer that breaks the contract of the write, or of the read that follows, is refused. -/
theorem State.awaitWrite_of_breaks (s : State) (h : BreaksContract (s.plan.rx.map RxPlan.nbytes) s.env) :
    s.awaitWrite = .refused .transportContract := by
  rcases h with ⟨bs, rest, he⟩ | ⟨n, rest, hn, he, hb⟩
  · rw [State.awaitWrite, he]
  · obtain ⟨r, hr, rfl⟩ := Option.map_eq_some_iff.mp hn
    rw [State.awaitWrite_done_read s r rest he hr]
    exact State.awaitRead_of_breaks _ r hb

theorem breaksRead_ne_host {n : Nat} {env : List Event} (h : BreaksRead n env) (op : HostOp) (rest : List Event) :
    env ≠ .host op :: rest := by
  rcases h with ⟨_, rfl⟩ | ⟨_, _, rfl, -⟩ <;> exact nofun

theorem breaksContract_ne_host {reads : Option Nat} {env : List Event} (h : BreaksContract reads env) (op : HostOp)
    (rest : List Event) : env ≠ .host op :: rest := by
  rcases h with ⟨_, _, rfl⟩ | ⟨_, _, -, rfl, -⟩ <;> exact nofun

/-- R57, R96: the bytes that a command's row reads are those of its shape. -/
theorem State.launch_reads (s : State) (i : Instr) :
    (s.launch i).plan.rx.map RxPlan.nbytes = (readShaped s.cfg i).map Prod.snd := by
  rw [readShaped_eq_romRow s.cfg s.accept.samp i, Option.map_map]
  rfl

end Sys2Proof.Machine

/-! ### The statements about the transmit buffer, the sizing and the Transport's contract -/

namespace Sys2Proof.Proofs

open Sys2Proof Sys2Proof.Machine Sys2Proof.Safety Sys2Proof.Claims

/-- Settles O31: the write is made with the frame in `TXBUF`, and no answer of the Transport touches the transmit side or
takes the call back. -/
theorem transmitBufferLayout : Obligations.TransmitBufferLayout := by
  intro i s t hw hwf h
  rw [exec_eq_awaitWrite i s hw] at h
  have hkeep := State.awaitWrite_waitKeeps _ t h
  have hcalls := (State.awaitWrite_keepsLog _ t h).2
  rw [hkeep.txbuf, hkeep.txlen]
  refine ⟨s.launch_txlen_eq i, s.launch_txbuf_read i hwf 0 (by omega), s.launch_txbuf_read i hwf 1 (by omega),
    s.launch_txbuf_word i hwf, hcalls.subset ?_⟩
  rw [State.launch_calls, State.sentBytes]
  exact List.mem_append_right _ (List.mem_singleton_self _)

/-- Settles O7: a placed word is one that the strobe finds in `CW`. -/
theorem stepRunsTheDecodedCommand : Obligations.StepRunsTheDecodedCommand :=
  ⟨step_of_decoded, fun s w i h =>
    step_of_decoded (s.withFetchWord 32 w) i rfl rfl rfl ((decodeTableWord_eq_some 32 w i).mp h).2⟩

/-- Settles O17: every bound is one of the read's size, by whether it is clamped. -/
theorem identitySizing : Obligations.IdentitySizing := by
  intro c cap hcap
  have hpos : cap.toNat ≠ 0 := fun h => hcap (BitVec.eq_of_toNat_eq h)
  obtain ⟨hfit, hmax⟩ := idNbytes_le c cap
  obtain ⟨hlow, hhigh⟩ := idWords_bounds c cap
  refine ⟨hfit, Nat.div_le_div_right hfit, by omega, hlow, hhigh, fun h => ?_, idNbytes_of_clamped c cap⟩
  have hn := idNbytes_of_not_clamped c cap h
  constructor <;> intro hparity <;> omega

/-- Settles O54: the answer reaches the wait for the write, or for the read, of the command it answers. -/
theorem contractBreachesAreRefused : Obligations.ContractBreachesAreRefused := by
  refine ⟨fun i s hw hb => ?_, fun s hrst hp hb => ?_, fun s r hrst hp hr hb => ?_⟩
  · rw [exec_eq_awaitWrite i s hw]
    exact State.awaitWrite_of_breaks (s.launch i) (by rw [State.launch_reads]; exact hb)
  · rw [step_tx s hrst hp (breaksContract_ne_host hb)]
    exact State.awaitWrite_of_breaks s hb
  · rw [step_rx s r hrst hp hr (breaksRead_ne_host hb)]
    exact State.awaitRead_of_breaks s r hb

end Sys2Proof.Proofs
end

section
/-! The command word: decoding is the choice of a row by the word's three fields (30_encoding.md R80 to R84, R97 to
R101). -/

namespace Sys2Proof

open Sys2Proof.Claims

/-! ### The choice of a row -/

theorem withoutArg8_eq_command (arg8 : Byte) (i j : Instr) :
    withoutArg8 arg8 i = .command j ↔ arg8 = 0x00#8 ∧ i = j := by
  unfold withoutArg8
  split <;> simp [*]

/-- R97, R101 steps 1 to 3: what the fields of a word must be, `ARG8` apart, for a row to be chosen. -/
structure RowFields (w : Word32) : Prop where
  rsv : cwRsv w = 0#7
  opcode : cwOpc w ∈ wireOpcodes
  dir : cwDir w = 1#1 → cwOpc w = 0x8004#16

/-- R101: a word is a command when its fields select a row and that row is the command's. -/
theorem decode_eq_command_iff (w : Word32) (i : Instr) :
    decode w = .command i ↔ RowFields w ∧ selectRow (cwOpc w) (cwArg8 w) (cwDir w) = .command i := by
  unfold decode
  constructor
  · intro h
    split_ifs at h with hrsv hopc hdir
    exact ⟨⟨not_not.mp hrsv, by simpa using hopc, fun hd => by_contra fun ho => hdir ⟨hd, ho⟩⟩, h⟩
  · rintro ⟨⟨hrsv, hopc, hdir⟩, h⟩
    rw [if_neg (not_not.mpr hrsv), if_neg (by simpa using hopc), if_neg fun hd => hd.2 (hdir hd.1), h]

/-- R96, R101 step 4: the fields of a command's word select its row. -/
theorem selectRow_fields (i : Instr) : selectRow i.opc i.arg8 i.dir = .command i := by cases i <;> rfl

/-- R81: the 14 opcodes, one case for each. -/
theorem mem_wireOpcodes (opc : Half) : opc ∈ wireOpcodes ↔
    opc = 0x0010#16 ∨ opc = 0x0104#16 ∨ opc = 0x0202#16 ∨ opc = 0x0300#16 ∨ opc = 0x1001#16 ∨ opc = 0x1103#16 ∨
    opc = 0x5607#16 ∨ opc = 0x8004#16 ∨ opc = 0xD002#16 ∨ opc = 0xD033#16 ∨ opc = 0xD100#16 ∨ opc = 0xD206#16 ∨
    opc = 0xD210#16 ∨ opc = 0xD304#16 := by
  simp [wireOpcodes]

theorem Instr.opc_mem_wireOpcodes (i : Instr) : i.opc ∈ wireOpcodes := by
  cases i <;> simp [Instr.opc, wireOpcodes]

/-- R83: `DIR` is 1 for `SETACI` alone, whose opcode is `0x8004`. -/
theorem Instr.opc_of_dir (i : Instr) (h : i.dir = 1#1) : i.opc = 0x8004#16 := by
  cases i with
  | setaci => rfl
  | _ => cases h

theorem rowFields_encode (i : Instr) : RowFields (encode i) where
  rsv := cwRsv_packCw _ _ _
  opcode := by rw [encode, cwOpc_packCw]; exact i.opc_mem_wireOpcodes
  dir h := by
    rw [encode, cwDir_packCw] at h
    rw [encode, cwOpc_packCw, i.opc_of_dir h]

/-- R82, R83, R96: the opcode, `ARG8` and `DIR` of a command. -/
def HasFields (opc : Half) (arg8 : Byte) (dir : BitVec 1) (i : Instr) : Prop :=
  i.opc = opc ∧ i.arg8 = arg8 ∧ i.dir = dir

theorem hasFields_of_withoutArg8 {opc : Half} {arg8 : Byte} {dir : BitVec 1} {i : Instr} (j : Instr)
    (hj : HasFields opc 0x00#8 dir j) (h : withoutArg8 arg8 j = .command i) : HasFields opc arg8 dir i := by
  obtain ⟨rfl, rfl⟩ := (withoutArg8_eq_command arg8 j i).mp h
  exact hj

/-- R96, R98: the fields that select a command's row are those of its word. -/
theorem hasFields_of_selectRow (opc : Half) (arg8 : Byte) (dir : BitVec 1) (i : Instr) (hopc : opc ∈ wireOpcodes)
    (hd : dir = 1#1 → opc = 0x8004#16) (h : selectRow opc arg8 dir = .command i) : HasFields opc arg8 dir i := by
  rcases BitVec.eq_zero_or_eq_one dir with rfl | rfl
  · rcases (mem_wireOpcodes opc).mp hopc with
      rfl | rfl | rfl | rfl | rfl | rfl | rfl | rfl | rfl | rfl | rfl | rfl | rfl | rfl
    · cases h
      exact ⟨rfl, rfl, rfl⟩
    · exact hasFields_of_withoutArg8 .stopm ⟨rfl, rfl, rfl⟩ h
    · exact hasFields_of_withoutArg8 .rdrdy ⟨rfl, rfl, rfl⟩ h
    · replace h : (if arg8 = 0x03#8 then Decoded.command .rdvalF
        else if arg8 = 0x05#8 then .command .rdvalI else .illegal .noSuchFormat) = .command i := h
      split_ifs at h with h3 h5 <;> cases h
      · exact ⟨rfl, h3.symm, rfl⟩
      · exact ⟨rfl, h5.symm, rfl⟩
    · exact hasFields_of_withoutArg8 .sleep ⟨rfl, rfl, rfl⟩ h
    · exact hasFields_of_withoutArg8 .wake ⟨rfl, rfl, rfl⟩ h
    · exact hasFields_of_withoutArg8 .fancln ⟨rfl, rfl, rfl⟩ h
    · exact hasFields_of_withoutArg8 .getaci ⟨rfl, rfl, rfl⟩ h
    · cases h
      exact ⟨rfl, rfl, rfl⟩
    · cases h
      exact ⟨rfl, rfl, rfl⟩
    · exact hasFields_of_withoutArg8 .rdver ⟨rfl, rfl, rfl⟩ h
    · exact hasFields_of_withoutArg8 .rdstat ⟨rfl, rfl, rfl⟩ h
    · exact hasFields_of_withoutArg8 .clrstat ⟨rfl, rfl, rfl⟩ h
    · exact hasFields_of_withoutArg8 .reset ⟨rfl, rfl, rfl⟩ h
  · obtain rfl := hd rfl
    exact hasFields_of_withoutArg8 .setaci ⟨rfl, rfl, rfl⟩ h

/-! ### Legal words -/

/-- R82, R97: `ARG8` is legal for an opcode. -/
structure LegalArg (opc : Half) (arg8 : Byte) : Prop where
  format : opc = 0x0010#16 ∨ opc = 0x0300#16 → arg8 = 0x03#8 ∨ arg8 = 0x05#8
  capacity : opc = 0xD002#16 ∨ opc = 0xD033#16 → arg8 ≠ 0x00#8
  unused : opc ≠ 0x0010#16 ∧ opc ≠ 0x0300#16 ∧ opc ≠ 0xD002#16 ∧ opc ≠ 0xD033#16 → arg8 = 0x00#8

theorem fmtLegal_iff (fmt : Byte) : fmtLegal fmt = true ↔ fmt = 0x03#8 ∨ fmt = 0x05#8 := by simp [fmtLegal]

theorem capLegal_iff (cap : Byte) : capLegal cap = true ↔ cap ≠ 0x00#8 := by simp [capLegal]

/-- R97, R101: a legal word has the fields that choose a row, and a legal `ARG8`. -/
theorem legalWord_iff (w : Word32) : LegalWord w ↔ RowFields w ∧ LegalArg (cwOpc w) (cwArg8 w) :=
  ⟨fun ⟨rsv, opcode, dir, format, capacity, unused⟩ => 
      ⟨⟨rsv, opcode, dir⟩, format, capacity, fun ⟨h1, h2, h3, h4⟩ => unused h1 h2 h3 h4⟩,
    fun ⟨⟨rsv, opcode, dir⟩, format, capacity, unused⟩ =>
      ⟨rsv, opcode, dir, format, capacity, fun h1 h2 h3 h4 => unused ⟨h1, h2, h3, h4⟩⟩⟩

/-- R82: the operand of a well-formed command is a legal `ARG8` for its opcode. -/
theorem legalArg_of_wellFormed (i : Instr) (h : i.wellFormed = true) : LegalArg i.opc i.arg8 := by
  cases i with
  | startm fmt => exact ⟨fun _ => (fmtLegal_iff fmt).mp h, by simp [Instr.opc], by simp [Instr.opc]⟩
  | rdpt cap => exact ⟨by simp [Instr.opc], fun _ => (capLegal_iff cap).mp h, by simp [Instr.opc]⟩
  | rdsn cap => exact ⟨by simp [Instr.opc], fun _ => (capLegal_iff cap).mp h, by simp [Instr.opc]⟩
  | rdvalF => exact ⟨fun _ => .inl rfl, by simp [Instr.opc], by simp [Instr.opc]⟩
  | rdvalI => exact ⟨fun _ => .inr rfl, by simp [Instr.opc], by simp [Instr.opc]⟩
  | _ => exact ⟨by simp [Instr.opc], by simp [Instr.opc], fun _ => rfl⟩

/-- R97, R101: a legal `ARG8` selects, for each of the 14 opcodes, a command whose operand is legal. -/
theorem selectRow_of_legalArg (opc : Half) (arg8 : Byte) (dir : BitVec 1) (hopc : opc ∈ wireOpcodes)
    (h : LegalArg opc arg8) : ∃ i, selectRow opc arg8 dir = .command i ∧ i.wellFormed = true := by
  obtain ⟨format, capacity, unused⟩ := h
  rcases (mem_wireOpcodes opc).mp hopc with
    rfl | rfl | rfl | rfl | rfl | rfl | rfl | rfl | rfl | rfl | rfl | rfl | rfl | rfl
  · exact ⟨.startm arg8, rfl, (fmtLegal_iff arg8).mpr (format (.inl rfl))⟩
  · exact ⟨.stopm, if_pos (unused (by decide)), rfl⟩
  · exact ⟨.rdrdy, if_pos (unused (by decide)), rfl⟩
  · rcases format (.inr rfl) with rfl | rfl
    · exact ⟨.rdvalF, rfl, rfl⟩
    · exact ⟨.rdvalI, rfl, rfl⟩
  · exact ⟨.sleep, if_pos (unused (by decide)), rfl⟩
  · exact ⟨.wake, if_pos (unused (by decide)), rfl⟩
  · exact ⟨.fancln, if_pos (unused (by decide)), rfl⟩
  · refine ⟨if dir = 1#1 then .setaci else .getaci, if_pos (unused (by decide)), ?_⟩
    split <;> rfl
  · exact ⟨.rdpt arg8, rfl, (capLegal_iff arg8).mpr (capacity (.inl rfl))⟩
  · exact ⟨.rdsn arg8, rfl, (capLegal_iff arg8).mpr (capacity (.inr rfl))⟩
  · exact ⟨.rdver, if_pos (unused (by decide)), rfl⟩
  · exact ⟨.rdstat, if_pos (unused (by decide)), rfl⟩
  · exact ⟨.clrstat, if_pos (unused (by decide)), rfl⟩
  · exact ⟨.reset, if_pos (unused (by decide)), rfl⟩

/-! ### Words written with their operand -/

/-- R80, R98: `base | (arg << 16)` is the word packed from the opcode and the operand. -/
theorem wordWithArg_eq_packCw (opc : Half) (arg : Byte) :
    wordWithArg (opc.setWidth 32) arg = packCw opc arg 0#1 := by
  apply BitVec.eq_of_getLsbD_eq
  intro j hj
  rw [packCw_getLsbD, wordWithArg, BitVec.getLsbD_or, BitVec.getLsbD_shiftLeft, BitVec.getLsbD_setWidth,
    BitVec.getLsbD_setWidth]
  split_ifs with h16 h24 h25
  · simp [hj, h16]
  · simp [hj, h16, BitVec.getLsbD_of_ge opc j (by omega)]
    omega
  · simp [BitVec.getLsbD_of_ge opc j (by omega), BitVec.getLsbD_of_ge arg (j - 16) (by omega)]
  · simp [BitVec.getLsbD_of_ge opc j (by omega), BitVec.getLsbD_of_ge arg (j - 16) (by omega)]

end Sys2Proof

/-! ### The statements about the command word -/

namespace Sys2Proof.Proofs

open Sys2Proof Sys2Proof.Claims

/-- Settles O1: the fields of the word are read back, and they select the command's row. -/
theorem decodeOfEncodeIsTheCommand : Obligations.DecodeOfEncodeIsTheCommand := by
  intro i
  rw [decode_eq_command_iff]
  refine ⟨rowFields_encode i, ?_⟩
  rw [encode, cwOpc_packCw, cwArg8_packCw, cwDir_packCw]
  exact selectRow_fields i

/-- Settles O2: the command's fields are those of the word, and a word is nothing but its fields. -/
theorem encodeOfDecodeIsTheWord : Obligations.EncodeOfDecodeIsTheWord := by
  intro w i h
  obtain ⟨hw, hrow⟩ := (decode_eq_command_iff w i).mp h
  obtain ⟨hopc, harg, hdir⟩ := hasFields_of_selectRow _ _ _ i hw.opcode hw.dir hrow
  rw [encode, hopc, harg, hdir, packCw_fields w hw.rsv]

/-- Settles O5: both sides ask for the fields that choose a row, and the operand of the row's command is the word's
`ARG8`. -/
theorem legalWordsAreTheWellFormedCommands : Obligations.LegalWordsAreTheWellFormedCommands := by
  intro w
  rw [legalWord_iff]
  constructor
  · rintro ⟨hw, harg⟩
    obtain ⟨i, hrow, hi⟩ := selectRow_of_legalArg _ _ (cwDir w) hw.opcode harg
    exact ⟨i, (decode_eq_command_iff w i).mpr ⟨hw, hrow⟩, hi⟩
  · rintro ⟨i, hdec, hi⟩
    obtain ⟨hw, hrow⟩ := (decode_eq_command_iff w i).mp hdec
    obtain ⟨hopc, harg, -⟩ := hasFields_of_selectRow _ _ _ i hw.opcode hw.dir hrow
    exact ⟨hw, hopc ▸ harg ▸ legalArg_of_wellFormed i hi⟩

/-- Settles O3: each word that R98 writes out is the one that `encode` makes of its command. -/
theorem writtenOutWordsDecode : Obligations.WrittenOutWordsDecode := by
  have h := decodeOfEncodeIsTheCommand
  exact ⟨h (.startm 0x03#8), h (.startm 0x05#8), h .stopm, h .rdrdy, h .rdvalF, h .rdvalI, h .sleep, h .wake,
    h .fancln, h .getaci, h .setaci, h (.rdpt 9#8), h (.rdsn 33#8), h .rdver, h .rdstat, h .clrstat, h .reset⟩

/-- Settles O4: the format of a legal word with opcode `0x0300` is one of the two. -/
theorem pseudoCommandsExpand : Obligations.PseudoCommandsExpand := by
  refine ⟨rfl, rfl, fun fmt h3 h5 => ⟨(wordWithArg_eq_packCw 0x0300#16 fmt).symm, fun hl => ?_⟩, rfl, rfl⟩
  have hfmt := ((legalWord_iff _).mp hl).2.format
  rw [pseudoWord, cwOpc_packCw, cwArg8_packCw] at hfmt
  exact (hfmt (.inr rfl)).elim h3 h5

end Sys2Proof.Proofs
end

section
/-! How a command completes, write-shaped or read-shaped, for each of the Transport's answers, and how it is refused for
its operand (44_commands.md R217 to R219; 60_exceptions.md R241, R245 to R250). -/

namespace Sys2Proof.Machine

open Sys2Proof Sys2Proof.Safety Sys2Proof.Claims

/-! ### The endings of a command -/

/-- R137, R245: with its write failed a command ends at once. -/
theorem exec_write_failed (i : Instr) (s : State) (rest : List Event) (hw : i.wellFormed = true)
    (he : s.env = .answer .error :: rest) :
    exec i s = .next (((s.launch i).setEnv rest).raise (.transportFailure .write)) := by
  rw [exec_eq_awaitWrite i s hw, State.awaitWrite_error (s.launch i) rest he]

/-- R137, R138: with its write answered `Ok` a write-shaped command is complete. -/
theorem exec_write_answered (i : Instr) (s : State) (rest : List Event) (hw : i.wellFormed = true)
    (hr : (s.launch i).plan.rx = none) (he : s.env = .answer .done :: rest) :
    exec i s = .next (((s.launch i).setEnv rest).completeOk .none) := by
  rw [exec_eq_awaitWrite i s hw, State.awaitWrite_done (s.launch i) rest he hr]

/-- R150, R245: with its write answered `Ok` and its read failed a read-shaped command ends without a result. -/
theorem exec_read_failed (i : Instr) (s : State) (r : RxPlan) (rest : List Event) (hw : i.wellFormed = true)
    (hr : (s.launch i).plan.rx = some r) (he : s.env = .answer .done :: .answer .error :: rest) :
    exec i s = .next ((((s.launch i).setEnv rest).issueRead r).raise (.transportFailure .read)) := by
  rw [exec_eq_awaitWrite i s hw, State.awaitWrite_done_read (s.launch i) r _ he hr, State.awaitRead_error _ r rest rfl]
  rfl

/-- What a command with legal operands leaves at its end: whatever the answers, its arguments stand and its strobe is
consumed; the rest is told by the state it ends in. -/
theorem completed_of_exec {i : Instr} {s t : State} {rest : List Event} {word : BitVec 16} {kind : ResKind}
    {frame : List Byte} (more : List Call) (hw : i.wellFormed = true) (h : exec i s = .next t)
    (hsent : s.sentBytes i = frame) (status : t.status.word = word) (results : ResultsKeptBut kind (s.launch i) t)
    (calls : t.calls = (s.launch i).calls ++ more) (idle : t.phase = .idle := by rfl) (env : t.env = rest := by rfl) :
    Completed s t rest word kind (.write s.cfg.devAddr frame s.argTmo :: more) := by
  rw [exec_eq_awaitWrite i s hw] at h
  have hkeep := State.awaitWrite_waitKeeps (s.launch i) t h
  refine ⟨status, idle, hkeep.go, env, argumentsKept_trans (s.launch_argumentsKept i) hkeep.arguments,
    resultsKept_trans (s.launch_resultsKept i kind) results, ?_⟩
  rw [calls, State.launch_calls, hsent, List.append_assoc]
  rfl

/-- R137, R245: the ending that write-shaped and read-shaped commands share. -/
theorem exec_write_failed_completed (i : Instr) (s : State) (rest : List Event) {frame : List Byte}
    (hw : i.wellFormed = true) (hsent : s.sentBytes i = frame) (he : s.env = .answer .error :: rest) :
    ∃ t, exec i s = .next t ∧ NoResult t ∧
      Completed s t rest 0x0006#16 .none [.write s.cfg.devAddr frame s.argTmo] := by
  have h := exec_write_failed i s rest hw he
  exact ⟨_, h, noResult_of_status _ (.inr (.inr rfl)),
    completed_of_exec [] hw h hsent Status.word_writeFailure (resultsKept_of_eq _) (List.append_nil _).symm⟩

/-- R201, R211, R212, R241: a command with an illegal operand is refused in every state. -/
theorem refusedArgument_of_not_wellFormed (i : Instr) (h : i.wellFormed = false) : RefusedArgument i := fun s =>
  ⟨_, exec_of_not_wellFormed i s h, noResult_of_status _ (.inr (.inr rfl)), Status.word_invalidArgument, rfl, rfl, rfl,
    argumentsKept_of_eq, resultsKept_of_eq _, (List.append_nil _).symm⟩

/-- R217, R218: a command whose row has no read completes on its write's answer, whatever the frame it sends. -/
theorem writeOutcomes_of_row (i : Instr) (frame : State → List Byte) (hw : i.wellFormed = true)
    (hrow : ∀ c a, (romRow c a i).rx = none)
    (hframe : ∀ s : State, encPtrData i.opc (sentData s i) = frame s) :
    WriteOutcomes i frame := by
  intro s rest hwf
  have hsent : s.sentBytes i = frame s := by
    rw [s.sentBytes_eq i hwf, State.launch_frame, ← encPtrData_eq_cons, hframe]
  constructor
  · intro he
    have h := exec_write_answered i s rest hw (hrow _ _) he
    exact ⟨_, h, noResult_of_status _ (.inr (.inr rfl)),
      completed_of_exec [] hw h hsent (Status.word_success .none) (resultsKept_of_eq _) (List.append_nil _).symm⟩
  · exact exec_write_failed_completed i s rest hw hsent

/-! ### The endings of a read -/

/-- R153, R155: a read whose Words are all valid delivers its result. -/
theorem State.finishRead_of_words_ok (s : State) (r : RxPlan) (rx : List Byte) (hwf : s.rxbuf.wf = true)
    (h : ∀ k, k < r.words → wordOk (frameWord rx k) = true) :
    s.finishRead r rx = (((s.receive rx).validate r).deliver r).completeOk r.kind := by
  refine State.finishRead_of_ok s r rx ?_
  rw [State.frameCheck_receive s r rx hwf, validateFrame, validateFrom_ok]
  exact fun k _ hk => h k (by omega)

/-- R152, R153, R155: a read whose first invalid Word is Word `k` raises the checksum failure of that Word. -/
theorem State.finishRead_of_first_invalid (s : State) (r : RxPlan) (rx : List Byte) (k : Nat) (hwf : s.rxbuf.wf = true)
    (hk : k < r.words) (hbad : wordOk (frameWord rx k) = false)
    (hfirst : ∀ j, j < k → wordOk (frameWord rx j) = true) :
    s.finishRead r rx = ((s.receive rx).validate r).raise (.checksumFailure k) := by
  refine State.finishRead_of_failure s r rx k ?_
  rw [State.frameCheck_receive s r rx hwf, validateFrame, validateFrom_failure]
  exact ⟨Nat.zero_le k, by omega, hbad, fun j _ hj => hfirst j hj⟩

/-- R219: a command whose row reads `n` bytes holding `W` Words completes in one of four ways. What its decoder makes of
the bytes received is left to `hresult`. -/
theorem readOutcomes_of_row (i : Instr) (opc : Half) (n W : Config → Nat) (dec : Decoder) (kind : ResKind)
    (result : State → List Byte → Prop) (hw : i.wellFormed = true)
    (hrow : ∀ c a, romRow c a i = rowRead opc (n c) (W c) dec kind)
    (hresult : ∀ (x : State) (r : RxPlan), r.dec = dec → r.words = W x.cfg →
      result ((x.deliver r).completeOk r.kind) x.received) :
    ReadOutcomes i (encPtr opc) n W kind (Status.success kind).word result := by
  intro s rx rest ⟨htx, hrx⟩ hlen
  let r : RxPlan := { nbytes := n s.cfg, words := W s.cfg, dec := dec, kind := kind }
  have hr : (s.launch i).plan.rx = some r := by rw [State.launch_plan, hrow]; rfl
  have hsent : s.sentBytes i = encPtr opc := by
    rw [s.sentBytes_eq i htx, State.launch_plan, hrow]
    exact List.append_nil _
  have hkind : kind = dec.kind := (romRow_rx _ _ i r hr).1
  let y : State := ((s.launch i).setEnv rest).issueRead r
  have hlaunch : ResultsKeptBut kind (s.launch i) y := resultsKept_of_eq kind
  refine ⟨fun he hvalid => ?_, fun he k hk hbad hfirst => ?_, exec_write_failed_completed i s rest hw hsent,
    fun he => ?_⟩
  · have h : exec i s = .next (y.finishRead r rx) := exec_read_answered i s r rx rest hw hr he hlen
    have hkept : ResultsKeptBut kind y (y.finishRead r rx) := hkind ▸ (y.finishRead_resultsKept r rx hkind).1
    have hend := y.finishRead_of_words_ok r rx hrx hvalid
    have hrecv : ((y.receive rx).validate r).received = rx := y.received_receive rx hrx
    refine ⟨_, h, ?_, completed_of_exec [.read s.cfg.devAddr (n s.cfg) s.argTmo] hw h hsent ?_
      (resultsKept_trans hlaunch hkept) (y.finishRead_calls r rx) (y.finishRead_phase r rx) (y.finishRead_env r rx)⟩
    · have hres := hresult ((y.receive rx).validate r) r rfl rfl
      rwa [hrecv, ← hend] at hres
    · rw [hend]
      rfl
  · have h : exec i s = .next (y.finishRead r rx) := exec_read_answered i s r rx rest hw hr he hlen
    rw [y.finishRead_of_first_invalid r rx k hrx hk hbad hfirst] at h
    have hk256 : k < 256 := by
      have hwords : r.words ≤ 127 := ((romRow_fits s.cfg _ i).words_fit r hr).2
      exact (hk.trans_le hwords).trans (by decide)
    exact ⟨_, h, noResult_of_status _ (.inr (.inr rfl)),
      completed_of_exec _ hw h hsent (Status.word_checksumFailure k hk256) (resultsKept_of_eq _) rfl⟩
  · have h := exec_read_failed i s r rest hw hr he
    exact ⟨_, h, noResult_of_status _ (.inr (.inr rfl)),
      completed_of_exec _ hw h hsent Status.word_readFailure (resultsKept_of_eq _) rfl⟩

/-! ### Identity reads -/

/-- R30, R187: the length of an identity string fits `RSLEN`. -/
theorem decAscii_length_lt (strMax : Nat) (D : List Byte) (cap : Byte) : (decAscii strMax D cap).2 < 2 ^ 8 := by
  have hroom := (asciiChars_length_le D (cap.toNat - 1)).1
  have := cap.isLt
  rw [decAscii_snd]
  omega

/-- R211, R212: an identity read, whatever its opcode, delivers the string of its whole Words. -/
theorem readOutcomes_identity (i : Instr) (opc : Half) (cap : Byte) (ptr : List Byte) (hw : i.wellFormed = true)
    (hrow : ∀ c a, romRow c a i = rowRead opc (idNbytes c cap) (idWords c cap) (.ascii cap) .str)
    (hptr : encPtr opc = ptr) :
    ReadOutcomes i ptr (fun c => min ((cap.toNat - 1) * 3 / 2) c.scratchMax)
      (fun c => min ((cap.toNat - 1) * 3 / 2) c.scratchMax / 3) .str 0x0052#16 (IdentityResult cap) := by
  have hok : (Status.success .str).word = 0x0052#16 := Status.word_success .str
  rw [← hptr, ← hok]
  refine readOutcomes_of_row i opc _ _ (.ascii cap) .str _ hw hrow ?_
  intro x r hdec hwords
  have hrs := x.deliver_rs_of_dec r cap hdec
  have hlen := x.deliver_rsLen_of_dec r cap hdec
  rw [hwords] at hrs hlen
  have hcfg : ((x.deliver r).completeOk r.kind).cfg = x.cfg := x.deliver_cfg r
  rw [IdentityResult, hcfg]
  refine ⟨hrs, ?_⟩
  rw [State.completeOk_rsLen, hlen, BitVec.toNat_ofNat, Nat.mod_eq_of_lt (decAscii_length_lt _ _ _)]

end Sys2Proof.Machine

/-! ### The statements about the commands that carry an operand -/

namespace Sys2Proof.Proofs

open Sys2Proof Sys2Proof.Machine Sys2Proof.Claims

/-- R98: the word of a command written as `base | (arg << 16)` decodes to it. -/
theorem decode_wordWithArg (i : Instr) (hdir : i.dir = 0#1) :
    decode (wordWithArg (i.opc.setWidth 32) i.arg8) = .command i := by
  rw [wordWithArg_eq_packCw, ← hdir]
  exact decodeOfEncodeIsTheCommand i

/-- Settles O19: the word is the one that `encode` makes, and the format's legality decides between the row and the
refusal. -/
theorem startmCompletes : Obligations.StartmCompletes := by
  intro fmt
  refine ⟨?_, fun hf => ?_, fun h3 h5 => ?_, by decide +kernel, by decide +kernel⟩
  · exact decode_wordWithArg (.startm fmt) rfl
  · refine writeOutcomes_of_row (.startm fmt) _ ((fmtLegal_iff fmt).mpr hf) (fun _ _ => rfl) fun _ => ?_
    have hptr : encPtr 0x0010#16 = [0x00#8, 0x10#8] := by decide
    exact congrArg (· ++ encWords [fmt, 0x00#8]) hptr
  · refine refusedArgument_of_not_wellFormed (.startm fmt) (Bool.eq_false_iff.mpr fun h => ?_)
    exact ((fmtLegal_iff fmt).mp h).elim h3 h5

/-- Settles O25: RDPT is an identity read with pointer `D0 02`. -/
theorem rdptCompletes : Obligations.RdptCompletes :=
  ⟨fun cap => decode_wordWithArg (.rdpt cap) rfl,
    fun cap hcap => readOutcomes_identity (.rdpt cap) 0xD002#16 cap _ ((capLegal_iff cap).mpr hcap)
      (fun _ _ => rfl) (by decide),
    refusedArgument_of_not_wellFormed _ rfl⟩

/-- Settles O26: RDSN is an identity read with pointer `D0 33`. -/
theorem rdsnCompletes : Obligations.RdsnCompletes :=
  ⟨fun cap => decode_wordWithArg (.rdsn cap) rfl,
    fun cap hcap => readOutcomes_identity (.rdsn cap) 0xD033#16 cap _ ((capLegal_iff cap).mpr hcap)
      (fun _ _ => rfl) (by decide),
    refusedArgument_of_not_wellFormed _ rfl⟩

end Sys2Proof.Proofs
end

section
/-! The Checksum Engine: eight shift steps are linear over XOR, injective and the XOR network (40_crc8.md R117); the
detection property and the affine form of the Word checksum follow (R118, R119). -/

namespace Sys2Proof.Machine

open Sys2Proof

/-! ### Eight shift steps -/

theorem step8_eq_crc8Steps (x : Byte) : step8 x = crc8Steps 8 x := by
  rw [step8, crc8Byte, BitVec.zero_xor]

theorem crc8Byte_eq_step8 (a b : Byte) : crc8Byte a b = step8 (a ^^^ b) := by
  rw [step8_eq_crc8Steps, crc8Byte]

theorem step8_xor (x y : Byte) : step8 (x ^^^ y) = step8 x ^^^ step8 y := by
  simp only [step8_eq_crc8Steps, crc8Steps_xor]

/-- R110: the polynomial is odd, so bit 0 of a shift step's result is the bit that was shifted out. -/
theorem crc8Bit_getLsbD_zero (a : Byte) : (crc8Bit a).getLsbD 0 = a.getLsbD 7 := by
  rw [crc8Bit_eq]
  cases a.getLsbD 7 <;> simp [crcPoly]

/-- The bit that was shifted out says whether the polynomial was added, and then the shifted byte is known too. -/
theorem crc8Bit_injective : Function.Injective crc8Bit := by
  intro a b h
  have h7 : a.getLsbD 7 = b.getLsbD 7 := by rw [← crc8Bit_getLsbD_zero a, h, crc8Bit_getLsbD_zero]
  have hshift : a <<< 1 = b <<< 1 := by
    rw [crc8Bit_eq, crc8Bit_eq, h7] at h
    exact (BitVec.xor_left_inj _).mp h
  refine BitVec.eq_of_getLsbD_eq fun i hi => ?_
  rcases Nat.lt_or_eq_of_le (Nat.le_of_lt_succ hi) with hlt | rfl
  · have hbit := congrArg (·.getLsbD (i + 1)) hshift
    simpa [BitVec.getLsbD_shiftLeft, Nat.succ_lt_succ hlt, -BitVec.getLsbD_eq_getElem] using hbit
  · exact h7

theorem crc8Steps_injective (n : Nat) : Function.Injective (crc8Steps n) := by
  induction n with
  | zero => exact Function.injective_id
  | succ n ih => exact ih.comp crc8Bit_injective

theorem step8_injective : Function.Injective step8 := by
  rw [funext step8_eq_crc8Steps]
  exact crc8Steps_injective 8

/-! ### The XOR network -/

/-- R117: the bits of the network. -/
theorem xorNetwork_bits (t : Byte) :
    (xorNetwork t).getLsbD 7 = (t.getLsbD 5 ^^ t.getLsbD 3 ^^ t.getLsbD 2) ∧
    (xorNetwork t).getLsbD 6 = (t.getLsbD 7 ^^ t.getLsbD 4 ^^ t.getLsbD 2 ^^ t.getLsbD 1) ∧
    (xorNetwork t).getLsbD 5 = (t.getLsbD 7 ^^ t.getLsbD 6 ^^ t.getLsbD 3 ^^ t.getLsbD 1 ^^ t.getLsbD 0) ∧
    (xorNetwork t).getLsbD 4 = (t.getLsbD 7 ^^ t.getLsbD 6 ^^ t.getLsbD 3 ^^ t.getLsbD 0) ∧
    (xorNetwork t).getLsbD 3 = (t.getLsbD 7 ^^ t.getLsbD 6 ^^ t.getLsbD 3) ∧
    (xorNetwork t).getLsbD 2 = (t.getLsbD 6 ^^ t.getLsbD 5 ^^ t.getLsbD 2) ∧
    (xorNetwork t).getLsbD 1 = (t.getLsbD 7 ^^ t.getLsbD 5 ^^ t.getLsbD 4 ^^ t.getLsbD 1) ∧
    (xorNetwork t).getLsbD 0 = (t.getLsbD 6 ^^ t.getLsbD 4 ^^ t.getLsbD 3 ^^ t.getLsbD 0) := by
  simp [xorNetwork, BitVec.getLsbD_ofBoolListBE, -BitVec.getLsbD_eq_getElem]

/-- The network is linear over XOR: each bit of it is an XOR of bits of its operand. -/
theorem xorNetwork_xor (x y : Byte) : xorNetwork (x ^^^ y) = xorNetwork x ^^^ xorNetwork y := by
  obtain ⟨h7, h6, h5, h4, h3, h2, h1, h0⟩ := xorNetwork_bits (x ^^^ y)
  obtain ⟨x7, x6, x5, x4, x3, x2, x1, x0⟩ := xorNetwork_bits x
  obtain ⟨y7, y6, y5, y4, y3, y2, y1, y0⟩ := xorNetwork_bits y
  refine BitVec.eq_of_getLsbD_eq fun i hi => ?_
  interval_cases i <;>
    simp only [BitVec.getLsbD_xor, *, Bool.xor_assoc, Bool.xor_comm, Bool.xor_left_comm]

theorem map_zero_of_xor (f : Byte → Byte) (hf : ∀ x y, f (x ^^^ y) = f x ^^^ f y) : f 0x00#8 = 0x00#8 := by
  simpa using hf 0x00#8 0x00#8

/-- Taking its highest set bit off a byte leaves a byte with fewer significant bits. -/
theorem xor_twoPow_getLsbD_eq_false (t : Byte) (n : Nat) (hn : n < 8) (hbit : t.getLsbD n = true)
    (hhigh : ∀ i, n < i → t.getLsbD i = false) (i : Nat) (hi : n ≤ i) :
    (t ^^^ BitVec.twoPow 8 n).getLsbD i = false := by
  rw [BitVec.getLsbD_xor, BitVec.getLsbD_twoPow]
  rcases Nat.eq_or_lt_of_le hi with rfl | hlt
  · simp [hbit, hn]
  · simp [hhigh i hlt, hlt.ne]

/-- Functions on bytes that are linear over XOR and agree on the powers of two are equal, by induction on the number of
significant bits. -/
theorem eq_of_xor_of_twoPow (f g : Byte → Byte) (hf : ∀ x y, f (x ^^^ y) = f x ^^^ f y)
    (hg : ∀ x y, g (x ^^^ y) = g x ^^^ g y) (h : ∀ i < 8, f (BitVec.twoPow 8 i) = g (BitVec.twoPow 8 i)) (t : Byte) :
    f t = g t := by
  suffices low : ∀ n ≤ 8, ∀ t : Byte, (∀ i, n ≤ i → t.getLsbD i = false) → f t = g t from
    low 8 le_rfl t fun i hi => BitVec.getLsbD_of_ge t i hi
  intro n hn
  induction n with
  | zero =>
    intro t ht
    have ht0 : t = 0x00#8 := BitVec.eq_of_getLsbD_eq fun i _ => by simpa using ht i (Nat.zero_le i)
    rw [ht0, map_zero_of_xor f hf, map_zero_of_xor g hg]
  | succ n ih =>
    intro t ht
    have ih := ih (Nat.le_of_succ_le hn)
    cases hbit : t.getLsbD n with
    | false =>
      refine ih t fun i hi => ?_
      rcases Nat.eq_or_lt_of_le hi with rfl | hlt
      · exact hbit
      · exact ht i hlt
    | true =>
      have hrest := ih _ (xor_twoPow_getLsbD_eq_false t n hn hbit ht)
      rw [hf, hg, h n hn] at hrest
      exact (BitVec.xor_left_inj _).mp hrest

/-- R117: both are linear, and they agree on the powers of two. -/
theorem step8_eq_xorNetwork (t : Byte) : step8 t = xorNetwork t :=
  eq_of_xor_of_twoPow step8 xorNetwork step8_xor xorNetwork_xor (by decide +kernel) t

/-! ### The Word checksum -/

/-- R113: the checksum of a Word in terms of `step8`. -/
theorem checksum_eq_step8 (b0 b1 : Byte) : checksum b0 b1 = step8 (step8 (crcInit ^^^ b0) ^^^ b1) := by
  rw [← crc8Byte_eq_step8, ← crc8Byte_eq_step8]
  rfl

/-- The accumulator's initial value, absorbed with two zero bytes. -/
theorem step8_step8_crcInit : step8 (step8 crcInit) = 0x81#8 := by decide +kernel

/-- R119: linearity takes the initial value out of the two steps. -/
theorem checksum_affine (b0 b1 : Byte) : checksum b0 b1 = step8 (step8 b0 ^^^ b1) ^^^ 0x81#8 := by
  rw [checksum_eq_step8, step8_xor crcInit, BitVec.xor_assoc, step8_xor, step8_step8_crcInit, BitVec.xor_comm]

/-- R119: what an error pattern adds to the checksum. -/
theorem checksum_xor (b0 b1 e0 e1 : Byte) :
    checksum (b0 ^^^ e0) (b1 ^^^ e1) = checksum b0 b1 ^^^ step8 (step8 e0 ^^^ e1) := by
  rw [checksum_affine, checksum_affine, step8_xor b0]
  have hsplit : step8 b0 ^^^ step8 e0 ^^^ (b1 ^^^ e1) = (step8 b0 ^^^ b1) ^^^ (step8 e0 ^^^ e1) := by ac_rfl
  rw [hsplit, step8_xor]
  ac_rfl

theorem checksum_injective_byte0 (b1 : Byte) : Function.Injective (checksum · b1) := by
  intro x y h
  simp only [checksum_eq_step8] at h
  exact (BitVec.xor_right_inj _).mp (step8_injective ((BitVec.xor_left_inj _).mp (step8_injective h)))

theorem checksum_injective_byte1 (b0 : Byte) : Function.Injective (checksum b0) := by
  intro x y h
  simp only [checksum_eq_step8] at h
  exact (BitVec.xor_right_inj _).mp (step8_injective h)

theorem checksum_bijective_byte0 (b1 : Byte) : Function.Bijective (checksum · b1) :=
  Finite.injective_iff_bijective.mp (checksum_injective_byte0 b1)

/-- R118: a pair with a given checksum is determined by its second byte, which is free. -/
theorem card_checksum_eq (c : Byte) : Nat.card { p : Byte × Byte // checksum p.1 p.2 = c } = 256 := by
  have hbij : Function.Bijective fun p : { p : Byte × Byte // checksum p.1 p.2 = c } => p.val.2 := by
    constructor
    · rintro ⟨⟨x, b1⟩, hx⟩ ⟨⟨y, b1'⟩, hy⟩ (h1 : b1 = b1')
      subst h1
      have hxy : checksum x b1 = checksum y b1 := hx.trans hy.symm
      exact Subtype.ext (Prod.ext (checksum_injective_byte0 b1 hxy) rfl)
    · intro b1
      obtain ⟨b0, hb0⟩ := (checksum_bijective_byte0 b1).surjective c
      exact ⟨⟨(b0, b1), hb0⟩, rfl⟩
  calc Nat.card { p : Byte × Byte // checksum p.1 p.2 = c }
      = Nat.card (Fin 256) := Nat.card_congr ((Equiv.ofBijective _ hbij).trans BitVec.equivFin.toEquiv)
    _ = 256 := Nat.card_fin 256

/-- R115: the validity of a Word of three bytes. -/
theorem wordOk_eq_false_iff (b0 b1 c : Byte) : wordOk [b0, b1, c] = false ↔ c ≠ checksum b0 b1 := by
  simp [wordOk]

/-- R118: whichever of its three bytes is altered, a Word that was built is no longer valid. -/
theorem wordOk_wordBuild_set (b0 b1 : Byte) (j : Nat) (x : Byte) (hj : j < 3) (hx : x ≠ byteAt (wordBuild b0 b1) j) :
    wordOk ((wordBuild b0 b1).set j x) = false := by
  match j, hj with
  | 0, _ => exact (wordOk_eq_false_iff x b1 _).mpr ((checksum_injective_byte0 b1).ne hx.symm)
  | 1, _ => exact (wordOk_eq_false_iff b0 x _).mpr ((checksum_injective_byte1 b0).ne hx.symm)
  | 2, _ => exact (wordOk_eq_false_iff b0 b1 x).mpr hx

end Sys2Proof.Machine

/-! ### The statements about the Checksum Engine -/

namespace Sys2Proof.Proofs

open Sys2Proof Sys2Proof.Machine

/-- Settles O8: both forms are `checksum` unfolded; the named values are evaluated. -/
theorem checksumIsTheTwoByteFold : Obligations.ChecksumIsTheTwoByteFold := by
  refine ⟨fun b0 b1 => ⟨rfl, rfl⟩, ?_⟩
  decide +kernel

/-- Settles O9: the bits of `step8` are those of the network it equals. -/
theorem stepEightIsTheXorNetwork : Obligations.StepEightIsTheXorNetwork := by
  refine ⟨crc8Byte_eq_step8, step8_xor, map_zero_of_xor step8 step8_xor, fun t => ?_, by decide +kernel,
    Finite.injective_iff_bijective.mp step8_injective⟩
  rw [step8_eq_xorNetwork]
  obtain ⟨h7, h6, h5, h4, h3, h2, h1, h0⟩ := xorNetwork_bits t
  exact ⟨h7, h6, h5, h4, h3, h2, h1, h0, rfl⟩

/-- Settles O11: the affine form, and the error pattern's share of it. -/
theorem checksumIsAffine : Obligations.ChecksumIsAffine :=
  ⟨checksum_affine, by decide +kernel, step8_step8_crcInit, checksum_xor⟩

/-- Settles O10: the checksum is injective in each byte and bijective in the first; the error pattern `01 31`, where `31` is
`step8` of `01`, leaves a checksum as it was. -/
theorem oneAlteredByteIsDetected : Obligations.OneAlteredByteIsDetected :=
  ⟨fun _ b1 _ h => (checksum_injective_byte0 b1).ne h, fun b0 _ _ h => (checksum_injective_byte1 b0).ne h,
    fun b0 b1 c => (wordOk_eq_false_iff b0 b1 c).mpr, wordOk_wordBuild_set,
    ⟨0x00#8, 0x00#8, 0x01#8, 0x31#8, by decide, by decide, by decide +kernel⟩,
    fun b1 => (checksum_bijective_byte0 b1).existsUnique, card_checksum_eq⟩

end Sys2Proof.Proofs
end

section
/-! Validation of a frame (42_frame_decode.md R151 to R159): it answers the smallest invalid Word, and a Word of an
encoded frame with one altered byte is invalid. -/

namespace Sys2Proof.Machine

open Sys2Proof

/-! ### The two answers of validation -/

theorem wordOk_frameWord_iff (rx : List Byte) (k : Nat) :
    wordOk (frameWord rx k) = true ↔
      byteAt rx (3 * k + 2) = checksum (byteAt rx (3 * k)) (byteAt rx (3 * k + 1)) := by
  rw [wordOk_frameWord, beq_iff_eq]

theorem wordOk_frameWord_eq_false_iff (rx : List Byte) (k : Nat) :
    wordOk (frameWord rx k) = false ↔
      byteAt rx (3 * k + 2) ≠ checksum (byteAt rx (3 * k)) (byteAt rx (3 * k + 1)) := by
  rw [wordOk_frameWord, beq_eq_false_iff_ne]

/-- R153: the loop over all `W` Words, from the first one on. -/
theorem validateFrame_eq_ok_iff (rx : List Byte) (W : Nat) :
    validateFrame rx W = .ok ↔ ∀ k, k < W → wordOk (frameWord rx k) = true := by
  simp only [validateFrame, validateFrom_ok, Nat.zero_le, Nat.zero_add, true_imp_iff]

theorem validateFrame_eq_failure_iff (rx : List Byte) (W k : Nat) :
    validateFrame rx W = .checksumFailure k ↔
      k < W ∧ wordOk (frameWord rx k) = false ∧ ∀ j, j < k → wordOk (frameWord rx j) = true := by
  simp only [validateFrame, validateFrom_failure, Nat.zero_le, Nat.zero_add, true_and, true_imp_iff]

/-! ### A byte of a frame and the Word it stands in -/

theorem byteAt_set_same (s : List Byte) (j : Nat) (x : Byte) (hj : j < s.length) : byteAt (s.set j x) j = x := by
  rw [byteAt_eq_getElem _ _ (by rwa [List.length_set]), List.getElem_set_self]

theorem byteAt_set_ne (s : List Byte) (j i : Nat) (x : Byte) (h : i ≠ j) : byteAt (s.set j x) i = byteAt s i := by
  simp only [byteAt, List.getD_eq_getElem?_getD, List.getElem?_set_ne h.symm]

/-- R151: Word `k` is made of the bytes whose index divided by 3 is `k`. -/
theorem frameWord_congr {rx s : List Byte} {k : Nat} (h : ∀ j, j / 3 = k → byteAt rx j = byteAt s j) :
    frameWord rx k = frameWord s k := by
  rw [frameWord, frameWord, h (3 * k) (by omega), h (3 * k + 1) (by omega), h (3 * k + 2) (by omega)]

/-- R151: byte `i` of Word `k` is byte `3k + i` of the frame. -/
theorem byteAt_frameWord (s : List Byte) (k : Nat) {i : Nat} (hi : i < 3) :
    byteAt (frameWord s k) i = byteAt s (3 * k + i) := by
  match i, hi with
  | 0, _ => rfl
  | 1, _ => rfl
  | 2, _ => rfl

/-- Word `k` of a frame that differs from `s` within that Word at byte `3k + i` at most. -/
theorem frameWord_eq_set {rx s : List Byte} {k i : Nat} (hi : i < 3)
    (h : ∀ j, j / 3 = k → j ≠ 3 * k + i → byteAt rx j = byteAt s j) :
    frameWord rx k = (frameWord s k).set i (byteAt rx (3 * k + i)) := by
  match i, hi with
  | 0, _ => rw [frameWord, frameWord, h (3 * k + 1) (by omega) (by omega), h (3 * k + 2) (by omega) (by omega)]; rfl
  | 1, _ => rw [frameWord, frameWord, h (3 * k) (by omega) (by omega), h (3 * k + 2) (by omega) (by omega)]; rfl
  | 2, _ => rw [frameWord, frameWord, h (3 * k) (by omega) (by omega), h (3 * k + 1) (by omega) (by omega)]; rfl

/-! ### Encoded frames -/

section EncodedFrame

variable {d rx : List Byte} {W k : Nat} (hd : d.length = 2 * W)
include hd

/-- R131: Word `k` of an encoded frame is built from data bytes `2k` and `2k + 1`. -/
theorem frameWord_encWords (hk : k < W) :
    frameWord (encWords d) k = wordBuild (byteAt d (2 * k)) (byteAt d (2 * k + 1)) := by
  obtain ⟨h0, h1, h2⟩ := byteAt_encWords W d hd k hk
  rw [frameWord, h0, h1, h2, wordBuild]

theorem wordOk_frameWord_encWords (hk : k < W) : wordOk (frameWord (encWords d) k) = true := by
  rw [frameWord_encWords hd hk]
  exact beq_self_eq_true _

/-- R159 (b): the data view of an encoded frame is the data. -/
theorem dataView_encWords : dataView (encWords d) W = d := by
  refine ext_byteAt _ _ (by rw [dataView_length, hd]) fun i hi => ?_
  rw [dataView_length] at hi
  have hk : i / 2 < W := by omega
  obtain ⟨hv0, hv1⟩ := byteAt_dataView (encWords d) W (i / 2) hk
  obtain ⟨he0, he1, -⟩ := byteAt_encWords W d hd (i / 2) hk
  obtain h | h : i = 2 * (i / 2) ∨ i = 2 * (i / 2) + 1 := by omega
  · rw [h, hv0, he0]
  · rw [h, hv1, he1]

/-- R159 (d): a Word of an encoded frame is invalid only with an altered byte. -/
theorem exists_altered_of_wordOk_eq_false (hk : k < W) (h : wordOk (frameWord rx k) = false) :
    ∃ j, j / 3 = k ∧ byteAt rx j ≠ byteAt (encWords d) j := by
  by_contra hnone
  push Not at hnone
  rw [frameWord_congr hnone, wordOk_frameWord_encWords hd hk] at h
  cases h

/-- R118, R159 (c): a Word of an encoded frame with exactly one altered byte is invalid. -/
theorem wordOk_eq_false_of_one_altered {j : Nat} (hk : k < W) (hj : j / 3 = k)
    (hne : byteAt rx j ≠ byteAt (encWords d) j)
    (h : ∀ j', j' / 3 = k → j' ≠ j → byteAt rx j' = byteAt (encWords d) j') :
    wordOk (frameWord rx k) = false := by
  obtain ⟨i, hi, rfl⟩ : ∃ i, i < 3 ∧ j = 3 * k + i := ⟨j % 3, by omega, by omega⟩
  rw [← byteAt_frameWord (encWords d) k hi, frameWord_encWords hd hk] at hne
  rw [frameWord_eq_set hi h, frameWord_encWords hd hk]
  exact wordOk_wordBuild_set _ _ i _ hi hne

/-- R159 (c): one altered byte is found at its own Word; the Words before it are as they were encoded. -/
theorem validateFrame_set {j : Nat} {x : Byte} (hj : j < 3 * W) (hx : x ≠ byteAt (encWords d) j) :
    validateFrame ((encWords d).set j x) W = .checksumFailure (j / 3) := by
  have hk : j / 3 < W := by omega
  have hother : ∀ i, i ≠ j → byteAt ((encWords d).set j x) i = byteAt (encWords d) i :=
    fun i hi => byteAt_set_ne _ j i x hi
  have hsame : byteAt ((encWords d).set j x) j = x := byteAt_set_same _ j x (by rwa [encWords_length W d hd])
  refine (validateFrame_eq_failure_iff _ W _).mpr ⟨hk, ?_, fun i hi => ?_⟩
  · exact wordOk_eq_false_of_one_altered hd hk rfl (by rwa [hsame]) fun i _ hi => hother i hi
  · rw [frameWord_congr fun i' hi' => hother i' (by rintro rfl; omega)]
    exact wordOk_frameWord_encWords hd (hi.trans hk)

/-- R159 (d): an altered frame passes or fails at an altered Word. -/
theorem validateFrame_ok_or_altered (rx : List Byte) :
    validateFrame rx W = .ok ∨ ∃ k j, validateFrame rx W = .checksumFailure k ∧ k < W ∧ j / 3 = k ∧
      byteAt rx j ≠ byteAt (encWords d) j := by
  cases hv : validateFrame rx W with
  | ok => exact .inl rfl
  | checksumFailure k =>
    obtain ⟨hk, hbad, -⟩ := (validateFrame_eq_failure_iff rx W k).mp hv
    obtain ⟨j, hj, hne⟩ := exists_altered_of_wordOk_eq_false hd hk hbad
    exact .inr ⟨k, j, rfl, hk, hj, hne⟩

/-- R159 (d): in a frame that passes, an altered Word has a second altered byte. -/
theorem exists_second_altered {j : Nat} (hok : validateFrame rx W = .ok) (hk : k < W) (hj : j / 3 = k)
    (hne : byteAt rx j ≠ byteAt (encWords d) j) :
    ∃ j', j' / 3 = k ∧ j' ≠ j ∧ byteAt rx j' ≠ byteAt (encWords d) j' := by
  by_contra hnone
  push Not at hnone
  have hgood := (validateFrame_eq_ok_iff rx W).mp hok k hk
  rw [wordOk_eq_false_of_one_altered hd hk hj hne hnone] at hgood
  cases hgood

end EncodedFrame

end Sys2Proof.Machine

/-! ### The statements about validation -/

namespace Sys2Proof.Proofs

open Sys2Proof Sys2Proof.Machine

/-- Settles O14: the two answers of the word loop, each Word's check written out. -/
theorem firstInvalidWordWins : Obligations.FirstInvalidWordWins := by
  intro rx W
  simp only [← wordOk_frameWord_iff, ← wordOk_frameWord_eq_false_iff]
  exact ⟨validateFrame_eq_ok_iff rx W, validateFrame_eq_failure_iff rx W⟩

/-- Settles O13: every Word of an encoded frame is valid, and one altered byte makes its Word invalid. -/
theorem alteredFramesAreFound : Obligations.AlteredFramesAreFound := by
  intro d W hd
  refine ⟨(validateFrame_eq_ok_iff _ W).mpr fun k hk => wordOk_frameWord_encWords hd hk, dataView_encWords hd,
    fun j x hj hx => validateFrame_set hd hj hx, fun rx _ => ⟨validateFrame_ok_or_altered hd rx, ?_⟩⟩
  exact fun hok k j hk hj hne => exists_second_altered hd hok hk hj hne

end Sys2Proof.Proofs
end

section
/-! The Value Decoders (43_value_decoders.md R170 to R189): they undo the reference encoders, and the bounds of the
string decoder. Every command completes when its calls are answered (R251). -/

namespace Sys2Proof.Machine

open Sys2Proof

/-! ### Values as bytes, most significant first -/

/-- R91, R170: the four bytes of a 32-bit value, wherever they stand in the data, combine to it. -/
theorem decBe32_of_u32Bytes (D : List Byte) (j : Nat) (v : Word32)
    (h : ∀ i, i < 4 → byteAt D (j + i) = byteAt (u32Bytes v) i) : decBe32 D j = v := by
  have h0 : byteAt D j = v.extractLsb' 24 8 := h 0 (by omega)
  have h1 : byteAt D (j + 1) = v.extractLsb' 16 8 := h 1 (by omega)
  have h2 : byteAt D (j + 2) = v.extractLsb' 8 8 := h 2 (by omega)
  have h3 : byteAt D (j + 3) = v.extractLsb' 0 8 := h 3 (by omega)
  rw [decBe32, h0, h1, h2, h3, BitVec.extractLsb'_append_extractLsb'_eq_extractLsb' (show 24 = 16 + 8 from rfl),
    BitVec.extractLsb'_append_extractLsb'_eq_extractLsb' (show 16 = 8 + 8 from rfl),
    BitVec.extractLsb'_append_extractLsb'_eq_extractLsb' (show 8 = 0 + 8 from rfl), BitVec.extractLsb'_eq_self]

/-- R174: the two bytes of a 16-bit value combine to it. -/
theorem decU16_of_u16Bytes (D : List Byte) (k : Nat) (v : Half)
    (h : ∀ i, i < 2 → byteAt D (2 * k + i) = byteAt (u16Bytes v) i) : decU16 D k = v := by
  have h0 : byteAt D (2 * k) = v.extractLsb' 8 8 := h 0 (by omega)
  have h1 : byteAt D (2 * k + 1) = v.extractLsb' 0 8 := h 1 (by omega)
  rw [decU16, h0, h1, BitVec.extractLsb'_append_extractLsb'_eq_extractLsb' (show 8 = 0 + 8 from rfl),
    BitVec.extractLsb'_eq_self]

/-! ### Values laid out one after the other -/

section FixedWidth

variable {α : Type} {f : α → List Byte} {n : Nat} (hf : ∀ x, (f x).length = n)
include hf

theorem flatMap_length_of_fixedWidth (l : List α) : (l.flatMap f).length = n * l.length := by
  simp [List.length_flatMap, hf, Nat.mul_comm]

/-- Byte `j` of value `i` stands at index `n * i + j`. -/
theorem byteAt_flatMap_of_fixedWidth (l : List α) (i j : Nat) (hi : i < l.length) (hj : j < n) :
    byteAt (l.flatMap f) (n * i + j) = byteAt (f l[i]) j := by
  induction l generalizing i with
  | nil => exact absurd hi (Nat.not_lt_zero i)
  | cons x l ih =>
    rw [List.flatMap_cons]
    cases i with
    | zero => simpa using byteAt_append_left (f x) (l.flatMap f) j (by rwa [hf])
    | succ i =>
      have hidx : n * (i + 1) + j = n + (n * i + j) := by rw [Nat.mul_succ]; omega
      rw [hidx, byteAt_append_right _ _ _ (by rw [hf]; omega), hf, Nat.add_sub_cancel_left]
      exact ih i (Nat.lt_of_succ_lt_succ hi)

end FixedWidth

/-- R131, R140: a set of values encoded one by one is the Words of all their bytes. -/
theorem flatMap_encF32 (l : List Word32) : l.flatMap encF32 = encWords (l.flatMap u32Bytes) := by
  induction l with
  | nil => rfl
  | cons v l ih => rw [List.flatMap_cons, List.flatMap_cons, encWords_append 2 _ _ (u32Bytes_length v), ih]; rfl

/-- R140: the data view of an encoded float set is the bytes of its patterns. -/
theorem dataView_encF32set (p : Vector Word32 10) : dataView (encF32set p) 20 = p.toList.flatMap u32Bytes := by
  have hl := flatMap_length_of_fixedWidth u32Bytes_length p.toList
  rw [Vector.length_toList] at hl
  rw [encF32set, flatMap_encF32, dataView_encWords hl]

/-- R141: the data view of an encoded integer set is the bytes of its values. -/
theorem dataView_encU16set (u : Vector Half 10) : dataView (encU16set u) 10 = u.toList.flatMap u16Bytes := by
  have hl := flatMap_length_of_fixedWidth u16Bytes_length u.toList
  rw [Vector.length_toList] at hl
  rw [encU16set, dataView_encWords hl]

/-- R171, R172: the ten channels of the bytes of ten patterns are the patterns. -/
theorem decF32set_u32Bytes (p : Vector Word32 10) : decF32set (p.toList.flatMap u32Bytes) = p := by
  ext1 i hi
  have hi' : i < p.toList.length := by rwa [Vector.length_toList]
  rw [decF32set, Vector.getElem_ofFn, decF32]
  refine decBe32_of_u32Bytes _ _ _ fun j hj => ?_
  rw [byteAt_flatMap_of_fixedWidth u32Bytes_length _ i j hi' hj, Vector.getElem_toList]

/-- R175: the ten channels of the bytes of ten 16-bit values are the values. -/
theorem decU16set_u16Bytes (u : Vector Half 10) : decU16set (u.toList.flatMap u16Bytes) = u := by
  ext1 i hi
  have hi' : i < u.toList.length := by rwa [Vector.length_toList]
  rw [decU16set, Vector.getElem_ofFn]
  refine decU16_of_u16Bytes _ _ _ fun j hj => ?_
  rw [byteAt_flatMap_of_fixedWidth u16Bytes_length _ i j hi' hj, Vector.getElem_toList]

/-- R159: every Word of an encoded frame is valid. -/
theorem validateFrame_encWords {d : List Byte} {W : Nat} (hd : d.length = 2 * W) : validateFrame (encWords d) W = .ok :=
  (validateFrame_eq_ok_iff _ W).mpr fun _ hk => wordOk_frameWord_encWords hd hk

/-! ### Strings -/

theorem byteAt_take (s : List Byte) (n i : Nat) (h : i < n) : byteAt (s.take n) i = byteAt s i := by
  simp only [byteAt, List.getD_eq_getElem?_getD, List.getElem?_take_of_lt h]

/-- R187 (a): how many characters are taken. -/
theorem asciiChars_length (D : List Byte) (room : Nat) :
    (asciiChars D room).length = min room (D.findIdx (· == 0x00#8)) := by
  rw [asciiChars_eq_take, List.length_take, Nat.min_assoc, Nat.min_eq_left List.findIdx_le_length]

/-- R187 (d): the characters are the first data bytes. -/
theorem byteAt_asciiChars (D : List Byte) (room i : Nat) (hi : i < (asciiChars D room).length) :
    byteAt (asciiChars D room) i = byteAt D i := by
  rw [asciiChars_length] at hi
  rw [asciiChars_eq_take, byteAt_take _ _ _ hi]

/-- R186: characters first, zeros after them. -/
theorem byteAt_decAscii (strMax : Nat) (D : List Byte) (cap : Byte) (i : Nat) :
    byteAt (decAscii strMax D cap).1 i = byteAt (asciiChars D (cap.toNat - 1)) i := by
  rw [decAscii_fst]
  rcases Nat.lt_or_ge i (asciiChars D (cap.toNat - 1)).length with h | h
  · exact byteAt_append_left _ _ i h
  · rw [byteAt_append_right _ _ i h, byteAt_replicate_zero, byteAt_of_length_le _ i h]

/-- R187 (h): the decoder looks at its characters alone. -/
theorem decAscii_congr (strMax : Nat) {D D' : List Byte} (cap : Byte)
    (h : asciiChars D' (cap.toNat - 1) = asciiChars D (cap.toNat - 1)) :
    decAscii strMax D' cap = decAscii strMax D cap := by
  rw [decAscii, decAscii, h]

/-- R187 (c): the view of a read is shorter than the string buffer. -/
theorem view_length_le_strMax (c : Config) {W : Nat} (hW : W ≤ c.scratchMax / 3) : 2 * W ≤ c.strMax - 1 := by
  rw [Config.strMax]
  omega

/-- R142: the first zero byte of a padded string is where the string ends. -/
theorem findIdx_zero_append_replicate (s : List Byte) (n : Nat) (hs : ∀ b ∈ s, b ≠ 0x00#8) :
    (s ++ List.replicate n 0x00#8).findIdx (· == 0x00#8) = s.length := by
  have hnone : s.findIdx (· == 0x00#8) = s.length :=
    List.findIdx_eq_length_of_false fun b hb => beq_eq_false_iff_ne.mpr (hs b hb)
  have hpad : (List.replicate n 0x00#8).findIdx (· == 0x00#8) = 0 := by cases n <;> rfl
  rw [List.findIdx_append, hnone, if_neg (Nat.lt_irrefl _), hpad, Nat.zero_add]

theorem dataView_encAscii (s : List Byte) (W : Nat) (h : s.length ≤ 2 * W) :
    dataView (encAscii s W) W = s ++ List.replicate (2 * W - s.length) 0x00#8 :=
  dataView_encWords (by rw [List.length_append, List.length_replicate]; omega)

/-- R142, R186: of an encoded string the decoder takes the characters there is room for. -/
theorem asciiChars_encAscii (s : List Byte) (W room : Nat) (hs : ∀ b ∈ s, b ≠ 0x00#8) (hl : s.length ≤ 2 * W) :
    asciiChars (dataView (encAscii s W) W) room = s.take (min room s.length) := by
  rw [dataView_encAscii s W hl, asciiChars_eq_take, findIdx_zero_append_replicate _ _ hs,
    List.take_append_of_le_length (Nat.min_le_right _ _)]

/-! ### Commands whose calls are answered -/

/-- R155, R250: a read that has its bytes is done, whether or not they are valid. -/
theorem State.finishRead_done (s : State) (r : RxPlan) (bs : List Byte) :
    (s.finishRead r bs).status.done = true ∧ (s.finishRead r bs).status.busy = false := by
  rcases State.finishRead_cases s r bs with ⟨-, h⟩ | ⟨k, -, h⟩ <;> rw [h] <;> exact ⟨rfl, rfl⟩

end Sys2Proof.Machine

/-! ### The statements about the value decoders and the completion of commands -/

namespace Sys2Proof.Proofs

open Sys2Proof Sys2Proof.Machine Sys2Proof.Claims

/-- Settles O15: the data view of an encoded frame is what was encoded, of which the decoders read every value where the
encoder laid it. -/
theorem decodersInvertTheEncoders : Obligations.DecodersInvertTheEncoders := by
  refine ⟨fun v => ⟨?_, validateFrame_encWords (u32Bytes_length v)⟩, fun p => ?_, fun u => ?_, ?_⟩
  · rw [encU32, dataView_encWords (u32Bytes_length v)]
    exact decBe32_of_u32Bytes _ 0 v fun i _ => by rw [Nat.zero_add]
  · rw [dataView_encF32set, decF32set_u32Bytes]
  · rw [dataView_encU16set, decU16set_u16Bytes]
  · intro strMax s W cap _ hs hl
    have hchars := asciiChars_encAscii s W (cap.toNat - 1) hs hl
    have hlen : (s.take (min (cap.toNat - 1) s.length)).length = min (cap.toNat - 1) s.length :=
      List.length_take_of_le (Nat.min_le_right _ _)
    constructor
    · rw [decAscii_snd, hchars, hlen]
    · rw [decAscii_fst, hchars, List.take_left' hlen]

/-- Settles O16: the string is its characters, which are the data bytes before the first zero that there is room for. -/
theorem stringDecoderBounds : Obligations.StringDecoderBounds := by
  intro c D cap _
  let chars : List Byte := asciiChars D (cap.toNat - 1)
  obtain ⟨hroom, hdata⟩ : chars.length ≤ cap.toNat - 1 ∧ chars.length ≤ D.length := asciiChars_length_le D _
  refine ⟨asciiChars_length D _, hroom, fun W hD hW => ?_, fun i hi => ?_, fun m hm => ?_, ?_, ?_, fun D' hD' => ?_⟩
  · have hview : D.length ≤ c.strMax - 1 := hD.trans_le (view_length_le_strMax c hW)
    refine ⟨hdata, hview, ?_⟩
    rw [decAscii_fst, List.length_append, List.length_replicate]
    exact Nat.add_sub_cancel' (hdata.trans (hview.trans (Nat.sub_le _ _)))
  · have hbyte := byteAt_asciiChars D (cap.toNat - 1) i hi
    refine ⟨(byteAt_decAscii _ D cap i).trans hbyte, ?_⟩
    rw [← hbyte, byteAt_eq_getElem _ i hi]
    exact asciiChars_ne_zero D _ _ (List.getElem_mem hi)
  · rw [byteAt_decAscii, byteAt_of_length_le _ m hm]
  · rintro rfl
    exact Nat.le_zero.mp hroom
  · intro h0
    exact Nat.le_zero.mp (hdata.trans_eq h0)
  · refine decAscii_congr _ cap ?_
    rw [asciiChars_eq_take, asciiChars_eq_take, hD']

/-- Settles O35: a command is refused for its operand, or ends on the answer to its write, or on the answer to its
read. -/
theorem everyCommandCompletes : Obligations.EveryCommandCompletes := by
  intro i s rx rest hlen henv
  cases hw : i.wellFormed with
  | false => exact ⟨_, exec_of_not_wellFormed i s hw, rfl, rfl, rfl, rfl⟩
  | true =>
    rcases henv with he | hdone
    · exact ⟨_, exec_write_failed i s rest hw he, rfl, rfl, rfl, rfl⟩
    · cases hr : (s.launch i).plan.rx with
      | none =>
        obtain ⟨rest', he⟩ : ∃ rest', s.env = .answer .done :: rest' := hdone.elim (⟨_, ·⟩) (⟨_, ·⟩)
        exact ⟨_, exec_write_answered i s rest' hw hr he, rfl, rfl, rfl, rfl⟩
      | some r =>
        rcases hdone with he | he
        · exact ⟨_, exec_read_failed i s r rest hw hr he, rfl, rfl, rfl, rfl⟩
        · have hread : readShaped s.cfg i = some (r.kind, r.nbytes) := by
            rw [readShaped_eq_romRow s.cfg (s.launch i).samp]
            exact congrArg (Option.map _) hr
          exact ⟨_, exec_read_answered i s r rx rest hw hr he (hlen _ _ hread), State.finishRead_phase _ r rx,
            (State.finishRead_waitKeeps _ r rx).go, State.finishRead_done _ r rx⟩

end Sys2Proof.Proofs
end

section
/-! The commands without an operand (44_commands.md R201 to R219): each is the row of its opcode, and what its decoder
makes of the data view is read off the wire bytes. -/

namespace Sys2Proof.Machine

open Sys2Proof Sys2Proof.Claims

/-! ### Values from the wire bytes -/

/-- R154, R174: a 16-bit value is the data bytes of its Word. -/
theorem decU16_dataView (rx : List Byte) (W k : Nat) (hk : k < W) :
    decU16 (dataView rx W) k = byteAt rx (3 * k) ++ byteAt rx (3 * k + 1) := by
  obtain ⟨h0, h1⟩ := byteAt_dataView rx W k hk
  rw [decU16, h0, h1]

/-- R154, R170: a 32-bit value is the data bytes of two successive Words. -/
theorem decBe32_dataView (rx : List Byte) (W i : Nat) (hi : 2 * i + 1 < W) :
    decBe32 (dataView rx W) (4 * i) =
      byteAt rx (6 * i) ++ byteAt rx (6 * i + 1) ++ byteAt rx (6 * i + 3) ++ byteAt rx (6 * i + 4) := by
  have hidx : 2 * (2 * i) = 4 * i ∧ 2 * (2 * i + 1) = 4 * i + 2 ∧ 3 * (2 * i) = 6 * i ∧ 3 * (2 * i + 1) = 6 * i + 3 := by
    omega
  obtain ⟨hd0, hd1, hx0, hx1⟩ := hidx
  obtain ⟨h0, h1⟩ := byteAt_dataView rx W (2 * i) (by omega)
  obtain ⟨h2, h3⟩ := byteAt_dataView rx W (2 * i + 1) hi
  rw [hd0, hx0] at h0 h1
  rw [hd1, hx1] at h2 h3
  rw [decBe32, h0, h1, h2, h3]

/-! ### What a delivered read leaves in its registers, in wire bytes (R203 to R205, R209, R213, R214) -/

section Deliver

variable (x : State) (r : RxPlan)

theorem State.deliver_r16_wire (hdec : r.dec = .u16) (hW : r.words = 1) :
    (x.deliver r).r16 = byteAt x.received 0 ++ byteAt x.received 1 := by
  rw [x.deliver_r16_of_dec r hdec, hW, decU16_dataView _ 1 0 Nat.one_pos]

theorem State.deliver_rf_wire (hdec : r.dec = .f32set) (hW : r.words = 20) (i : Fin 10) :
    (x.deliver r).rf.get i = byteAt x.received (6 * i.val) ++ byteAt x.received (6 * i.val + 1) ++
      byteAt x.received (6 * i.val + 3) ++ byteAt x.received (6 * i.val + 4) := by
  rw [x.deliver_rf_of_dec r hdec, hW, decF32set, Vector.get_ofFn, decF32, decBe32_dataView _ 20 i.val (by omega)]

theorem State.deliver_ru_wire (hdec : r.dec = .u16set) (hW : r.words = 10) (i : Fin 10) :
    (x.deliver r).ru.get i = byteAt x.received (3 * i.val) ++ byteAt x.received (3 * i.val + 1) := by
  rw [x.deliver_ru_of_dec r hdec, hW, decU16set, Vector.get_ofFn, decU16_dataView _ 10 i.val i.isLt]

theorem State.deliver_r32_wire (hdec : r.dec = .u32) (hW : r.words = 2) :
    (x.deliver r).r32 =
      byteAt x.received 0 ++ byteAt x.received 1 ++ byteAt x.received 3 ++ byteAt x.received 4 := by
  rw [x.deliver_r32_of_dec r hdec, hW]
  exact decBe32_dataView x.received 2 0 (by decide)

theorem State.deliver_version_wire (hdec : r.dec = .ver) (hW : r.words = 1) :
    (x.deliver r).rvMajor = byteAt x.received 0 ∧ (x.deliver r).rvMinor = byteAt x.received 1 := by
  rw [x.deliver_rvMajor_of_dec r hdec, x.deliver_rvMinor_of_dec r hdec, hW]
  exact byteAt_dataView x.received 1 0 Nat.one_pos

end Deliver

/-! ### Rows without an operand -/

/-- R217: a row that sends its pointer alone. -/
theorem writeOutcomes_pointerOnly (i : Instr) (hw : i.wellFormed = true) (hs : writeShaped i = some 2) :
    WriteOutcomes i fun _ => encPtr i.opc := by
  refine writeOutcomes_of_row i _ hw (fun c a => (romRow_of_writeShaped c a i 2 hs).1) fun s => ?_
  have hdata : sentData s i = [] := by
    rw [← s.launch_plan_data i]
    exact (romRow_of_writeShaped _ _ i 2 hs).2.2 rfl
  rw [hdata]
  exact List.append_nil _

/-- R98, R217: each entry of the list is the word that `encode` makes of its command, and the pointer of its opcode. -/
theorem pointerOnly_entry {i : Instr} {cw : Word32} {ptr : List Byte} (h : (i, cw, ptr) ∈ pointerOnly) :
    cw = encode i ∧ ptr = encPtr i.opc ∧ i.wellFormed = true ∧ writeShaped i = some 2 := by
  have hall : ∀ e ∈ pointerOnly, e.2.1 = encode e.1 ∧ e.2.2 = encPtr e.1.opc ∧ e.1.wellFormed = true ∧
      writeShaped e.1 = some 2 := by decide
  exact hall _ h

/-- R209, R214: a read of two Words into `R32`, whatever its opcode. -/
theorem readOutcomes_counter (i : Instr) (opc : Half) (hw : i.wellFormed = true)
    (hrow : ∀ c a, romRow c a i = rowRead opc 6 2 .u32 .u32) :
    ReadOutcomes i (encPtr opc) (fun _ => 6) (fun _ => 2) .u32 0x0032#16 CounterResult :=
  readOutcomes_of_row i opc _ _ .u32 .u32 _ hw hrow State.deliver_r32_wire

end Sys2Proof.Machine

/-! ### The statements about the commands without an operand -/

namespace Sys2Proof.Proofs

open Sys2Proof Sys2Proof.Machine Sys2Proof.Claims

/-- Settles O18: the six commands share the row that sends its pointer alone. -/
theorem pointerOnlyCommandsComplete : Obligations.PointerOnlyCommandsComplete := by
  intro i cw ptr h
  obtain ⟨rfl, rfl, hw, hs⟩ := pointerOnly_entry h
  exact ⟨decodeOfEncodeIsTheCommand i, writeOutcomes_pointerOnly i hw hs⟩

/-- Settles O20: the data bytes are those of `ARG_DATA`, and the frame makes two Words of them. -/
theorem setaciCompletes : Obligations.SetaciCompletes :=
  ⟨decodeOfEncodeIsTheCommand .setaci, writeOutcomes_of_row .setaci _ rfl (fun _ _ => rfl) fun _ => rfl⟩

/-- Settles O21: one Word, decoded into `R16`. -/
theorem rdrdyCompletes : Obligations.RdrdyCompletes :=
  ⟨decodeOfEncodeIsTheCommand .rdrdy,
    readOutcomes_of_row .rdrdy 0x0202#16 _ _ .u16 .u16 _ rfl (fun _ _ => rfl) State.deliver_r16_wire⟩

/-- Settles O22: twenty Words, two for each channel of `RF`. -/
theorem rdvalFCompletes : Obligations.RdvalFCompletes :=
  ⟨decodeOfEncodeIsTheCommand .rdvalF,
    readOutcomes_of_row .rdvalF 0x0300#16 _ _ .f32set .f32x10 _ rfl (fun _ _ => rfl) State.deliver_rf_wire⟩

/-- Settles O23: ten Words, one for each channel of `RU`. -/
theorem rdvalICompletes : Obligations.RdvalICompletes :=
  ⟨decodeOfEncodeIsTheCommand .rdvalI,
    readOutcomes_of_row .rdvalI 0x0300#16 _ _ .u16set .u16x10 _ rfl (fun _ _ => rfl) State.deliver_ru_wire⟩

/-- Settles O24: GETACI reads a counter with the opcode that SETACI writes with. -/
theorem getaciCompletes : Obligations.GetaciCompletes :=
  ⟨decodeOfEncodeIsTheCommand .getaci, readOutcomes_counter .getaci 0x8004#16 rfl fun _ _ => rfl⟩

/-- Settles O27: one Word, whose two data bytes are the versions. -/
theorem rdverCompletes : Obligations.RdverCompletes :=
  ⟨decodeOfEncodeIsTheCommand .rdver,
    readOutcomes_of_row .rdver 0xD100#16 _ _ .ver .ver _ rfl (fun _ _ => rfl) State.deliver_version_wire⟩

/-- Settles O28: RDSTAT reads its two Words as GETACI does. -/
theorem rdstatCompletes : Obligations.RdstatCompletes :=
  ⟨decodeOfEncodeIsTheCommand .rdstat, readOutcomes_counter .rdstat 0xD206#16 rfl fun _ _ => rfl⟩

end Sys2Proof.Proofs
end

section
/-! How a command comes to raise an error, and what the error records (60_exceptions.md R240 to R248). -/

namespace Sys2Proof.Machine

open Sys2Proof Sys2Proof.Safety Sys2Proof.Claims

/-! ### What an error records -/

/-- R245 to R248: every error is `DONE`, names no result, and leaves at 0 each fault field that is not its own. -/
theorem Status.raised_fields (e : Raised) :
    (Status.raised e).done = true ∧ (Status.raised e).busy = false ∧ (Status.raised e).resKind = .none ∧
      ((Status.raised e).err ≠ .transportFailure → (Status.raised e).faultPhase = .write) ∧
      ((Status.raised e).err ≠ .checksumFailure → (Status.raised e).faultWord = 0x00#8) := by
  cases e with
  | invalidArgument => exact ⟨rfl, rfl, rfl, fun _ => rfl, fun _ => rfl⟩
  | transportFailure p => exact ⟨rfl, rfl, rfl, fun h => absurd rfl h, fun _ => rfl⟩
  | checksumFailure k => exact ⟨rfl, rfl, rfl, fun _ => rfl, fun h => absurd rfl h⟩

/-- R248: raising an error writes `STATUS` and no result register. -/
theorem State.raise_resultsKept (s : State) (e : Raised) : ResultsKeptBut .none s (s.raise e) := resultsKept_of_eq _

/-! ### Where an error is raised -/

/-- R241 to R243: the errors that a command comes to from a state, each with the state in which it is raised: for an illegal
operand, on a failed write, on a failed read, and on a read whose bytes hold an invalid Word. -/
inductive Raises (i : Instr) (s : State) : Raised → State → Prop where
  | argument (hw : i.wellFormed = false) : Raises i s .invalidArgument s.accept
  | write (rest : List Event) (he : s.env = .answer .error :: rest) :
      Raises i s (.transportFailure .write) ((s.launch i).setEnv rest)
  | read (r : RxPlan) (rest : List Event) (hr : (s.launch i).plan.rx = some r)
      (he : s.env = .answer .done :: .answer .error :: rest) :
      Raises i s (.transportFailure .read) (((s.launch i).setEnv rest).issueRead r)
  | word (r : RxPlan) (bs : List Byte) (rest : List Event) (k : Nat) (hr : (s.launch i).plan.rx = some r)
      (he : s.env = .answer .done :: .answer (.bytes bs) :: rest) (hl : bs.length = r.nbytes)
      (hk : ((((s.launch i).setEnv rest).issueRead r).receive bs).frameCheck r = .checksumFailure k) :
      Raises i s (.checksumFailure k) (((((s.launch i).setEnv rest).issueRead r).receive bs).validate r)

/-- R155: a read that ends with an error has an invalid Word. -/
theorem State.finishRead_err (s : State) (r : RxPlan) (bs : List Byte) (h : (s.finishRead r bs).status.err ≠ .ok) :
    ∃ k, (s.receive bs).frameCheck r = .checksumFailure k ∧
      s.finishRead r bs = ((s.receive bs).validate r).raise (.checksumFailure k) := by
  rcases State.finishRead_cases s r bs with ⟨-, hf⟩ | hk
  · rw [hf] at h
    exact absurd rfl h
  · exact hk

/-- R240, R248: a command that ends with an error has raised it. -/
theorem exec_raises {i : Instr} {s t : State} (h : exec i s = .next t) (herr : t.status.err ≠ .ok) :
    ∃ e u, Raises i s e u ∧ t = u.raise e := by
  rcases exec_next i s t h with ⟨hw, rfl⟩ | ⟨-, h⟩
  · exact ⟨_, _, .argument hw, rfl⟩
  rcases State.awaitWrite_next _ t h with ⟨rfl, -⟩ | ⟨rest, he, rfl⟩ | ⟨rest, -, -, rfl⟩ | ⟨r, rest, he, hr, h⟩
  · exact absurd rfl herr
  · exact ⟨_, _, .write rest he, rfl⟩
  · exact absurd rfl herr
  rcases State.awaitRead_next _ t r h with ⟨rfl, -⟩ | ⟨rest', he', rfl⟩ | ⟨bs, rest', he', hl, rfl⟩
  · exact absurd rfl herr
  · obtain rfl : rest = .answer .error :: rest' := he'
    exact ⟨_, _, .read r rest' hr he, rfl⟩
  · obtain rfl : rest = .answer (.bytes bs) :: rest' := he'
    obtain ⟨k, hk, hf⟩ := State.finishRead_err _ r bs herr
    exact ⟨_, _, .word r bs rest' k hr he hl hk, hf⟩

/-- R155: receiving and validating bytes writes no result register. -/
theorem State.receive_validate_resultsKept (s : State) (r : RxPlan) (bs : List Byte) :
    ResultsKeptBut .none s ((s.receive bs).validate r) := resultsKept_of_eq _

/-- R248: a command that comes to raise an error has written no result register. -/
theorem Raises.resultsKept {i : Instr} {s u : State} {e : Raised} (h : Raises i s e u) : ResultsKeptBut .none s u := by
  cases h with
  | argument => exact resultsKept_of_eq _
  | write => exact resultsKept_of_eq _
  | read => exact resultsKept_of_eq _
  | word r bs rest =>
    have hissue : ResultsKeptBut .none s (((s.launch i).setEnv rest).issueRead r) := resultsKept_of_eq _
    exact resultsKept_trans hissue (State.receive_validate_resultsKept _ r bs)

/-- R56, R57: the two calls that a read-shaped command has made once its read is pending. -/
theorem State.launch_issueRead_calls (s : State) (i : Instr) (r : RxPlan) (rest : List Event) :
    (((s.launch i).setEnv rest).issueRead r).calls =
      s.calls ++ [.write s.cfg.devAddr (s.sentBytes i) s.argTmo, .read s.cfg.devAddr r.nbytes s.argTmo] := by
  rw [State.issueRead_calls, State.setEnv_calls, State.launch_calls, List.append_assoc]
  rfl

/-- R35, R63, R157: the index of a Word of a row's read fits `FAULT_WORD`. -/
theorem romRow_word_index_lt (c : Config) (a : Sampled) (i : Instr) (r : RxPlan) (k : Nat)
    (hr : (romRow c a i).rx = some r) (hk : k < r.words) : 3 * k + 2 < r.nbytes ∧ k < 2 ^ 8 := by
  have hn := (romRow_read_fits c a i r hr).2
  have hw := (romRow_rx c a i r hr).2
  omega

/-- R153, R247: the Word at which a read's checksum failure is raised is the first invalid one received, and `FAULT_WORD`
holds its index. -/
theorem firstInvalidWord_of_frameCheck (s : State) (i : Instr) (r : RxPlan) (bs : List Byte) (rest : List Event) (k : Nat)
    (hwf : s.rxbuf.wf = true) (hr : (s.launch i).plan.rx = some r) (hl : bs.length = r.nbytes)
    (hk : ((((s.launch i).setEnv rest).issueRead r).receive bs).frameCheck r = .checksumFailure k) :
    (BitVec.ofNat 8 k).toNat = k ∧ 3 * k + 2 < bs.length ∧ wordOk (frameWord bs k) = false ∧
      ∀ j, j < k → wordOk (frameWord bs j) = true := by
  rw [State.frameCheck_receive (((s.launch i).setEnv rest).issueRead r) r bs hwf, validateFrame_eq_failure_iff] at hk
  obtain ⟨hlt, hbad, hgood⟩ := hk
  obtain ⟨hin, h8⟩ := romRow_word_index_lt _ _ i r k hr hlt
  exact ⟨Nat.mod_eq_of_lt h8, hl ▸ hin, hbad, hgood⟩

/-! ### Illegal words -/

/-- R97, R241: with an illegal word `GO` raises `InvalidArgument`, whether the decoder or the command finds it (log 9). -/
theorem step_of_not_legalWord (s : State) (hs : s.rst = false) (hp : s.phase = .idle) (hg : s.go = true)
    (hl : ¬ LegalWord s.cw) : step s = .next (s.accept.raise .invalidArgument) := by
  rw [step_idle_go s hs hp hg]
  cases hd : decode s.cw with
  | illegal e => rfl
  | command i =>
    have hw : i.wellFormed = false := Bool.eq_false_iff.mpr fun hw =>
      hl ((Proofs.legalWordsAreTheWellFormedCommands s.cw).mpr ⟨i, hd, hw⟩)
    exact exec_of_not_wellFormed i s hw

/-- R82, R241: a command with a legal operand raises no `InvalidArgument`, whatever the Transport answers. -/
theorem exec_err_ne_invalidArgument {i : Instr} {s t : State} (hw : i.wellFormed = true) (h : exec i s = .next t) :
    t.status.err ≠ .invalidArgument := by
  intro herr
  obtain ⟨e, u, hu, rfl⟩ := exec_raises h (by rw [herr]; exact nofun)
  cases hu with
  | argument hf => rw [hw] at hf; cases hf
  | write => cases herr
  | read => cases herr
  | word => cases herr

end Sys2Proof.Machine

/-! ### The statements about the errors -/

namespace Sys2Proof.Proofs

open Sys2Proof Sys2Proof.Machine Sys2Proof.Claims

/-- Settles O6: an illegal word is refused before anything is built; a legal one is a command whose operand is legal. -/
theorem invalidArgumentExactlyForIllegalWords : Obligations.InvalidArgumentExactlyForIllegalWords := by
  intro s hs hp hg
  constructor
  · intro hl
    exact ⟨_, step_of_not_legalWord s hs hp hg hl, Status.word_invalidArgument, rfl, rfl, rfl, rfl, rfl, rfl, rfl, rfl,
      argumentsKept_of_eq, resultsKept_of_eq _, rfl, rfl⟩
  · intro hl t ht
    obtain ⟨i, hdec, hw⟩ := (legalWordsAreTheWellFormedCommands s.cw).mp hl
    rw [step_of_decoded s i hs hp hg hdec] at ht
    exact exec_err_ne_invalidArgument hw ht

/-- Settles O33: what every error records, and then, for each way to raise one, the calls made and the answers met. -/
theorem errorsArePrecise : Obligations.ErrorsArePrecise := by
  intro i s t h herr
  have hargs := exec_argumentsKept i s t h
  obtain ⟨e, u, hu, rfl⟩ := exec_raises h herr
  obtain ⟨hdone, hbusy, hkind, hphase, hword⟩ := Status.raised_fields e
  have hkept := resultsKept_trans hu.resultsKept (u.raise_resultsKept e)
  refine ⟨hdone, hbusy, hkind, hphase, hword, rfl, hargs, hkept, noResult_of_status _ (.inr (.inr hkind)), ?_⟩
  cases hu with
  | argument => exact ⟨fun _ => rfl, nofun, nofun, nofun, nofun⟩
  | write rest he => exact ⟨nofun, fun _ _ => ⟨he, _, _, _, rfl⟩, fun _ => nofun, nofun, nofun⟩
  | read r rest hr he =>
    exact ⟨nofun, fun _ => nofun, fun _ _ => ⟨he, _, _, _, _, s.launch_issueRead_calls i r rest⟩, nofun, nofun⟩
  | word r bs rest k hr he hl hk =>
    refine ⟨nofun, nofun, nofun, fun _ => ⟨_, _, _, _, s.launch_issueRead_calls i r rest⟩, fun _ hwf => ⟨bs, he, ?_⟩⟩
    obtain ⟨hindex, hfirst⟩ := firstInvalidWord_of_frameCheck s i r bs rest k hwf hr hl hk
    exact hindex.symm ▸ hfirst

end Sys2Proof.Proofs
end

section
/-! The block while `RST` is asserted (70_reset_and_hazards.md R270, R271). -/

namespace Sys2Proof.Machine

open Sys2Proof

/-! ### The environment's moves while the block is held -/

/-- R270: held in reset, the block makes nothing of a host operation that is neither a read nor the release (log 23). -/
theorem hostOpHeld_of_lost (op : HostOp) (s : State) (hread : ∀ r, op ≠ .read r) (hrelease : op ≠ .rstRelease) :
    hostOpHeld op s = .next s := by
  cases op with
  | read r => exact absurd rfl (hread r)
  | rstRelease => exact absurd rfl hrelease
  | _ => rfl

theorem hostOpHeld_read_value (s : State) (r : HostReg) (v : Nat) (hv : s.hostRead r = .value v) :
    hostOpHeld (.read r) s = .next (s.setRdata v) := by
  rw [hostOpHeld, hostOp, hv]

theorem hostOpHeld_read_refused (s : State) (r : HostReg) (e : Refusal) (he : s.hostRead r = .refused e) :
    hostOpHeld (.read r) s = .refused e := by
  rw [hostOpHeld, hostOp, he]

theorem step_held_nil (s : State) (hs : s.rst = true) (henv : s.env = []) : step s = .next s := by
  rw [step_held s hs, heldStep, henv]

theorem step_held_answer (s : State) (a : Answer) (rest : List Event) (hs : s.rst = true)
    (henv : s.env = .answer a :: rest) : step s = .next (s.setEnv rest) := by
  rw [step_held s hs, heldStep, henv]

theorem step_held_host (s : State) (op : HostOp) (rest : List Event) (hs : s.rst = true)
    (henv : s.env = .host op :: rest) : step s = hostOpHeld op (s.setEnv rest) := by
  rw [step_held s hs, heldStep, henv]

end Sys2Proof.Machine

/-! ### The statement about `RST` while it is asserted -/

namespace Sys2Proof.Proofs

open Sys2Proof Sys2Proof.Machine

/-- Settles O48, by the environment's next move: none, an answer, or a host operation, which is lost, reads or releases. -/
theorem rstIsActiveWhileAsserted : Obligations.RstIsActiveWhileAsserted := by
  intro s hs
  refine ⟨step_held_nil s hs, fun a rest => step_held_answer s a rest hs, ?lost, ?value, ?refused, ?release⟩
  case lost =>
    intro op rest henv hread hrelease
    exact (step_held_host s op rest hs henv).trans (hostOpHeld_of_lost op _ hread hrelease)
  case value =>
    intro r v rest henv hv
    rw [← s.hostRead_setEnv rest] at hv
    exact (step_held_host s _ rest hs henv).trans (hostOpHeld_read_value _ r v hv)
  case refused =>
    intro r e rest henv he
    rw [← s.hostRead_setEnv rest] at he
    exact (step_held_host s _ rest hs henv).trans (hostOpHeld_read_refused _ r e he)
  case release =>
    intro rest henv
    exact step_held_host s _ rest hs henv

end Sys2Proof.Proofs
end
